-- ==== Sys2Proof/Word.lean ====
section
/-!
DEFINITION. The two bit-vector types of the CE-8086 core: a byte is 8 bits, a word is 16 bits (00_scope.md R7).
-/

namespace Sys2Proof

/-- 8 bits (R7). -/
abbrev Byte := BitVec 8

/-- 16 bits (R7): every register slot, FLAGS, every data address. -/
abbrev Word := BitVec 16

end Sys2Proof
end

