-- ==== Sys2Proof/Config.lean ====
section
/-!
DEFINITION. What the surroundings choose for the machine: the option parameters of 00_scope.md R6 that stay fixed
from one reset to the next (R280), and the sizes the spec fixes.
-/

namespace Sys2Proof

/-- `EA_MODE` (R6, R56, D2, D3): what an address sum outside 0 to 65535, or a word access at 0xFFFF, does. -/
inductive EaMode where
  | wrap16
  | faultOnOverflow
  deriving DecidableEq, Repr

/-- `ACC_ADDR_MODE` (R6, R101, D11): how many address bytes the accumulator/memory MOV forms carry. -/
inductive AccAddrMode where
  | byW
  | always16
  deriving DecidableEq, Repr

/-- `LOOP_EXEC` (R6, R224, D10): whether LOOP, LOOPZ, LOOPNZ and JCXZ have their 8086 meaning or are refused. -/
inductive LoopExec where
  | i8086
  | refuse
  deriving DecidableEq, Repr

/-- `RUN_MODE` (R6, R237, D27). -/
inductive RunMode where
  | simulate
  | decodeOnly
  deriving DecidableEq, Repr

/-- The option parameters, latched at reset and unchanged until the next (R280).
DEDUCED, safe: they are held in State, so that a statement about every state is one about every setting (log 2). -/
structure Options where
  eaMode  : EaMode
  accAddr : AccAddrMode
  loopExec : LoopExec
  runMode : RunMode
  deriving DecidableEq, Repr

/-- The defaults of R6. -/
def Options.default : Options :=
  { eaMode := .wrap16, accAddr := .byW, loopExec := .i8086, runMode := .simulate }

/-- `MEM_SIZE` (R28, D1). -/
def Config.memSize : Nat := 65536

/-- The greatest `CODE_LEN` inside the model (R29, D5). -/
def Config.maxCodeLen : Nat := 65535

/-- What an address that no entry lists reads as: the default `MEM_INIT`, every byte 0x00 (R33, D8; log 7). -/
def Config.unlistedByte : Byte := 0

end Sys2Proof
end

