-- ==== Sys2Proof/Syntax.lean ====
section
/-!
DEFINITION. The instructions of the CE-8086 core as the decoder delivers them: one constructor of `Instr` per row of
spec/opcode_table.json, with the operand forms of 30_encoding.md; the operand descriptors of R90; the fatal
conditions of 60_exceptions.md R250.
-/

namespace Sys2Proof

/-- The width flag W (R84): `byte` is w = 0, `word` is w = 1. -/
inductive Width where
  | byte
  | word
  deriving DecidableEq, Repr

/-- The 13 register slots (R20). -/
inductive Reg where
  | ax | bx | cx | dx | sp | bp | si | di | es | cs | ss | ds | ip
  deriving DecidableEq, Repr

/-- The sixteen register operands of R88, in code order: eight byte sub-views, eight words. -/
inductive GReg where
  | al | cl | dl | bl | ah | ch | dh | bh
  | ax | cx | dx | bx | sp | bp | si | di
  deriving DecidableEq, Repr

/-- The four segment registers of R89, in code order. -/
inductive SegReg where
  | es | cs | ss | ds
  deriving DecidableEq, Repr

/-- The eight base/index pairs of R92, in code order. -/
inductive Pair where
  | bxSi | bxDi | bpSi | bpDi | si | di | bp | bx
  deriving DecidableEq, Repr

/-- The displacement as MOD encodes it: none (MOD = 00, R93), one byte (01, R94), two bytes (10, R95). -/
inductive Disp where
  | none
  | d8 (v : Byte)
  | d16 (v : Word)
  deriving DecidableEq, Repr

/-- A memory operand as the ModRM byte encodes it (R93 to R96). -/
inductive MemOperand where
  | direct (addr : Word)
  | indirect (pair : Pair) (disp : Disp)
  deriving DecidableEq, Repr

/-- The operand that MOD and R/M name (R91 to R96). -/
inductive RM where
  | reg (r : GReg)
  | mem (m : MemOperand)
  deriving DecidableEq, Repr

/-- Immediate data sized by W (R100). -/
inductive Imm where
  | byte (v : Byte)
  | word (v : Word)
  deriving DecidableEq, Repr

/-- Immediate data of format ARITHIMM, sized by S and W (R85, R100): a byte for a byte operation, a word, or a byte
that is sign-extended to a word. -/
inductive ArithImm where
  | byte (v : Byte)
  | word (v : Word)
  | sext (v : Byte)
  deriving DecidableEq, Repr

/-- The direct address of format ACCMEM: one or two bytes (R101). -/
inductive AccAddr where
  | a8 (v : Byte)
  | a16 (v : Word)
  deriving DecidableEq, Repr

/-- The direction bit D of format RMREG (R86): `toRm` is d = 0, `toReg` is d = 1. -/
inductive Dir where
  | toRm
  | toReg
  deriving DecidableEq, Repr

/-- One constructor per row of spec/opcode_table.json. DESIGN CHOICE, safe: an instruction keeps D and the size of its
displacement, which the spec's Instruction value (`Instr.instruction`, R90) does not show (log 9). -/
inductive Instr where
  | movRmReg (d : Dir) (reg : GReg) (rm : RM)
  | movRmImm (rm : RM) (imm : Imm)
  | movRegImm (reg : GReg) (imm : Imm)
  | movAccMem (w : Width) (addr : AccAddr)
  | movMemAcc (w : Width) (addr : AccAddr)
  | movRmSeg (rm : RM) (sr : SegReg)
  | movSegRm (sr : SegReg) (rm : RM)
  | addRmReg (d : Dir) (reg : GReg) (rm : RM)
  | addAccImm (imm : Imm)
  | subRmReg (d : Dir) (reg : GReg) (rm : RM)
  | subAccImm (imm : Imm)
  | cmpRmReg (d : Dir) (reg : GReg) (rm : RM)
  | cmpAccImm (imm : Imm)
  | addRmImm (rm : RM) (imm : ArithImm)
  | adcRmImm (rm : RM) (imm : ArithImm)
  | subRmImm (rm : RM) (imm : ArithImm)
  | sbbRmImm (rm : RM) (imm : ArithImm)
  | cmpRmImm (rm : RM) (imm : ArithImm)
  | jo (disp : Byte)
  | jno (disp : Byte)
  | jb (disp : Byte)
  | jnb (disp : Byte)
  | je (disp : Byte)
  | jne (disp : Byte)
  | jbe (disp : Byte)
  | jnbe (disp : Byte)
  | js (disp : Byte)
  | jns (disp : Byte)
  | jp (disp : Byte)
  | jnp (disp : Byte)
  | jl (disp : Byte)
  | jnl (disp : Byte)
  | jle (disp : Byte)
  | jnle (disp : Byte)
  | loopnz (disp : Byte)
  | loopz (disp : Byte)
  | loop (disp : Byte)
  | jcxz (disp : Byte)
  deriving DecidableEq, Repr

/-- A memory descriptor (R90): a fixed address, or one or two registers and a signed 16-bit displacement. -/
inductive MemRef where
  | direct (addr : Word)
  | indirect (base : Reg) (index : Option Reg) (disp : Word)
  deriving DecidableEq, Repr

/-- An operand that can be written (R90): a register, or its high byte when `high`, or memory; each with a width. -/
inductive Loc where
  | reg (w : Width) (r : Reg) (high : Bool)
  | mem (w : Width) (m : MemRef)
  deriving DecidableEq, Repr

/-- The operand descriptor of R90. An immediate is held at 16 bits; at width `byte` its high half is zero. -/
inductive Operand where
  | loc (l : Loc)
  | imm (w : Width) (v : Word)
  deriving DecidableEq, Repr

/-- The mnemonics (R127). -/
inductive Mnemonic where
  | mov | add | adc | sub | sbb | cmp
  | jo | jno | jb | jnb | je | jne | jbe | jnbe | js | jns | jp | jnp | jl | jnl | jle | jnle
  | loopnz | loopz | loop | jcxz
  deriving DecidableEq, Repr

/-- The operands of an Instruction value (R90): destination and source, or, for a jump, a destination only, which
holds the raw displacement (R102). -/
inductive Args where
  | two (dst : Loc) (src : Operand)
  | jump (disp : Byte)
  deriving DecidableEq, Repr

/-- The spec's Instruction value (R90): "a mnemonic plus optional source and destination Operand". -/
structure Instruction where
  mnemonic : Mnemonic
  args : Args
  deriving DecidableEq, Repr

/-- The fatal conditions F1 to F6 with the value each reports (R250). -/
inductive Fatal where
  /-- F1, byte 0 matches no key (R251). -/
  | unrecognizedOpcode (b : Byte)
  /-- F2, REG field of an ARITHIMM byte in 001, 100, 110 (R252). -/
  | unsupportedExtension (field : BitVec 3)
  /-- F3, unreachable (R253). -/
  | malformedMod (value : Byte)
  /-- F4, the index of the first missing byte (R254). -/
  | truncatedInput (index : Word)
  /-- F5, the pc above CODE_LEN (R255). -/
  | fetchOutOfRange (pc : Word)
  /-- F6, the address modulo 2^16 (R258). -/
  | memBounds (addr : Word)
  deriving DecidableEq, Repr

end Sys2Proof
end

