-- ==== Sys2Proof/WellFormed.lean ====
section
/-!
DEFINITION. Which terms of `Instr` are instructions of the machine: operands of one width, no displacement-less BP
(that encoding is the direct address, R96), and the accumulator address of the size `ACC_ADDR_MODE` gives (R101).
-/

namespace Sys2Proof

/-- The width column of R88. -/
def GReg.width : GReg → Width
  | .al | .cl | .dl | .bl | .ah | .ch | .dh | .bh => .byte
  | .ax | .cx | .dx | .bx | .sp | .bp | .si | .di => .word

/-- The width of immediate data (R100). -/
def Imm.width : Imm → Width
  | .byte _ => .byte
  | .word _ => .word

/-- The operation's width in format ARITHIMM: a sign-extended byte belongs to a word operation (R85). -/
def ArithImm.width : ArithImm → Width
  | .byte _ => .byte
  | .word _ => .word
  | .sext _ => .word

/-- R/M = 110 at MOD = 00 is the direct address, never BP without displacement (R93, R96). -/
def MemOperand.wf : MemOperand → Bool
  | .direct _ => true
  | .indirect .bp .none => false
  | .indirect _ _ => true

/-- An R/M operand that MOD and R/M can name for an operation of width `w` (R91 to R96). -/
def RM.wf (w : Width) : RM → Bool
  | .reg r => r.width == w
  | .mem m => m.wf

/-- The address size R101 gives: one byte only for a byte move under `by_w`. -/
def AccAddr.wf (mode : AccAddrMode) (w : Width) : AccAddr → Bool
  | .a8 _ => mode == .byW && w == .byte
  | .a16 _ => mode == .always16 || w == .word

/-- The instructions the decoder can deliver under `ACC_ADDR_MODE` `mode`. -/
def Instr.wf (mode : AccAddrMode) : Instr → Bool
  | .movRmReg _ reg rm | .addRmReg _ reg rm | .subRmReg _ reg rm | .cmpRmReg _ reg rm => rm.wf reg.width
  | .movRmImm rm imm => rm.wf imm.width
  | .movRegImm reg imm => reg.width == imm.width
  | .movAccMem w addr | .movMemAcc w addr => addr.wf mode w
  | .movRmSeg rm _ | .movSegRm _ rm => rm.wf .word
  | .addAccImm _ | .subAccImm _ | .cmpAccImm _ => true
  | .addRmImm rm imm | .adcRmImm rm imm | .subRmImm rm imm | .sbbRmImm rm imm | .cmpRmImm rm imm => rm.wf imm.width
  | .jo _ | .jno _ | .jb _ | .jnb _ | .je _ | .jne _ | .jbe _ | .jnbe _ => true
  | .js _ | .jns _ | .jp _ | .jnp _ | .jl _ | .jnl _ | .jle _ | .jnle _ => true
  | .loopnz _ | .loopz _ | .loop _ | .jcxz _ => true

end Sys2Proof
end

