-- ==== Sys2Proof/Decode.lean ====
section
/-!
DEFINITION. The opcode decoder and the operand resolver of 30_encoding.md, total on any bytes and rejecting by the
fatal condition's name, and after them an encoder written from the same tables.
-/

namespace Sys2Proof

/-! ### Byte order and sign extension (R8, R52, R99) -/

/-- `hi ++ lo` (R7, R99). -/
def wordOf (hi lo : Byte) : Word := hi ++ lo

/-- Bits 7:0. -/
def lowByte (v : Word) : Byte := v.extractLsb' 0 8

/-- Bits 15:8. -/
def highByte (v : Word) : Byte := v.extractLsb' 8 8

/-- `sext_16` of a byte (R8). -/
def sext16 (v : Byte) : Word := v.signExtend 16

/-- `zext_16` of a byte (R8). -/
def zext16 (v : Byte) : Word := v.setWidth 16

/-! ### Reading the code store -/

/-- The decoder's cursor (R11): the index of the next byte in the code store, and the bytes from there on. -/
structure Cursor where
  index : Nat
  rest : List Byte
  deriving DecidableEq, Repr

/-- The cursor at index `pc` of the code store. -/
def Cursor.start (code : List Byte) (pc : Nat) : Cursor := { index := pc, rest := code.drop pc }

/-- `Code(i)` at the cursor (R80): the byte there, or `TruncatedInput` at the end of the store. -/
def Cursor.byte (c : Cursor) : Except Fatal (Byte × Cursor) :=
  match c.rest with
  | [] => .error (.truncatedInput (BitVec.ofNat 16 c.index))
  | b :: rest => .ok (b, { index := c.index + 1, rest := rest })

/-- A two-byte field, low byte first (R99). -/
def Cursor.word (c : Cursor) : Except Fatal (Word × Cursor) := do
  let (lo, c) ← c.byte
  let (hi, c) ← c.byte
  return (wordOf hi lo, c)

/-! ### Code tables -/

/-- R88: the register of a 3-bit code at width `w`. -/
def GReg.ofCode (w : Width) (code : BitVec 3) : GReg :=
  match w, code.toNat with
  | .byte, 0 => .al
  | .byte, 1 => .cl
  | .byte, 2 => .dl
  | .byte, 3 => .bl
  | .byte, 4 => .ah
  | .byte, 5 => .ch
  | .byte, 6 => .dh
  | .byte, _ => .bh
  | .word, 0 => .ax
  | .word, 1 => .cx
  | .word, 2 => .dx
  | .word, 3 => .bx
  | .word, 4 => .sp
  | .word, 5 => .bp
  | .word, 6 => .si
  | .word, _ => .di

/-- R88 read backwards. -/
def GReg.code : GReg → BitVec 3
  | .al | .ax => 0b000
  | .cl | .cx => 0b001
  | .dl | .dx => 0b010
  | .bl | .bx => 0b011
  | .ah | .sp => 0b100
  | .ch | .bp => 0b101
  | .dh | .si => 0b110
  | .bh | .di => 0b111

/-- The accumulator of width `w`: register code 000. -/
def accumulator (w : Width) : GReg := GReg.ofCode w 0b000

/-- R89. -/
def SegReg.ofCode (code : BitVec 2) : SegReg :=
  match code.toNat with
  | 0 => .es
  | 1 => .cs
  | 2 => .ss
  | _ => .ds

/-- R89 read backwards. -/
def SegReg.code : SegReg → BitVec 2
  | .es => 0b00
  | .cs => 0b01
  | .ss => 0b10
  | .ds => 0b11

/-- R92. -/
def Pair.ofCode (rm : BitVec 3) : Pair :=
  match rm.toNat with
  | 0 => .bxSi
  | 1 => .bxDi
  | 2 => .bpSi
  | 3 => .bpDi
  | 4 => .si
  | 5 => .di
  | 6 => .bp
  | _ => .bx

/-- R92 read backwards. -/
def Pair.code : Pair → BitVec 3
  | .bxSi => 0b000
  | .bxDi => 0b001
  | .bpSi => 0b010
  | .bpDi => 0b011
  | .si => 0b100
  | .di => 0b101
  | .bp => 0b110
  | .bx => 0b111

/-- W (R84): 0 is byte, 1 is word. -/
def Width.ofBit (w : Bool) : Width := if w then .word else .byte

def Width.bit : Width → BitVec 1
  | .byte => 0
  | .word => 1

/-- D (R86): 0 makes R/M the destination, 1 makes REG the destination. -/
def Dir.ofBit (d : Bool) : Dir := if d then .toReg else .toRm

def Dir.bit : Dir → BitVec 1
  | .toRm => 0
  | .toReg => 1

/-! ### The ModRM byte and the operand resolver -/

/-- The three fields of the ModRM byte (R87). -/
structure ModRM where
  mod : BitVec 2
  reg : BitVec 3
  rm : BitVec 3
  deriving DecidableEq, Repr

/-- MOD = bits 7:6, REG = bits 5:3, R/M = bits 2:0 (R87). -/
def ModRM.ofByte (b : Byte) : ModRM :=
  { mod := b.extractLsb' 6 2, reg := b.extractLsb' 3 3, rm := b.extractLsb' 0 3 }

/-- `Resolve` (R91, R93 to R96). The last arm is the guarded condition F3 of R98, which no two-bit field reaches. -/
def resolve (c : Cursor) (mod : BitVec 2) (rm : BitVec 3) (w : Width) : Except Fatal (RM × Cursor) :=
  match mod.toNat with
  | 0 =>
    if rm = 0b110 then do
      let (addr, c) ← c.word
      return (.mem (.direct addr), c)
    else
      return (.mem (.indirect (Pair.ofCode rm) .none), c)
  | 1 => do
    let (d, c) ← c.byte
    return (.mem (.indirect (Pair.ofCode rm) (.d8 d)), c)
  | 2 => do
    let (d, c) ← c.word
    return (.mem (.indirect (Pair.ofCode rm) (.d16 d)), c)
  | 3 => return (.reg (GReg.ofCode w rm), c)
  | m => throw (.malformedMod (BitVec.ofNat 8 m))

/-- `ImmW` (R100). -/
def immW (c : Cursor) : Width → Except Fatal (Imm × Cursor)
  | .byte => do
    let (v, c) ← c.byte
    return (.byte v, c)
  | .word => do
    let (v, c) ← c.word
    return (.word v, c)

/-- `ImmSW` (R85, R100). -/
def immSW (c : Cursor) (s : Bool) : Width → Except Fatal (ArithImm × Cursor)
  | .byte => do
    let (v, c) ← c.byte
    return (.byte v, c)
  | .word =>
    if s then do
      let (v, c) ← c.byte
      return (.sext v, c)
    else do
      let (v, c) ← c.word
      return (.word v, c)

/-- `AccAddr` (R101): one byte only for a byte move under `by_w`. -/
def accAddr (mode : AccAddrMode) (c : Cursor) (w : Width) : Except Fatal (AccAddr × Cursor) :=
  match mode, w with
  | .byW, .byte => do
    let (v, c) ← c.byte
    return (.a8 v, c)
  | _, _ => do
    let (v, c) ← c.word
    return (.a16 v, c)

/-! ### The opcode prefix table and its lookup -/

/-- The twenty jumps of format JMP. -/
inductive Jump where
  | jo | jno | jb | jnb | je | jne | jbe | jnbe | js | jns | jp | jnp | jl | jnl | jle | jnle
  | loopnz | loopz | loop | jcxz
  deriving DecidableEq, Repr

/-- The family decoders of R103. -/
inductive Family where
  | movRegImm | movRmReg | addRmReg | subRmReg | cmpRmReg | arithImm | movRmImm | movAccMem | movMemAcc
  | addAccImm | subAccImm | cmpAccImm | movRmSeg | movSegRm
  | jump (j : Jump)
  deriving DecidableEq, Repr

/-- One key of R103: an (N-bit value, N) pair and the family it selects. -/
structure Key where
  len : Nat
  value : Nat
  family : Family
  deriving DecidableEq, Repr

/-- The keys of 4, 6 and 7 bits and the two of format SEG (R103). -/
def prefixKeys : List Key :=
  [ ⟨4, 0b1011, .movRegImm⟩,
    ⟨6, 0b100010, .movRmReg⟩,
    ⟨6, 0b000000, .addRmReg⟩,
    ⟨6, 0b001010, .subRmReg⟩,
    ⟨6, 0b001110, .cmpRmReg⟩,
    ⟨6, 0b100000, .arithImm⟩,
    ⟨7, 0b1100011, .movRmImm⟩,
    ⟨7, 0b1010000, .movAccMem⟩,
    ⟨7, 0b1010001, .movMemAcc⟩,
    ⟨7, 0b0000010, .addAccImm⟩,
    ⟨7, 0b0010110, .subAccImm⟩,
    ⟨7, 0b0011110, .cmpAccImm⟩,
    ⟨8, 0b10001100, .movRmSeg⟩,
    ⟨8, 0b10001110, .movSegRm⟩ ]

/-- The twenty keys of format JMP (R103). -/
def jumpKeys : List Key :=
  [ ⟨8, 0b01110000, .jump .jo⟩,
    ⟨8, 0b01110001, .jump .jno⟩,
    ⟨8, 0b01110010, .jump .jb⟩,
    ⟨8, 0b01110011, .jump .jnb⟩,
    ⟨8, 0b01110100, .jump .je⟩,
    ⟨8, 0b01110101, .jump .jne⟩,
    ⟨8, 0b01110110, .jump .jbe⟩,
    ⟨8, 0b01110111, .jump .jnbe⟩,
    ⟨8, 0b01111000, .jump .js⟩,
    ⟨8, 0b01111001, .jump .jns⟩,
    ⟨8, 0b01111010, .jump .jp⟩,
    ⟨8, 0b01111011, .jump .jnp⟩,
    ⟨8, 0b01111100, .jump .jl⟩,
    ⟨8, 0b01111101, .jump .jnl⟩,
    ⟨8, 0b01111110, .jump .jle⟩,
    ⟨8, 0b01111111, .jump .jnle⟩,
    ⟨8, 0b11100000, .jump .loopnz⟩,
    ⟨8, 0b11100001, .jump .loopz⟩,
    ⟨8, 0b11100010, .jump .loop⟩,
    ⟨8, 0b11100011, .jump .jcxz⟩ ]

/-- The 34 keys of R103. -/
def opcodeKeys : List Key := prefixKeys ++ jumpKeys

/-- One probe (R104): is `k`, of `n` bits, a key? -/
def probe (n k : Nat) : Option Family :=
  (opcodeKeys.find? fun key => key.len == n && key.value == k).map Key.family

/-- `Lookup` (R104): probe the top 3 to 8 bits in turn, a longer match replacing a shorter one. -/
def lookup (b0 : Byte) : Option Family :=
  [3, 4, 5, 6, 7, 8].foldl
    (fun hit n =>
      match probe n (b0.toNat >>> (8 - n)) with
      | some family => some family
      | none => hit)
    none

/-! ### The family decoders -/

/-- Format RMREG (R82, R130, R151). -/
def decodeRmReg (make : Dir → GReg → RM → Instr) (b0 : Byte) (c : Cursor) : Except Fatal (Instr × Cursor) := do
  let w := Width.ofBit (b0.getLsbD 0)
  let (b1, c) ← c.byte
  let m := ModRM.ofByte b1
  let (rm, c) ← resolve c m.mod m.rm w
  return (make (Dir.ofBit (b0.getLsbD 1)) (GReg.ofCode w m.reg) rm, c)

/-- Format RMIMM (R131); the REG field is not examined (R108, D15). -/
def decodeRmImm (b0 : Byte) (c : Cursor) : Except Fatal (Instr × Cursor) := do
  let w := Width.ofBit (b0.getLsbD 0)
  let (b1, c) ← c.byte
  let m := ModRM.ofByte b1
  let (rm, c) ← resolve c m.mod m.rm w
  let (imm, c) ← immW c w
  return (.movRmImm rm imm, c)

/-- Format REGIMM (R132): W is bit 3, the register bits 2:0. -/
def decodeRegImm (b0 : Byte) (c : Cursor) : Except Fatal (Instr × Cursor) := do
  let w := Width.ofBit (b0.getLsbD 3)
  let (imm, c) ← immW c w
  return (.movRegImm (GReg.ofCode w (b0.extractLsb' 0 3)) imm, c)

/-- Format ACCMEM (R133, R134). -/
def decodeAccMem (make : Width → AccAddr → Instr) (mode : AccAddrMode) (b0 : Byte) (c : Cursor) :
    Except Fatal (Instr × Cursor) := do
  let w := Width.ofBit (b0.getLsbD 0)
  let (addr, c) ← accAddr mode c w
  return (make w addr, c)

/-- Format SEG (R135, R136); bit 5 of the ModRM byte is not examined (R89, D14). -/
def decodeSeg (make : RM → SegReg → Instr) (c : Cursor) : Except Fatal (Instr × Cursor) := do
  let (b1, c) ← c.byte
  let m := ModRM.ofByte b1
  let (rm, c) ← resolve c m.mod m.rm .word
  return (make rm (SegReg.ofCode (b1.extractLsb' 3 2)), c)

/-- Format ACCIMM (R152). -/
def decodeAccImm (make : Imm → Instr) (b0 : Byte) (c : Cursor) : Except Fatal (Instr × Cursor) := do
  let (imm, c) ← immW c (Width.ofBit (b0.getLsbD 0))
  return (make imm, c)

/-- The opcode extension (R107): which operation the REG field of an ARITHIMM byte selects. -/
def extension (field : BitVec 3) : Except Fatal (RM → ArithImm → Instr) :=
  match field.toNat with
  | 0 => .ok .addRmImm
  | 2 => .ok .adcRmImm
  | 3 => .ok .sbbRmImm
  | 5 => .ok .subRmImm
  | 7 => .ok .cmpRmImm
  | _ => .error (.unsupportedExtension field)

/-- Format ARITHIMM (R165): the extension is examined before the displacement and data bytes (R257). -/
def decodeArithImm (b0 : Byte) (c : Cursor) : Except Fatal (Instr × Cursor) := do
  let w := Width.ofBit (b0.getLsbD 0)
  let (b1, c) ← c.byte
  let m := ModRM.ofByte b1
  let make ← extension m.reg
  let (rm, c) ← resolve c m.mod m.rm w
  let (imm, c) ← immSW c (b0.getLsbD 1) w
  return (make rm imm, c)

/-- The instruction of a jump with its raw displacement byte (R102). -/
def Jump.instr : Jump → Byte → Instr
  | .jo => .jo
  | .jno => .jno
  | .jb => .jb
  | .jnb => .jnb
  | .je => .je
  | .jne => .jne
  | .jbe => .jbe
  | .jnbe => .jnbe
  | .js => .js
  | .jns => .jns
  | .jp => .jp
  | .jnp => .jnp
  | .jl => .jl
  | .jnl => .jnl
  | .jle => .jle
  | .jnle => .jnle
  | .loopnz => .loopnz
  | .loopz => .loopz
  | .loop => .loop
  | .jcxz => .jcxz

/-- Format JMP (R102, R200). -/
def decodeJump (j : Jump) (c : Cursor) : Except Fatal (Instr × Cursor) := do
  let (disp, c) ← c.byte
  return (j.instr disp, c)

/-- The family decoder a key selects (R103). -/
def decodeFamily (mode : AccAddrMode) (b0 : Byte) (c : Cursor) : Family → Except Fatal (Instr × Cursor)
  | .movRegImm => decodeRegImm b0 c
  | .movRmReg => decodeRmReg .movRmReg b0 c
  | .addRmReg => decodeRmReg .addRmReg b0 c
  | .subRmReg => decodeRmReg .subRmReg b0 c
  | .cmpRmReg => decodeRmReg .cmpRmReg b0 c
  | .arithImm => decodeArithImm b0 c
  | .movRmImm => decodeRmImm b0 c
  | .movAccMem => decodeAccMem .movAccMem mode b0 c
  | .movMemAcc => decodeAccMem .movMemAcc mode b0 c
  | .addAccImm => decodeAccImm .addAccImm b0 c
  | .subAccImm => decodeAccImm .subAccImm b0 c
  | .cmpAccImm => decodeAccImm .cmpAccImm b0 c
  | .movRmSeg => decodeSeg .movRmSeg c
  | .movSegRm => decodeSeg (fun rm sr => .movSegRm sr rm) c
  | .jump j => decodeJump j c

/-- Fetch, lookup and decode at a cursor (R232, R233): the instruction and the cursor after its last byte, or the
first fatal condition met in stream order (R257). -/
def decode (mode : AccAddrMode) (c : Cursor) : Except Fatal (Instr × Cursor) := do
  let (b0, c) ← c.byte
  match lookup b0 with
  | none => throw (.unrecognizedOpcode b0)
  | some family => decodeFamily mode b0 c family

/-- The instruction at index `pc` of the code store. -/
def decodeAt (mode : AccAddrMode) (code : List Byte) (pc : Nat) : Except Fatal Instr :=
  match decode mode (Cursor.start code pc) with
  | .ok (i, _) => .ok i
  | .error e => .error e

/-! ### Lengths (R105) -/

def Disp.length : Disp → Nat
  | .none => 0
  | .d8 _ => 1
  | .d16 _ => 2

/-- `dlen` (R105). -/
def RM.dlen : RM → Nat
  | .reg _ => 0
  | .mem (.direct _) => 2
  | .mem (.indirect _ d) => d.length

def Imm.length : Imm → Nat
  | .byte _ => 1
  | .word _ => 2

def ArithImm.length : ArithImm → Nat
  | .byte _ => 1
  | .word _ => 2
  | .sext _ => 1

def AccAddr.length : AccAddr → Nat
  | .a8 _ => 1
  | .a16 _ => 2

/-- The number of bytes of an instruction (R105). -/
def Instr.length : Instr → Nat
  | .movRmReg _ _ rm | .addRmReg _ _ rm | .subRmReg _ _ rm | .cmpRmReg _ _ rm => 2 + rm.dlen
  | .movRmImm rm imm => 2 + rm.dlen + imm.length
  | .movRegImm _ imm => 1 + imm.length
  | .movAccMem _ addr | .movMemAcc _ addr => 1 + addr.length
  | .movRmSeg rm _ | .movSegRm _ rm => 2 + rm.dlen
  | .addAccImm imm | .subAccImm imm | .cmpAccImm imm => 1 + imm.length
  | .addRmImm rm imm | .adcRmImm rm imm | .subRmImm rm imm | .sbbRmImm rm imm | .cmpRmImm rm imm =>
    2 + rm.dlen + imm.length
  | .jo _ | .jno _ | .jb _ | .jnb _ | .je _ | .jne _ | .jbe _ | .jnbe _ => 2
  | .js _ | .jns _ | .jp _ | .jnp _ | .jl _ | .jnl _ | .jle _ | .jnle _ => 2
  | .loopnz _ | .loopz _ | .loop _ | .jcxz _ => 2

/-! ### The encoder

The hardware has none; it is the model's own, the right inverse of `decode` (R129). It writes 000 in the REG field of
RMIMM, 0 in bit 5 of SEG, and first byte 0x80 for a byte ARITHIMM (the choices R108 leaves open; log 10). -/

/-- A two-byte field, low byte first (R99). -/
def wordBytes (v : Word) : List Byte := [lowByte v, highByte v]

def RM.modBits : RM → BitVec 2
  | .reg _ => 0b11
  | .mem (.direct _) => 0b00
  | .mem (.indirect _ .none) => 0b00
  | .mem (.indirect _ (.d8 _)) => 0b01
  | .mem (.indirect _ (.d16 _)) => 0b10

def RM.rmBits : RM → BitVec 3
  | .reg r => r.code
  | .mem (.direct _) => 0b110
  | .mem (.indirect p _) => p.code

def RM.dispBytes : RM → List Byte
  | .reg _ => []
  | .mem (.direct addr) => wordBytes addr
  | .mem (.indirect _ .none) => []
  | .mem (.indirect _ (.d8 d)) => [d]
  | .mem (.indirect _ (.d16 d)) => wordBytes d

def Imm.bytes : Imm → List Byte
  | .byte v => [v]
  | .word v => wordBytes v

def ArithImm.bytes : ArithImm → List Byte
  | .byte v => [v]
  | .word v => wordBytes v
  | .sext v => [v]

def AccAddr.bytes : AccAddr → List Byte
  | .a8 v => [v]
  | .a16 v => wordBytes v

/-- The S and W bits of an ARITHIMM first byte (R85). -/
def ArithImm.swBits : ArithImm → BitVec 2
  | .byte _ => 0b00
  | .word _ => 0b01
  | .sext _ => 0b11

/-- `mm rrr bbb` and the displacement bytes. -/
def encodeModRM (rm : RM) (reg : BitVec 3) : List Byte := (rm.modBits ++ reg ++ rm.rmBits : BitVec 8) :: rm.dispBytes

/-- `pppppp d w` and the rest of format RMREG. -/
def encodeRmReg (key : BitVec 6) (d : Dir) (reg : GReg) (rm : RM) : List Byte :=
  (key ++ d.bit ++ reg.width.bit : BitVec 8) :: encodeModRM rm reg.code

/-- `ppppppp w` and the data of format ACCIMM. -/
def encodeAccImm (key : BitVec 7) (imm : Imm) : List Byte := (key ++ imm.width.bit : BitVec 8) :: imm.bytes

/-- `100000 s w` and the rest of format ARITHIMM. -/
def encodeArithImm (ext : BitVec 3) (rm : RM) (imm : ArithImm) : List Byte :=
  (0b100000#6 ++ imm.swBits : BitVec 8) :: (encodeModRM rm ext ++ imm.bytes)

/-- The bytes of a well-formed instruction, in stream order (R81). -/
def encode : Instr → List Byte
  | .movRmReg d reg rm => encodeRmReg 0b100010 d reg rm
  | .movRmImm rm imm => (0b1100011#7 ++ imm.width.bit : BitVec 8) :: (encodeModRM rm 0b000 ++ imm.bytes)
  | .movRegImm reg imm => (0b1011#4 ++ reg.width.bit ++ reg.code : BitVec 8) :: imm.bytes
  | .movAccMem w addr => (0b1010000#7 ++ w.bit : BitVec 8) :: addr.bytes
  | .movMemAcc w addr => (0b1010001#7 ++ w.bit : BitVec 8) :: addr.bytes
  | .movRmSeg rm sr => 0b10001100 :: encodeModRM rm (0b0#1 ++ sr.code)
  | .movSegRm sr rm => 0b10001110 :: encodeModRM rm (0b0#1 ++ sr.code)
  | .addRmReg d reg rm => encodeRmReg 0b000000 d reg rm
  | .addAccImm imm => encodeAccImm 0b0000010 imm
  | .subRmReg d reg rm => encodeRmReg 0b001010 d reg rm
  | .subAccImm imm => encodeAccImm 0b0010110 imm
  | .cmpRmReg d reg rm => encodeRmReg 0b001110 d reg rm
  | .cmpAccImm imm => encodeAccImm 0b0011110 imm
  | .addRmImm rm imm => encodeArithImm 0b000 rm imm
  | .adcRmImm rm imm => encodeArithImm 0b010 rm imm
  | .subRmImm rm imm => encodeArithImm 0b101 rm imm
  | .sbbRmImm rm imm => encodeArithImm 0b011 rm imm
  | .cmpRmImm rm imm => encodeArithImm 0b111 rm imm
  | .jo disp => [0b01110000, disp]
  | .jno disp => [0b01110001, disp]
  | .jb disp => [0b01110010, disp]
  | .jnb disp => [0b01110011, disp]
  | .je disp => [0b01110100, disp]
  | .jne disp => [0b01110101, disp]
  | .jbe disp => [0b01110110, disp]
  | .jnbe disp => [0b01110111, disp]
  | .js disp => [0b01111000, disp]
  | .jns disp => [0b01111001, disp]
  | .jp disp => [0b01111010, disp]
  | .jnp disp => [0b01111011, disp]
  | .jl disp => [0b01111100, disp]
  | .jnl disp => [0b01111101, disp]
  | .jle disp => [0b01111110, disp]
  | .jnle disp => [0b01111111, disp]
  | .loopnz disp => [0b11100000, disp]
  | .loopz disp => [0b11100001, disp]
  | .loop disp => [0b11100010, disp]
  | .jcxz disp => [0b11100011, disp]

/-! ### Words numbered as spec/opcode_table.json numbers them -/

/-- The bytes of the first `nbits` bits of `w` in 16-bit words, byte 0 being bits 15:8 of the first, as the table's
`match` is `byte 0 * 256 + byte 1` (30_encoding.md, opening; DEDUCED for later words; log 8). A last group of 8 bits
is one byte. -/
def tableBytesFrom : Nat → Nat → Nat → List Byte
  | 0, _, _ => []
  | fuel + 1, nbits, w =>
    if nbits = 0 then []
    else if nbits ≤ 8 then [BitVec.ofNat 8 (w % 2 ^ nbits)]
    else BitVec.ofNat 8 (w / 256) :: BitVec.ofNat 8 w :: tableBytesFrom fuel (nbits - 16) (w / 65536)

/-- The length of the longest instruction (R81). -/
def longestInstr : Nat := 6

/-- The table's word laid out in stream order, zero above `nbits`, six bytes in all. -/
def tableBytes (nbits w : Nat) : List Byte :=
  (tableBytesFrom 3 nbits (w % 2 ^ nbits) ++ List.replicate longestInstr 0).take longestInstr

/-- The instruction the decoder reads from a word of the opcode table, under the default `ACC_ADDR_MODE`. -/
def decodeTableWord (nbits w : Nat) : Option Instr :=
  match decodeAt Options.default.accAddr (tableBytes nbits w) 0 with
  | .ok i => some i
  | .error _ => none

end Sys2Proof
end

