-- ==== Sys2Proof/Machine/State.lean ====
section
/-!
DEFINITION. The state of the machine as plain data (10_state.md), why a step can stop, and the state after reset
(R33, R280).
-/

namespace Sys2Proof.Machine

/-- Data memory (R28) as (address, byte) pairs in the canonical form `Memory.wf`; an address not listed reads as
`Config.unlistedByte`. -/
abbrev Memory := List Host.Cell

/-- Addresses strictly rising. -/
def Memory.rising : Memory → Bool
  | [] => true
  | [_] => true
  | x :: y :: rest => decide (x.1 < y.1) && Memory.rising (y :: rest)

/-- The canonical form: addresses strictly rising, all inside the memory, no entry equal to what an unlisted address
reads as. -/
def Memory.wf (m : Memory) : Bool :=
  Memory.rising m && m.all fun x => decide (x.1 < Config.memSize) && decide (x.2 ≠ Config.unlistedByte)

/-- The register file: 13 slots of 16 bits (R20), IP among them (R24). -/
structure RegFile where
  ax : Word
  bx : Word
  cx : Word
  dx : Word
  sp : Word
  bp : Word
  si : Word
  di : Word
  es : Word
  cs : Word
  ss : Word
  ds : Word
  ip : Word
  deriving DecidableEq, Repr

/-- `STATUS` (R30). -/
inductive Status where
  | running
  | halted
  | fault (c : Fatal)
  deriving DecidableEq, Repr

/-- The memory write of one instruction: where it went, what `MemWrite` returned for the trace (R51), and what it
stored. -/
structure Stored where
  addr : Word
  width : Width
  old : Word
  new : Word
  deriving DecidableEq, Repr

/-- What one step hands to the two output ports (R240, R241): the instruction, the registers and FLAGS before and after
it, and its memory write, if it made one. -/
structure Executed where
  instr : Instr
  regsBefore : RegFile
  flagsBefore : Word
  regsAfter : RegFile
  flagsAfter : Word
  stored : Option Stored
  deriving DecidableEq, Repr

/-- Everything the spec gives the machine: register file (R20), FLAGS (R25), MEM (R28), CODE (R29), STATUS (R30), the
latched option parameters (R280). `emitted` is the model's own field for the output ports, newest record first
(DESIGN CHOICE, safe; log 4). -/
structure State where
  regs : RegFile
  flags : Word
  mem : Memory
  code : List Byte
  status : Status
  opts : Options
  emitted : List Executed
  deriving DecidableEq, Repr

/-- Why a step ends in a fault: the two stopped states in which no step is enabled (R236, R259, U15). -/
inductive Fault where
  /-- Raised by `step` when STATUS is Halted: the run has ended normally (R238). Safe. -/
  | haltedHasNoStep
  /-- Raised by `step` when STATUS is Fault: a fatal condition has stopped the machine for good (R259). Safe. -/
  | faultHasNoStep (c : Fatal)
  deriving DecidableEq, Repr

/-- Why a step is refused. -/
inductive Refusal where
  /-- Raised by no arm: every instruction has its meaning. Safe. -/
  | notModelled (mnemonic : String)
  /-- Raised by LOOP, LOOPZ, LOOPNZ and JCXZ under `LOOP_EXEC = refuse` only (R224). Safe. -/
  | loopExecRefused (mnemonic : Mnemonic)
  /-- Raised by `step` when CODE_LEN is above 65535, which D5 puts outside the model (R29, U16). Safe. -/
  | codeTooLong (length : Nat)
  deriving DecidableEq, Repr

/-- Every register slot at 0x0000 (R33, R280). -/
def RegFile.zero : RegFile :=
  { ax := 0, bx := 0, cx := 0, dx := 0, sp := 0, bp := 0, si := 0, di := 0, es := 0, cs := 0, ss := 0, ds := 0, ip := 0 }

/-- The machine after a reset with no code supplied and every parameter at its default (R33, R280). CODE_LEN is then
0 and STATUS is Halted, as R33 says. DESIGN CHOICE, safe: CODE comes from the surroundings (R239), so none stands
here (log 1). -/
def State.reset : State :=
  { regs := RegFile.zero
    flags := 0
    mem := []
    code := []
    status := .halted
    opts := Options.default
    emitted := [] }

end Sys2Proof.Machine
end

