-- ==== Sys2Proof/Machine/Ops.lean ====
section
/-!
DEFINITION. The named operations over memory, registers and status: byte access in canonical form, `MemRead` and
`MemWrite` (20_memory.md), `RegRead` and `RegWrite` (10_state.md), the pc advance, raising a fatal condition
(60_exceptions.md) and reset (70_reset_and_hazards.md).
-/

namespace Sys2Proof.Machine

/-! ### Bytes of memory -/

/-- The byte at an address: the listed one, else the unlisted byte. -/
def Memory.read : Memory → Nat → Byte
  | [], _ => Config.unlistedByte
  | (k, b) :: rest, a => if k = a then b else Memory.read rest a

/-- An entry for `b` at `a`, or none when `b` is what an unlisted address reads as. -/
def Memory.entry (a : Nat) (b : Byte) : Memory := if b = Config.unlistedByte then [] else [(a, b)]

/-- Write one byte, keeping the canonical form. -/
def Memory.write : Memory → Nat → Byte → Memory
  | [], a, b => Memory.entry a b
  | (k, v) :: rest, a, b =>
    if k < a then (k, v) :: Memory.write rest a b
    else if k = a then Memory.entry a b ++ rest
    else Memory.entry a b ++ (k, v) :: rest

/-- The memory that a list of (address, byte) pairs describes, later pairs winning: a way to give `MEM_INIT`. -/
def Memory.ofCells (cells : List (Word × Byte)) : Memory :=
  cells.foldl (fun m x => Memory.write m x.1.toNat x.2) []

/-! ### Registers -/

/-- `x[r]` (R20). -/
def RegFile.get (x : RegFile) : Reg → Word
  | .ax => x.ax
  | .bx => x.bx
  | .cx => x.cx
  | .dx => x.dx
  | .sp => x.sp
  | .bp => x.bp
  | .si => x.si
  | .di => x.di
  | .es => x.es
  | .cs => x.cs
  | .ss => x.ss
  | .ds => x.ds
  | .ip => x.ip

/-- `x[r] <- v` (R20, R23). -/
def RegFile.set (x : RegFile) (r : Reg) (v : Word) : RegFile :=
  match r with
  | .ax => { x with ax := v }
  | .bx => { x with bx := v }
  | .cx => { x with cx := v }
  | .dx => { x with dx := v }
  | .sp => { x with sp := v }
  | .bp => { x with bp := v }
  | .si => { x with si := v }
  | .di => { x with di := v }
  | .es => { x with es := v }
  | .cs => { x with cs := v }
  | .ss => { x with ss := v }
  | .ds => { x with ds := v }
  | .ip => { x with ip := v }

/-- `RegRead(r, w, h)` (R22); a byte is returned in the low half. -/
def regRead (x : RegFile) (w : Width) (r : Reg) (high : Bool) : Word :=
  match w with
  | .word => x.get r
  | .byte => zext16 (if high then highByte (x.get r) else lowByte (x.get r))

/-- The registers after `RegWrite(r, w, h, v)` (R23): a byte write keeps the other half of the parent. -/
def setReg (x : RegFile) (w : Width) (r : Reg) (high : Bool) (v : Word) : RegFile :=
  match w with
  | .word => x.set r v
  | .byte =>
    if high then x.set r (wordOf (lowByte v) (lowByte (x.get r)))
    else x.set r (wordOf (highByte (x.get r)) (lowByte v))

/-- `RegWrite(r, w, h, v)` (R23): what it returns for the trace, the prior value of the slot, and the registers after
it. -/
def regWrite (x : RegFile) (w : Width) (r : Reg) (high : Bool) (v : Word) : Word × RegFile :=
  (x.get r, setReg x w r high v)

/-! ### Accesses to data memory -/

/-- The bounds check of a word access (R50, R51): only 0xFFFF, only under `fault_on_overflow`. -/
def wordInBounds (mode : EaMode) (a : Word) : Bool := !(mode == .faultOnOverflow && a == 0xFFFF)

/-- `MemRead(a, n)` (R50): little-endian, the high byte at `a + 1` modulo 2^16; a byte is returned in the low half. -/
def memRead (mode : EaMode) (m : Memory) (a : Word) : Width → Except Fatal Word
  | .byte => .ok (zext16 (m.read a.toNat))
  | .word =>
    if wordInBounds mode a then .ok (wordOf (m.read (a + 1).toNat) (m.read a.toNat))
    else .error (.memBounds a)

/-- The memory after `MemWrite(a, n, v)` (R51): the low byte at `a`, and of a word the high byte at `a + 1` modulo
2^16. -/
def storeBytes (m : Memory) (a v : Word) : Width → Memory
  | .byte => m.write a.toNat (lowByte v)
  | .word => (m.write a.toNat (lowByte v)).write (a + 1).toNat (highByte v)

/-- `MemWrite(a, n, v)` (R51): what it returns for the trace, the old value read at the same address and width, and the
memory after it. The bounds check of that read comes before either byte is written (D18). -/
def memWrite (mode : EaMode) (m : Memory) (a v : Word) (w : Width) : Except Fatal (Word × Memory) :=
  match memRead mode m a w with
  | .error c => .error c
  | .ok old => .ok (old, storeBytes m a v w)

/-! ### Updates of the state -/

/-- `pc <- t`. -/
def State.setIp (s : State) (t : Word) : State := { s with regs := s.regs.set .ip t }

/-- `pc <- pc + length` (R233). -/
def State.advance (s : State) (length : Nat) : State := s.setIp (s.regs.ip + BitVec.ofNat 16 length)

/-- Raising a fatal condition (R235, R256): STATUS becomes Fault(code, info) and nothing else changes. Nothing is saved
and there is no return (R259): only `State.resetWith` leaves the stopped state. -/
def State.raise (s : State) (c : Fatal) : State := { s with status := .fault c }

/-- What a meaning answers when an access of its apply part raises `c`: the whole instruction leaves no trace but
STATUS (R235). -/
def fatalOutcome (s : State) (c : Fatal) : Host.Outcome State Fault Refusal := .next (s.raise c)

/-- Reset (R280): the surroundings give the code store, MEM_INIT and the option parameters; every register slot and
FLAGS become zero; STATUS is Running, or Halted when CODE_LEN is 0. The output ports start empty (log 4). -/
def State.resetWith (code : List Byte) (memInit : Memory) (opts : Options) : State :=
  { regs := RegFile.zero
    flags := 0
    mem := memInit
    code := code
    status := if code.length = 0 then .halted else .running
    opts := opts
    emitted := [] }

end Sys2Proof.Machine
end

