-- ==== Sys2Proof/Machine/Flags.lean ====
section
/-!
DEFINITION. The flags word (10_state.md R25, R26) and the ALU flag engine (42_flags.md R180 to R188).
-/

namespace Sys2Proof.Machine

/-- Bit positions of the six flags (R25). -/
def cfBit : Nat := 0
def pfBit : Nat := 2
def afBit : Nat := 4
def zfBit : Nat := 6
def sfBit : Nat := 7
def ofBit : Nat := 11

/-- One flag of a flags word. -/
def flag (f : Word) (bit : Nat) : Bool := f.getLsbD bit

/-- `f` with one bit replaced. -/
def withFlag (f : Word) (bit : Nat) (b : Bool) : Word :=
  (f &&& ~~~(BitVec.twoPow 16 bit)) ||| (if b then BitVec.twoPow 16 bit else 0)

/-- The flag engine's `kind` (R180): the document's `op_is_subtract`. -/
inductive AluKind where
  | add
  | sub
  deriving DecidableEq, Repr

/-- `raw mod 2^n` (R150, R180, R189). -/
def resultOf (raw : Int) (n : Nat) : Word := BitVec.ofInt 16 (raw % (2 ^ n : Int))

/-- The sign bit at width `n` (R183). -/
def signBit (v : Word) (n : Nat) : Bool := v.getLsbD (n - 1)

/-- How many of bits 7:0 are set. -/
def popcount8 (v : Word) : Nat := ((List.range 8).filter fun i => v.getLsbD i).length

/-- PF (R182): even parity of the low 8 result bits, at both widths. -/
def parityFlag (res : Word) : Bool := popcount8 res % 2 == 0

/-- ZF (R184): all bits of the masked result are zero. -/
def zeroFlag (res : Word) : Bool := res == 0

/-- OF (R185), the document's two formulas. -/
def overflowFlag (kind : AluKind) (d s res : Word) (n : Nat) : Bool :=
  match kind with
  | .add => (!(signBit s n ^^ signBit d n)) && (signBit d n ^^ signBit res n)
  | .sub => (signBit s n ^^ signBit d n) && !(signBit s n ^^ signBit res n)

/-- AF (R186): bit 4 of source XOR destination XOR result. -/
def auxFlag (d s res : Word) : Bool := (s ^^^ d ^^^ res).getLsbD 4

/-- CF (R187): the raw result exceeds the width's range, or a borrow occurred. -/
def carryFlag (kind : AluKind) (raw : Int) (n : Nat) : Bool :=
  match kind with
  | .add => decide (raw > (2 ^ n : Int) - 1)
  | .sub => decide (raw < 0)

/-- `Flags(kind, d, s, raw, n)` (R180) on the old flags word `f`: the six flags are recomputed, the other ten bits pass
through (R181, D19). -/
def computeFlags (kind : AluKind) (f d s : Word) (raw : Int) (n : Nat) : Word :=
  let res := resultOf raw n
  let f := withFlag f cfBit (carryFlag kind raw n)
  let f := withFlag f pfBit (parityFlag res)
  let f := withFlag f afBit (auxFlag d s res)
  let f := withFlag f zfBit (zeroFlag res)
  let f := withFlag f sfBit (signBit res n)
  withFlag f ofBit (overflowFlag kind d s res n)

end Sys2Proof.Machine
end

