-- ==== Sys2Proof/Machine/Operands.lean ====
section
/-!
DEFINITION. From an instruction's encoded operands to the descriptors of 30_encoding.md R90, the effective address
(20_memory.md R56), and reading and writing through a descriptor (R97).
-/

namespace Sys2Proof.Machine

/-! ### Descriptors -/

/-- The width of an operation in bits, `n` of R150. -/
def widthBits : Width → Nat
  | .byte => 8
  | .word => 16

/-- The slot a register operand lives in (R21, R88). -/
def gregSlot : GReg → Reg
  | .al | .ah | .ax => .ax
  | .cl | .ch | .cx => .cx
  | .dl | .dh | .dx => .dx
  | .bl | .bh | .bx => .bx
  | .sp => .sp
  | .bp => .bp
  | .si => .si
  | .di => .di

/-- Is it a high-byte sub-view (R21, R88)? -/
def gregHigh : GReg → Bool
  | .ah | .ch | .dh | .bh => true
  | _ => false

/-- `RegOp(code, w)` (R88). -/
def gregLoc (r : GReg) : Loc := .reg r.width (gregSlot r) (gregHigh r)

/-- The slot of a segment register (R89). -/
def segSlot : SegReg → Reg
  | .es => .es
  | .cs => .cs
  | .ss => .ss
  | .ds => .ds

/-- `SegOp(code)` (R89): always a word. -/
def segLoc (sr : SegReg) : Loc := .reg .word (segSlot sr) false

/-- `Pair(rm)`: base and optional index (R92). -/
def pairRegs : Pair → Reg × Option Reg
  | .bxSi => (.bx, some .si)
  | .bxDi => (.bx, some .di)
  | .bpSi => (.bp, some .si)
  | .bpDi => (.bp, some .di)
  | .si => (.si, none)
  | .di => (.di, none)
  | .bp => (.bp, none)
  | .bx => (.bx, none)

/-- The signed displacement: 0, a sign-extended byte, or a word (R93 to R95). -/
def dispValue : Disp → Word
  | .none => 0
  | .d8 v => sext16 v
  | .d16 v => v

/-- The memory descriptor the resolver names (R93 to R96). -/
def memRef : MemOperand → MemRef
  | .direct addr => .direct addr
  | .indirect p d => .indirect (pairRegs p).1 (pairRegs p).2 (dispValue d)

/-- The descriptor of an R/M operand of width `w` (R91, R93 to R96). -/
def rmLoc (w : Width) : RM → Loc
  | .reg r => gregLoc r
  | .mem m => .mem w (memRef m)

/-- An immediate of R100, as an operand. -/
def immOperand : Imm → Operand
  | .byte v => .imm .byte (zext16 v)
  | .word v => .imm .word v

/-- An ARITHIMM immediate after extension (R85, R100). -/
def arithImmOperand : ArithImm → Operand
  | .byte v => .imm .byte (zext16 v)
  | .word v => .imm .word v
  | .sext v => .imm .word (sext16 v)

/-- The accumulator form's direct address, zero-extended when it is one byte (R101). -/
def accAddrValue : AccAddr → Word
  | .a8 v => zext16 v
  | .a16 v => v

/-- The memory side of an accumulator form (R101, R133, R134). -/
def accMemLoc (w : Width) (addr : AccAddr) : Loc := .mem w (.direct (accAddrValue addr))

/-- The accumulator of width `w`, AL or AX. -/
def accLoc (w : Width) : Loc := gregLoc (accumulator w)

/-- The destination of format RMREG (R86): d = 0 the R/M operand, d = 1 the REG register. -/
def rmRegDst (d : Dir) (reg : GReg) (rm : RM) : Loc :=
  match d with
  | .toRm => rmLoc reg.width rm
  | .toReg => gregLoc reg

/-- The source of format RMREG (R86). -/
def rmRegSrc (d : Dir) (reg : GReg) (rm : RM) : Loc :=
  match d with
  | .toRm => gregLoc reg
  | .toReg => rmLoc reg.width rm

def locWidth : Loc → Width
  | .reg w _ _ => w
  | .mem w _ => w

/-! ### Effective address -/

/-- The sum of R56 over the integers: base and index unsigned, displacement signed. -/
def addressSum (x : RegFile) (base : Reg) (index : Option Reg) (disp : Word) : Int :=
  ((x.get base).toNat : Int) + (match index with | some r => ((x.get r).toNat : Int) | none => 0) + disp.toInt

/-- `EA` (R56): the sum modulo 2^16, or, under `fault_on_overflow`, F6 when it lies outside 0 to 65535. -/
def effectiveAddress (mode : EaMode) (x : RegFile) : MemRef → Except Fatal Word
  | .direct addr => .ok addr
  | .indirect base index disp =>
    let sum := addressSum x base index disp
    match mode with
    | .wrap16 => .ok (BitVec.ofInt 16 sum)
    | .faultOnOverflow =>
      if 0 ≤ sum ∧ sum ≤ 65535 then .ok (BitVec.ofInt 16 sum) else .error (.memBounds (BitVec.ofInt 16 sum))

/-! ### Reading and writing through a descriptor (R97) -/

/-- `Read(op)` of a location; a byte is returned in the low half. -/
def readLoc (s : State) : Loc → Except Fatal Word
  | .reg w r high => .ok (regRead s.regs w r high)
  | .mem w m =>
    match effectiveAddress s.opts.eaMode s.regs m with
    | .error c => .error c
    | .ok a => memRead s.opts.eaMode s.mem a w

/-- `Read(op)` of any operand. -/
def readOperand (s : State) : Operand → Except Fatal Word
  | .loc l => readLoc s l
  | .imm _ v => .ok v

/-- `Write(op, v)`. The old value it returns goes to the record of the step: the registers before it, and `storeOf`. -/
def writeLoc (s : State) (l : Loc) (v : Word) : Except Fatal State :=
  match l with
  | .reg w r high => .ok { s with regs := (regWrite s.regs w r high v).2 }
  | .mem w m =>
    match effectiveAddress s.opts.eaMode s.regs m with
    | .error c => .error c
    | .ok a =>
      match memWrite s.opts.eaMode s.mem a v w with
      | .error c => .error c
      | .ok (_, mem) => .ok { s with mem := mem }

/-! ### The Instruction value (R90) -/

/-- The spec's Instruction value of a decoded instruction: what R108 compares and the Formatter prints. -/
def instruction : Instr → Instruction
  | .movRmReg d reg rm => ⟨.mov, .two (rmRegDst d reg rm) (.loc (rmRegSrc d reg rm))⟩
  | .movRmImm rm imm => ⟨.mov, .two (rmLoc imm.width rm) (immOperand imm)⟩
  | .movRegImm reg imm => ⟨.mov, .two (gregLoc reg) (immOperand imm)⟩
  | .movAccMem w addr => ⟨.mov, .two (accLoc w) (.loc (accMemLoc w addr))⟩
  | .movMemAcc w addr => ⟨.mov, .two (accMemLoc w addr) (.loc (accLoc w))⟩
  | .movRmSeg rm sr => ⟨.mov, .two (rmLoc .word rm) (.loc (segLoc sr))⟩
  | .movSegRm sr rm => ⟨.mov, .two (segLoc sr) (.loc (rmLoc .word rm))⟩
  | .addRmReg d reg rm => ⟨.add, .two (rmRegDst d reg rm) (.loc (rmRegSrc d reg rm))⟩
  | .addAccImm imm => ⟨.add, .two (accLoc imm.width) (immOperand imm)⟩
  | .subRmReg d reg rm => ⟨.sub, .two (rmRegDst d reg rm) (.loc (rmRegSrc d reg rm))⟩
  | .subAccImm imm => ⟨.sub, .two (accLoc imm.width) (immOperand imm)⟩
  | .cmpRmReg d reg rm => ⟨.cmp, .two (rmRegDst d reg rm) (.loc (rmRegSrc d reg rm))⟩
  | .cmpAccImm imm => ⟨.cmp, .two (accLoc imm.width) (immOperand imm)⟩
  | .addRmImm rm imm => ⟨.add, .two (rmLoc imm.width rm) (arithImmOperand imm)⟩
  | .adcRmImm rm imm => ⟨.adc, .two (rmLoc imm.width rm) (arithImmOperand imm)⟩
  | .subRmImm rm imm => ⟨.sub, .two (rmLoc imm.width rm) (arithImmOperand imm)⟩
  | .sbbRmImm rm imm => ⟨.sbb, .two (rmLoc imm.width rm) (arithImmOperand imm)⟩
  | .cmpRmImm rm imm => ⟨.cmp, .two (rmLoc imm.width rm) (arithImmOperand imm)⟩
  | .jo disp => ⟨.jo, .jump disp⟩
  | .jno disp => ⟨.jno, .jump disp⟩
  | .jb disp => ⟨.jb, .jump disp⟩
  | .jnb disp => ⟨.jnb, .jump disp⟩
  | .je disp => ⟨.je, .jump disp⟩
  | .jne disp => ⟨.jne, .jump disp⟩
  | .jbe disp => ⟨.jbe, .jump disp⟩
  | .jnbe disp => ⟨.jnbe, .jump disp⟩
  | .js disp => ⟨.js, .jump disp⟩
  | .jns disp => ⟨.jns, .jump disp⟩
  | .jp disp => ⟨.jp, .jump disp⟩
  | .jnp disp => ⟨.jnp, .jump disp⟩
  | .jl disp => ⟨.jl, .jump disp⟩
  | .jnl disp => ⟨.jnl, .jump disp⟩
  | .jle disp => ⟨.jle, .jump disp⟩
  | .jnle disp => ⟨.jnle, .jump disp⟩
  | .loopnz disp => ⟨.loopnz, .jump disp⟩
  | .loopz disp => ⟨.loopz, .jump disp⟩
  | .loop disp => ⟨.loop, .jump disp⟩
  | .jcxz disp => ⟨.jcxz, .jump disp⟩

/-- The location an instruction's apply part writes through a descriptor: its destination, which CMP does not write
(R156); a jump has none (R200). -/
def writtenLoc (i : Instr) : Option Loc :=
  match (instruction i).mnemonic, (instruction i).args with
  | .cmp, _ => none
  | _, .two dst _ => some dst
  | _, .jump _ => none

end Sys2Proof.Machine
end

