-- ==== Sys2Proof/Machine/Arith.lean ====
section
/-!
DEFINITION. The arithmetic family ADD, ADC, SUB, SBB, CMP (41_arithmetic.md R150 to R165).
-/

namespace Sys2Proof.Machine

/-- The five operations (R150). -/
inductive ArithOp where
  | add | adc | sub | sbb | cmp
  deriving DecidableEq, Repr

/-- The flag engine's kind (R150). -/
def ArithOp.kind : ArithOp → AluKind
  | .add | .adc => .add
  | .sub | .sbb | .cmp => .sub

/-- A Boolean carry as an integer. -/
def carryInt (b : Bool) : Int := if b then 1 else 0

/-- `raw` over the integers, operands unsigned; only ADC and SBB use the carry-in (R150, R153). -/
def rawResult (op : ArithOp) (d s : Word) (cin : Bool) : Int :=
  match op with
  | .add => (d.toNat : Int) + s.toNat
  | .adc => (d.toNat : Int) + s.toNat + carryInt cin
  | .sub | .cmp => (d.toNat : Int) - s.toNat
  | .sbb => (d.toNat : Int) - s.toNat - carryInt cin

/-- Does the operation write its destination (R156)? -/
def ArithOp.writes : ArithOp → Bool
  | .cmp => false
  | _ => true

/-- The write-back of R150, which CMP omits (R156). -/
def writeBack (op : ArithOp) (s : State) (dst : Loc) (res : Word) : Except Fatal State :=
  if op.writes then writeLoc s dst res else .ok s

/-- `ARITH(op, dst, src, w)` (R150) after the advance (R233). A fatal condition leaves nothing but STATUS changed. -/
def arith (op : ArithOp) (dst : Loc) (src : Operand) (length : Nat) (s : State) :
    Host.Outcome State Fault Refusal :=
  let n := widthBits (locWidth dst)
  let s1 := s.advance length
  match readOperand s1 src with
  | .error c => fatalOutcome s c
  | .ok sv =>
    match readLoc s1 dst with
    | .error c => fatalOutcome s c
    | .ok dv =>
      let raw := rawResult op dv sv (flag s.flags cfBit)
      match writeBack op s1 dst (resultOf raw n) with
      | .error c => fatalOutcome s c
      | .ok s2 => .next { s2 with flags := computeFlags op.kind s.flags dv sv raw n }

/-- R151. -/
def execAddRmReg (d : Dir) (reg : GReg) (rm : RM) (s : State) : Host.Outcome State Fault Refusal :=
  arith .add (rmRegDst d reg rm) (.loc (rmRegSrc d reg rm)) (Instr.length (.addRmReg d reg rm)) s

/-- R152. -/
def execAddAccImm (imm : Imm) (s : State) : Host.Outcome State Fault Refusal :=
  arith .add (accLoc imm.width) (immOperand imm) (Instr.length (.addAccImm imm)) s

/-- R154. -/
def execSubRmReg (d : Dir) (reg : GReg) (rm : RM) (s : State) : Host.Outcome State Fault Refusal :=
  arith .sub (rmRegDst d reg rm) (.loc (rmRegSrc d reg rm)) (Instr.length (.subRmReg d reg rm)) s

/-- R155. -/
def execSubAccImm (imm : Imm) (s : State) : Host.Outcome State Fault Refusal :=
  arith .sub (accLoc imm.width) (immOperand imm) (Instr.length (.subAccImm imm)) s

/-- R157. -/
def execCmpRmReg (d : Dir) (reg : GReg) (rm : RM) (s : State) : Host.Outcome State Fault Refusal :=
  arith .cmp (rmRegDst d reg rm) (.loc (rmRegSrc d reg rm)) (Instr.length (.cmpRmReg d reg rm)) s

/-- R158. -/
def execCmpAccImm (imm : Imm) (s : State) : Host.Outcome State Fault Refusal :=
  arith .cmp (accLoc imm.width) (immOperand imm) (Instr.length (.cmpAccImm imm)) s

/-- R160. -/
def execAddRmImm (rm : RM) (imm : ArithImm) (s : State) : Host.Outcome State Fault Refusal :=
  arith .add (rmLoc imm.width rm) (arithImmOperand imm) (Instr.length (.addRmImm rm imm)) s

/-- R161. -/
def execAdcRmImm (rm : RM) (imm : ArithImm) (s : State) : Host.Outcome State Fault Refusal :=
  arith .adc (rmLoc imm.width rm) (arithImmOperand imm) (Instr.length (.adcRmImm rm imm)) s

/-- R162. -/
def execSubRmImm (rm : RM) (imm : ArithImm) (s : State) : Host.Outcome State Fault Refusal :=
  arith .sub (rmLoc imm.width rm) (arithImmOperand imm) (Instr.length (.subRmImm rm imm)) s

/-- R163. -/
def execSbbRmImm (rm : RM) (imm : ArithImm) (s : State) : Host.Outcome State Fault Refusal :=
  arith .sbb (rmLoc imm.width rm) (arithImmOperand imm) (Instr.length (.sbbRmImm rm imm)) s

/-- R164. -/
def execCmpRmImm (rm : RM) (imm : ArithImm) (s : State) : Host.Outcome State Fault Refusal :=
  arith .cmp (rmLoc imm.width rm) (arithImmOperand imm) (Instr.length (.cmpRmImm rm imm)) s

end Sys2Proof.Machine
end

