-- ==== Sys2Proof/Machine/Jumps.lean ====
section
/-!
DEFINITION. The conditional jumps and the LOOP family (43_jumps.md R200 to R224).
-/

namespace Sys2Proof.Machine

/-- The length of every instruction of format JMP (R200). -/
def jumpLength : Nat := 2

/-- The state after a jump (R200): the pc is advanced past the two bytes, and if `cond` holds the raw signed
displacement is added to the advanced value, modulo 2^16 (D6).

DESIGN CHOICE, unsafe (log 22): R222, R284 and D6 say of a backward jump below index 0 that its wrapped target lies above
CODE_LEN and ends in F5. With a CODE_LEN of 65410 or more a wrapped target can be at most CODE_LEN; the model then follows
the pseudocode of R200 and R231 and goes on, or halts, at that target. -/
def jumpTo (cond : Bool) (disp : Byte) (s : State) : State :=
  let s1 := s.advance jumpLength
  if cond then s1.setIp (s1.regs.ip + sext16 disp) else s1

/-- A conditional jump: no flag and no register but the pc is written. -/
def jumpIf (cond : Bool) (disp : Byte) (s : State) : Host.Outcome State Fault Refusal := .next (jumpTo cond disp s)

/-! ### The sixteen conditional jumps -/

/-- R201, jump if overflow: OF = 1. -/
def execJo (disp : Byte) (s : State) : Host.Outcome State Fault Refusal :=
  jumpIf (flag s.flags ofBit) disp s

/-- R202, negation of JO: OF = 0. -/
def execJno (disp : Byte) (s : State) : Host.Outcome State Fault Refusal :=
  jumpIf (!flag s.flags ofBit) disp s

/-- R203, jump if below: CF = 1. -/
def execJb (disp : Byte) (s : State) : Host.Outcome State Fault Refusal :=
  jumpIf (flag s.flags cfBit) disp s

/-- R204, negation of JB: CF = 0. -/
def execJnb (disp : Byte) (s : State) : Host.Outcome State Fault Refusal :=
  jumpIf (!flag s.flags cfBit) disp s

/-- R205, jump if equal: ZF = 1. -/
def execJe (disp : Byte) (s : State) : Host.Outcome State Fault Refusal :=
  jumpIf (flag s.flags zfBit) disp s

/-- R206, negation of JE: ZF = 0. -/
def execJne (disp : Byte) (s : State) : Host.Outcome State Fault Refusal :=
  jumpIf (!flag s.flags zfBit) disp s

/-- R207, jump if below or equal: CF = 1 or ZF = 1. -/
def execJbe (disp : Byte) (s : State) : Host.Outcome State Fault Refusal :=
  jumpIf (flag s.flags cfBit || flag s.flags zfBit) disp s

/-- R208, negation of JBE: CF = 0 and ZF = 0. -/
def execJnbe (disp : Byte) (s : State) : Host.Outcome State Fault Refusal :=
  jumpIf (!flag s.flags cfBit && !flag s.flags zfBit) disp s

/-- R209, jump if sign: SF = 1. -/
def execJs (disp : Byte) (s : State) : Host.Outcome State Fault Refusal :=
  jumpIf (flag s.flags sfBit) disp s

/-- R210, negation of JS: SF = 0. -/
def execJns (disp : Byte) (s : State) : Host.Outcome State Fault Refusal :=
  jumpIf (!flag s.flags sfBit) disp s

/-- R211, jump if parity even: PF = 1. -/
def execJp (disp : Byte) (s : State) : Host.Outcome State Fault Refusal :=
  jumpIf (flag s.flags pfBit) disp s

/-- R212, negation of JP: PF = 0. -/
def execJnp (disp : Byte) (s : State) : Host.Outcome State Fault Refusal :=
  jumpIf (!flag s.flags pfBit) disp s

/-- R213, jump if less: SF != OF. -/
def execJl (disp : Byte) (s : State) : Host.Outcome State Fault Refusal :=
  jumpIf (flag s.flags sfBit != flag s.flags ofBit) disp s

/-- R214, negation of JL: SF = OF. -/
def execJnl (disp : Byte) (s : State) : Host.Outcome State Fault Refusal :=
  jumpIf (flag s.flags sfBit == flag s.flags ofBit) disp s

/-- R215, jump if less or equal: ZF = 1 or SF != OF. -/
def execJle (disp : Byte) (s : State) : Host.Outcome State Fault Refusal :=
  jumpIf (flag s.flags zfBit || flag s.flags sfBit != flag s.flags ofBit) disp s

/-- R216, negation of JLE: ZF = 0 and SF = OF. -/
def execJnle (disp : Byte) (s : State) : Host.Outcome State Fault Refusal :=
  jumpIf (!flag s.flags zfBit && flag s.flags sfBit == flag s.flags ofBit) disp s

/-! ### The LOOP family -/

/-- `x[CX] <- (x[CX] - 1) mod 2^16`, no flag written (R217). -/
def decrementCx (s : State) : State := { s with regs := s.regs.set .cx (s.regs.cx - 1) }

/-- LOOP, LOOPZ, LOOPNZ (R217 to R219): CX is decremented whether or not the jump is taken, and the jump needs the
decremented CX to be non-zero and `test`. -/
def loopStep (test : Bool) (disp : Byte) (s : State) : State :=
  let s1 := decrementCx s
  jumpTo (s1.regs.cx != 0 && test) disp s1

/-- `LOOP_EXEC` (R224, D10): the 8086 behaviour, or a refusal by name. -/
def loopExec (mnemonic : Mnemonic) (t : State) (s : State) : Host.Outcome State Fault Refusal :=
  match s.opts.loopExec with
  | .i8086 => .next t
  | .refuse => .refused (.loopExecRefused mnemonic)

/-- R217. -/
def execLoopnz (disp : Byte) (s : State) : Host.Outcome State Fault Refusal :=
  loopExec .loopnz (loopStep (!flag s.flags zfBit) disp s) s

/-- R218. -/
def execLoopz (disp : Byte) (s : State) : Host.Outcome State Fault Refusal :=
  loopExec .loopz (loopStep (flag s.flags zfBit) disp s) s

/-- R219; no flag is read. -/
def execLoop (disp : Byte) (s : State) : Host.Outcome State Fault Refusal :=
  loopExec .loop (loopStep true disp s) s

/-- R220: CX is tested, not changed. -/
def execJcxz (disp : Byte) (s : State) : Host.Outcome State Fault Refusal :=
  loopExec .jcxz (jumpTo (s.regs.cx == 0) disp s) s

end Sys2Proof.Machine
end

