-- ==== Sys2Proof/Machine/Mov.lean ====
section
/-!
DEFINITION. The MOV family (40_mov.md R130 to R137).
-/

namespace Sys2Proof.Machine

/-- Advance, then `v <- Read(src); Write(dst, v)` (R137, R233). No flag changes. A fatal condition leaves nothing but
STATUS changed (R235). -/
def move (dst : Loc) (src : Operand) (length : Nat) (s : State) : Host.Outcome State Fault Refusal :=
  let s1 := s.advance length
  match readOperand s1 src with
  | .error c => fatalOutcome s c
  | .ok v =>
    match writeLoc s1 dst v with
    | .error c => fatalOutcome s c
    | .ok s2 => .next s2

/-- R130. -/
def execMovRmReg (d : Dir) (reg : GReg) (rm : RM) (s : State) : Host.Outcome State Fault Refusal :=
  move (rmRegDst d reg rm) (.loc (rmRegSrc d reg rm)) (Instr.length (.movRmReg d reg rm)) s

/-- R131. -/
def execMovRmImm (rm : RM) (imm : Imm) (s : State) : Host.Outcome State Fault Refusal :=
  move (rmLoc imm.width rm) (immOperand imm) (Instr.length (.movRmImm rm imm)) s

/-- R132. -/
def execMovRegImm (reg : GReg) (imm : Imm) (s : State) : Host.Outcome State Fault Refusal :=
  move (gregLoc reg) (immOperand imm) (Instr.length (.movRegImm reg imm)) s

/-- R133. -/
def execMovAccMem (w : Width) (addr : AccAddr) (s : State) : Host.Outcome State Fault Refusal :=
  move (accLoc w) (.loc (accMemLoc w addr)) (Instr.length (.movAccMem w addr)) s

/-- R134. -/
def execMovMemAcc (w : Width) (addr : AccAddr) (s : State) : Host.Outcome State Fault Refusal :=
  move (accMemLoc w addr) (.loc (accLoc w)) (Instr.length (.movMemAcc w addr)) s

/-- R135. -/
def execMovRmSeg (rm : RM) (sr : SegReg) (s : State) : Host.Outcome State Fault Refusal :=
  move (rmLoc .word rm) (.loc (segLoc sr)) (Instr.length (.movRmSeg rm sr)) s

/-- R136; a write to CS changes the slot and nothing else (D25). -/
def execMovSegRm (sr : SegReg) (rm : RM) (s : State) : Host.Outcome State Fault Refusal :=
  move (segLoc sr) (.loc (rmLoc .word rm)) (Instr.length (.movSegRm sr rm)) s

end Sys2Proof.Machine
end

