-- ==== Sys2Proof/Machine/Dispatch.lean ====
section
/-!
DEFINITION. One arm per instruction of spec/opcode_table.json.
-/

namespace Sys2Proof.Machine

def exec (i : Instr) (s : State) : Host.Outcome State Fault Refusal :=
  match i with
  | .movRmReg d reg rm => Sys2Proof.Machine.execMovRmReg d reg rm s
  | .movRmImm rm imm => Sys2Proof.Machine.execMovRmImm rm imm s
  | .movRegImm reg imm => Sys2Proof.Machine.execMovRegImm reg imm s
  | .movAccMem w addr => Sys2Proof.Machine.execMovAccMem w addr s
  | .movMemAcc w addr => Sys2Proof.Machine.execMovMemAcc w addr s
  | .movRmSeg rm sr => Sys2Proof.Machine.execMovRmSeg rm sr s
  | .movSegRm sr rm => Sys2Proof.Machine.execMovSegRm sr rm s
  | .addRmReg d reg rm => Sys2Proof.Machine.execAddRmReg d reg rm s
  | .addAccImm imm => Sys2Proof.Machine.execAddAccImm imm s
  | .subRmReg d reg rm => Sys2Proof.Machine.execSubRmReg d reg rm s
  | .subAccImm imm => Sys2Proof.Machine.execSubAccImm imm s
  | .cmpRmReg d reg rm => Sys2Proof.Machine.execCmpRmReg d reg rm s
  | .cmpAccImm imm => Sys2Proof.Machine.execCmpAccImm imm s
  | .addRmImm rm imm => Sys2Proof.Machine.execAddRmImm rm imm s
  | .adcRmImm rm imm => Sys2Proof.Machine.execAdcRmImm rm imm s
  | .subRmImm rm imm => Sys2Proof.Machine.execSubRmImm rm imm s
  | .sbbRmImm rm imm => Sys2Proof.Machine.execSbbRmImm rm imm s
  | .cmpRmImm rm imm => Sys2Proof.Machine.execCmpRmImm rm imm s
  | .jo disp => Sys2Proof.Machine.execJo disp s
  | .jno disp => Sys2Proof.Machine.execJno disp s
  | .jb disp => Sys2Proof.Machine.execJb disp s
  | .jnb disp => Sys2Proof.Machine.execJnb disp s
  | .je disp => Sys2Proof.Machine.execJe disp s
  | .jne disp => Sys2Proof.Machine.execJne disp s
  | .jbe disp => Sys2Proof.Machine.execJbe disp s
  | .jnbe disp => Sys2Proof.Machine.execJnbe disp s
  | .js disp => Sys2Proof.Machine.execJs disp s
  | .jns disp => Sys2Proof.Machine.execJns disp s
  | .jp disp => Sys2Proof.Machine.execJp disp s
  | .jnp disp => Sys2Proof.Machine.execJnp disp s
  | .jl disp => Sys2Proof.Machine.execJl disp s
  | .jnl disp => Sys2Proof.Machine.execJnl disp s
  | .jle disp => Sys2Proof.Machine.execJle disp s
  | .jnle disp => Sys2Proof.Machine.execJnle disp s
  | .loopnz disp => Sys2Proof.Machine.execLoopnz disp s
  | .loopz disp => Sys2Proof.Machine.execLoopz disp s
  | .loop disp => Sys2Proof.Machine.execLoop disp s
  | .jcxz disp => Sys2Proof.Machine.execJcxz disp s

end Sys2Proof.Machine
end

