-- ==== Sys2Proof/Machine/Sequencer.lean ====
section
/-!
DEFINITION. The parts of one step that stand around the apply part (44_sequencer.md R230 to R237): the end test, fetch
and decode, the decode-only walk, the record for the output ports; and how an instruction is placed for the next fetch.
-/

namespace Sys2Proof.Machine

/-- What the end test finds (R231). -/
inductive EndTest where
  | atEnd
  | beyond
  | inside
  deriving DecidableEq, Repr

/-- The end test (R231): `pc = CODE_LEN`, `pc > CODE_LEN`, or go on. -/
def endTest (s : State) : EndTest :=
  if s.regs.ip.toNat = s.code.length then .atEnd
  else if s.regs.ip.toNat > s.code.length then .beyond
  else .inside

/-- The normal end (R231, R238). -/
def State.halt (s : State) : State := { s with status := .halted }

/-- Fetch, lookup and decode at the pc (R232, R233). -/
def fetchInstr (s : State) : Except Fatal Instr := decodeAt s.opts.accAddr s.code s.regs.ip.toNat

/-- The memory write at location `dst` that led from `s` to `t`: the old value is the one `MemWrite` returned (R51,
R241; the law `storeOf_writeLoc`). None at a register. -/
def storeOf (dst : Option Loc) (s t : State) : Option Stored :=
  match dst with
  | some (.mem w m) =>
    match effectiveAddress s.opts.eaMode s.regs m with
    | .error _ => none
    | .ok a =>
      match memRead s.opts.eaMode s.mem a w, memRead s.opts.eaMode t.mem a w with
      | .ok old, .ok new => some { addr := a, width := w, old := old, new := new }
      | _, _ => none
  | _ => none

/-- Step 6 (R230, R240, R241): the record of instruction `i`, which wrote `dst` from `s` to `t`. -/
def record (i : Instr) (dst : Option Loc) (s t : State) : Executed :=
  { instr := i
    regsBefore := s.regs
    flagsBefore := s.flags
    regsAfter := t.regs
    flagsAfter := t.flags
    stored := storeOf dst s t }

/-- The end of a step that ran `i` from `s`, wrote `dst` and reached `t`: the record is emitted, except that a fatal
condition of the apply part produces no line (R235). -/
def retire (i : Instr) (dst : Option Loc) (s t : State) : State :=
  match t.status with
  | .fault _ => t
  | _ => { t with emitted := record i dst s t :: t.emitted }

/-- The instruction in `decode_only` mode (R237): the pc moves on and the apply part is skipped. -/
def walk (i : Instr) (s : State) : State := s.advance i.length

/-- The code store with `bytes` at index `at_`, zero-filled up to there. -/
def placeBytes (code : List Byte) (at_ : Nat) (bytes : List Byte) : List Byte :=
  (code ++ List.replicate at_ 0).take at_ ++ bytes ++ code.drop (at_ + bytes.length)

/-- `s` with `bytes` where the next fetch reads them, ready to run them: the code store holds them at the pc, STATUS is
Running and RUN_MODE is simulate (DESIGN CHOICE, safe; log 17). -/
def State.withCodeAtPc (s : State) (bytes : List Byte) : State :=
  { s with
    code := placeBytes s.code s.regs.ip.toNat bytes
    status := .running
    opts := { s.opts with runMode := .simulate } }

end Sys2Proof.Machine
end

