-- ==== Sys2Proof/Machine/Step.lean ====
section
/-!
DEFINITION. One step of the machine (44_sequencer.md R230), and how the host places an instruction for it.
-/

namespace Sys2Proof.Machine

/-- The instruction part of a step: `exec` in `simulate` mode, the linear walk in `decode_only` mode (R237), and the
record of step 6. -/
def runInstr (i : Instr) (s : State) : Host.Outcome State Fault Refusal :=
  match s.opts.runMode with
  | .decodeOnly => .next (retire i none s (walk i s))
  | .simulate =>
    match exec i s with
    | .next t => .next (retire i (writtenLoc i) s t)
    | .fault r => .fault r
    | .refused r => .refused r

/-- One step (R230): no step unless STATUS is Running (R236); the end test; fetch, lookup and decode; the instruction.
A fatal condition is a next state with STATUS = Fault (DEDUCED, safe; log 5). -/
def step (s : State) : Host.Outcome State Fault Refusal :=
  match s.status with
  | .halted => .fault .haltedHasNoStep
  | .fault c => .fault (.faultHasNoStep c)
  | .running =>
    if s.code.length > Config.maxCodeLen then .refused (.codeTooLong s.code.length)
    else
      match endTest s with
      | .atEnd => .next s.halt
      | .beyond => .next (s.raise (.fetchOutOfRange s.regs.ip))
      | .inside =>
        match fetchInstr s with
        | .error c => .next (s.raise c)
        | .ok i => runInstr i s

/-- `s` with a word of the opcode table stored where `step` fetches its next instruction (log 8, log 17). -/
def State.withFetchWord (s : State) (nbits w : Nat) : State := s.withCodeAtPc (tableBytes nbits w)

end Sys2Proof.Machine
end

