-- ==== Sys2Proof/Machine/Formatter.lean ====
section
/-!
DEFINITION. The Formatter: the disassembly and trace outputs as text (30_encoding.md R120 to R127, 44_sequencer.md
R240 to R242, 60_exceptions.md R256). It only reads the state and feeds nothing back.
-/

namespace Sys2Proof.Machine

/-! ### Numbers -/

/-- Unsigned decimal (R122, D21). -/
def decimal (n : Nat) : String := Nat.repr n

/-- Lower-case hexadecimal digits without padding (D22). -/
def hexDigits (n : Nat) : String := String.ofList (Nat.toDigits 16 n)

/-- `0x` and the digits without padding (R241). -/
def hex (n : Nat) : String := "0x" ++ hexDigits n

/-- `0xhhhh` (R242). -/
def hex4 (v : Word) : String :=
  "0x" ++ String.ofList (List.replicate (4 - (Nat.toDigits 16 v.toNat).length) '0' ++ Nat.toDigits 16 v.toNat)

/-- The sign always written (R126). -/
def signedDecimal (n : Int) : String := if n < 0 then "-" ++ decimal n.natAbs else "+" ++ decimal n.natAbs

/-- Nothing when zero (R123). -/
def dispText (v : Word) : String := if v = 0 then "" else signedDecimal v.toInt

/-! ### Names -/

/-- R121, and IP for the trace. -/
def regName : Reg → String
  | .ax => "AX"
  | .bx => "BX"
  | .cx => "CX"
  | .dx => "DX"
  | .sp => "SP"
  | .bp => "BP"
  | .si => "SI"
  | .di => "DI"
  | .es => "ES"
  | .cs => "CS"
  | .ss => "SS"
  | .ds => "DS"
  | .ip => "IP"

/-- The name of a byte sub-view (R21, R121). -/
def subViewName (r : Reg) (high : Bool) : String :=
  match r, high with
  | .ax, false => "AL"
  | .ax, true => "AH"
  | .bx, false => "BL"
  | .bx, true => "BH"
  | .cx, false => "CL"
  | .cx, true => "CH"
  | .dx, false => "DL"
  | .dx, true => "DH"
  | r, _ => regName r

/-- R127. -/
def mnemonicText : Mnemonic → String
  | .mov => "MOV"
  | .add => "ADD"
  | .adc => "ADC"
  | .sub => "SUB"
  | .sbb => "SBB"
  | .cmp => "CMP"
  | .jo => "JO"
  | .jno => "JNO"
  | .jb => "JB"
  | .jnb => "JNB"
  | .je => "JE"
  | .jne => "JNE"
  | .jbe => "JBE"
  | .jnbe => "JNBE"
  | .js => "JS"
  | .jns => "JNS"
  | .jp => "JP"
  | .jnp => "JNP"
  | .jl => "JL"
  | .jnl => "JNL"
  | .jle => "JLE"
  | .jnle => "JNLE"
  | .loopnz => "LOOPNZ"
  | .loopz => "LOOPZ"
  | .loop => "LOOP"
  | .jcxz => "JCXZ"

/-! ### Operands and lines -/

/-- R123. -/
def memRefText : MemRef → String
  | .direct addr => "[" ++ decimal addr.toNat ++ "]"
  | .indirect base none disp => "[" ++ regName base ++ dispText disp ++ "]"
  | .indirect base (some index) disp => "[" ++ regName base ++ "+" ++ regName index ++ dispText disp ++ "]"

/-- R121, R123. -/
def locText : Loc → String
  | .reg .word r _ => regName r
  | .reg .byte r high => subViewName r high
  | .mem _ m => memRefText m

/-- The size qualifier of an immediate, written only when the destination is memory (R122). -/
def qualifier (w : Width) : Loc → String
  | .reg _ _ _ => ""
  | .mem _ _ =>
    match w with
    | .byte => "byte "
    | .word => "word "

/-- The source operand of a line whose destination is `dst` (R121 to R123). -/
def sourceText (dst : Loc) : Operand → String
  | .loc l => locText l
  | .imm w v => qualifier w dst ++ decimal v.toNat

/-- A jump's target: the raw displacement plus the text bias of 2 (R126). -/
def targetText (disp : Byte) : String := "$" ++ signedDecimal (disp.toInt + 2)

/-- One line of disassembly (R120, R240). -/
def instructionText (x : Instruction) : String :=
  match x.args with
  | .two dst src => mnemonicText x.mnemonic ++ " " ++ locText dst ++ ", " ++ sourceText dst src
  | .jump disp => mnemonicText x.mnemonic ++ " " ++ targetText disp

/-- The text of a decoded instruction. -/
def instrText (i : Instr) : String := instructionText (instruction i)

/-- The letters of the set flags, in ascending bit position (R241). T, I and D have the bit positions 8, 9 and 10 of
R26. -/
def flagString (f : Word) : String :=
  String.ofList <|
    ([(0, 'C'), (2, 'P'), (4, 'A'), (6, 'Z'), (7, 'S'), (8, 'T'), (9, 'I'), (10, 'D'), (11, 'O')].filter
      fun x => flag f x.1).map Prod.snd

/-- The twelve registers a transition is written for, and the order of the dump without IP (R241, R242). -/
def dataRegs : List Reg := [.ax, .bx, .cx, .dx, .sp, .bp, .si, .di, .es, .cs, .ss, .ds]

/-- `REG:old->new`, only when the value changed (R241). -/
def regTransition (e : Executed) (r : Reg) : String :=
  if e.regsBefore.get r = e.regsAfter.get r then ""
  else regName r ++ ":" ++ hex (e.regsBefore.get r).toNat ++ "->" ++ hex (e.regsAfter.get r).toNat ++ " "

/-- `flags:old->new`, only when the flag string changed (R241). -/
def flagTransition (e : Executed) : String :=
  if flagString e.flagsBefore = flagString e.flagsAfter then ""
  else " flags:" ++ flagString e.flagsBefore ++ "->" ++ flagString e.flagsAfter

/-- One line of the trace (R241). -/
def traceLine (e : Executed) : String :=
  instrText e.instr ++ " ; " ++ String.join (dataRegs.map (regTransition e)) ++ "ip:" ++ hex e.regsBefore.ip.toNat ++
    "->" ++ hex e.regsAfter.ip.toNat ++ flagTransition e

/-- `STATUS.code` (R250). -/
def fatalCode : Fatal → Nat
  | .unrecognizedOpcode _ => 1
  | .unsupportedExtension _ => 2
  | .malformedMod _ => 3
  | .truncatedInput _ => 4
  | .fetchOutOfRange _ => 5
  | .memBounds _ => 6

/-- The name column of R250. -/
def fatalName : Fatal → String
  | .unrecognizedOpcode _ => "UnrecognizedOpcode"
  | .unsupportedExtension _ => "UnsupportedExtension"
  | .malformedMod _ => "MalformedMod"
  | .truncatedInput _ => "TruncatedInput"
  | .fetchOutOfRange _ => "FetchOutOfRange"
  | .memBounds _ => "MemBounds"

/-- `STATUS.info` (R250). -/
def fatalInfo : Fatal → Nat
  | .unrecognizedOpcode b => b.toNat
  | .unsupportedExtension e => e.toNat
  | .malformedMod v => v.toNat
  | .truncatedInput i => i.toNat
  | .fetchOutOfRange pc => pc.toNat
  | .memBounds a => a.toNat

/-- The report of a fatal condition, naming it and its info (R256). DESIGN CHOICE, safe: the layout is that of the
listings in 95_test_vectors.md (log 15). -/
def fatalLine (c : Fatal) : String :=
  "F" ++ decimal (fatalCode c) ++ " " ++ fatalName c ++ "(" ++ hex (fatalInfo c) ++ ")"

/-- The final dump (R242). -/
def dumpLines (s : State) : List String :=
  (dataRegs ++ [Reg.ip]).map (fun r => regName r ++ ": " ++ hex4 (s.regs.get r)) ++ ["flags: " ++ flagString s.flags]

/-- Output 1, the disassembly (R240), in the order of emission. -/
def disassembly (s : State) : List String := s.emitted.reverse.map fun e => instrText e.instr

/-- Output 2, the trace (R241), with, once the run has ended, the report of a fatal condition (R256) and the final dump
(R242). -/
def traceText (s : State) : List String :=
  s.emitted.reverse.map traceLine ++
    match s.status with
    | .running => []
    | .halted => dumpLines s
    | .fault c => fatalLine c :: dumpLines s

end Sys2Proof.Machine
end

