-- ==== Sys2Proof/Safety.lean ====
section
/-!
DEFINITION. The terms in which statements about the machine are made: which states a run can be in, when an operand can
be accessed, what an instruction stores to and what it leaves unchanged.
-/

namespace Sys2Proof.Machine

/-! ### States a run can be in -/

/-- The run has ended normally (R238): STATUS is Halted. A Fault state is never one (R259). -/
def State.endedNormally (s : State) : Prop := s.status = .halted

/-- The ten bits of FLAGS that R26 reserves: 1, 3, 5, 8, 9, 10, 12, 13, 14, 15. -/
def reservedBits : List Nat := [1, 3, 5, 8, 9, 10, 12, 13, 14, 15]

/-- The six flag bits of R25. -/
def flagBits : List Nat := [cfBit, pfBit, afBit, zfBit, sfBit, ofBit]

/-- The fatal conditions a machine with these options can be stopped by: never F3 (R253), F6 only under
`fault_on_overflow` (R258). -/
def fatalPossible (opts : Options) : Fatal → Prop
  | .malformedMod _ => False
  | .memBounds _ => opts.eaMode = .faultOnOverflow
  | _ => True

/-- The invariant of every state a run reaches: memory in canonical form, a code store of at most 65535 bytes (R29),
the reserved flag bits zero (R26), Halted only at `pc = CODE_LEN` (R238), and only possible fatal conditions. -/
structure State.Inv (s : State) : Prop where
  memWf : s.mem.wf = true
  codeFits : s.code.length ≤ Config.maxCodeLen
  reservedZero : ∀ b ∈ reservedBits, s.flags.getLsbD b = false
  haltedAtEnd : s.status = .halted → s.regs.ip.toNat = s.code.length
  faultPossible : ∀ c, s.status = .fault c → fatalPossible s.opts c

/-! ### Access -/

/-- How many bytes an access of this width covers (R54). -/
def widthBytes : Width → Nat
  | .byte => 1
  | .word => 2

/-- The address a memory operand names, over the integers (R56). -/
def exactAddress (x : RegFile) : MemRef → Int
  | .direct addr => addr.toNat
  | .indirect base index disp => addressSum x base index disp

/-- No access of the location raises F6: a register, or `wrap16`, or every byte lies inside 0 to 65535
(R50, R51, R56). -/
def accessible (s : State) : Loc → Prop
  | .reg _ _ _ => True
  | .mem w m =>
    s.opts.eaMode = .wrap16 ∨
      (0 ≤ exactAddress s.regs m ∧ exactAddress s.regs m + widthBytes w ≤ Config.memSize)

/-- The same for any operand; an immediate is always accessible. -/
def operandAccessible (s : State) : Operand → Prop
  | .loc l => accessible s l
  | .imm _ _ => True

/-! ### Frames -/

/-- The addresses of the bytes a destination is stored in, from the effective address the meaning computes (R51, R56);
none for a register, or when nothing is stored. -/
def storedBytes (s : State) : Option Loc → List Nat
  | none => []
  | some (.reg _ _ _) => []
  | some (.mem w m) =>
    match effectiveAddress s.opts.eaMode s.regs m with
    | .error _ => []
    | .ok a =>
      match w with
      | .byte => [a.toNat]
      | .word => [a.toNat, (a + 1).toNat]

/-- The half of a parent word that a byte sub-view does not cover (R23). -/
def otherHalf (high : Bool) (v : Word) : Byte := if high then lowByte v else highByte v

/-- What an instruction with destination `dst` leaves unchanged from `s` to `t`, the pc and FLAGS apart: every other
register, the untouched half of a byte destination's parent, every byte of memory outside the stored ones, the code
store, the options, STATUS and the output ports. -/
structure Frame (s t : State) (dst : Option Loc) : Prop where
  regs : ∀ r : Reg, r ≠ .ip → (∀ w h, dst ≠ some (.reg w r h)) → t.regs.get r = s.regs.get r
  half : ∀ r h, dst = some (.reg .byte r h) → otherHalf h (t.regs.get r) = otherHalf h (s.regs.get r)
  mem : ∀ a : Nat, a ∉ storedBytes s dst → t.mem.read a = s.mem.read a
  code : t.code = s.code
  opts : t.opts = s.opts
  status : t.status = s.status
  emitted : t.emitted = s.emitted

/-! ### Effects -/

/-- `i` completes as a MOV from `src` to `dst` (R137): the destination then reads as the source did, no flag changes,
the pc moves past the instruction, and nothing else changes. -/
def MovesTo (i : Instr) (dst : Loc) (src : Operand) (s : State) : Prop :=
  ∃ t, exec i s = .next t ∧
    readLoc t dst = readOperand s src ∧
    t.flags = s.flags ∧
    t.regs.ip = s.regs.ip + BitVec.ofNat 16 i.length ∧
    Frame s t (some dst)

/-- `i` completes as the arithmetic operation `raw` (of destination, source and carry-in) on `dst` and `src` (R150): the
destination then reads as the masked result if `writes`, FLAGS come from the flag engine, the pc moves past the
instruction, and nothing else changes. -/
def Computes (kind : AluKind) (raw : Int → Int → Int → Int) (writes : Bool)
    (i : Instr) (dst : Loc) (src : Operand) (s : State) : Prop :=
  ∃ dv sv t,
    readLoc s dst = .ok dv ∧
    readOperand s src = .ok sv ∧
    exec i s = .next t ∧
    (let n := widthBits (locWidth dst)
     let r := raw dv.toNat sv.toNat (if s.flags.getLsbD 0 then 1 else 0)
     t.flags = computeFlags kind s.flags dv sv r n ∧
       (writes = true → readLoc t dst = .ok (BitVec.ofInt 16 (r % 2 ^ n)))) ∧
    t.regs.ip = s.regs.ip + BitVec.ofNat 16 i.length ∧
    Frame s t (if writes then some dst else none)

/-- `i` completes as a jump of displacement `disp` on `cond` (R200): only the pc changes. -/
def JumpsIf (i : Instr) (cond : Prop) [Decidable cond] (disp : Byte) (s : State) : Prop :=
  exec i s = .next { s with
    regs := s.regs.set .ip (if cond then s.regs.ip + 2 + disp.signExtend 16 else s.regs.ip + 2) }

/-- A jump instruction's rule (R200 and one of R201 to R216): the opcode byte and a displacement decode to it, two bytes
long, under every mode, whatever follows; and in every state it jumps on `cond` of the flags word. -/
def JumpRule (opcode : Byte) (make : Byte → Instr) (cond : Word → Bool) : Prop :=
  (∀ mode k disp rest, decode mode { index := k, rest := opcode :: disp :: rest } =
    .ok (make disp, { index := k + 2, rest := rest })) ∧
  ∀ disp s, JumpsIf (make disp) (cond s.flags = true) disp s

/-- `i` completes as LOOP, LOOPZ or LOOPNZ (R217 to R219): CX is decremented in any case, and the jump needs the
decremented CX non-zero and `test`; nothing else changes. -/
def LoopsIf (i : Instr) (test : Prop) [Decidable test] (disp : Byte) (s : State) : Prop :=
  exec i s = .next { s with
    regs := (s.regs.set .cx (s.regs.cx - 1)).set .ip
      (if s.regs.cx - 1 ≠ 0 ∧ test then s.regs.ip + 2 + disp.signExtend 16 else s.regs.ip + 2) }

/-! ### Comparing two runs -/

/-- `s` with other values in the four segment registers. -/
def State.withSegs (s : State) (es cs ss ds : Word) : State :=
  { s with regs := { s.regs with es := es, cs := cs, ss := ss, ds := ds } }

/-- The outcome with `f` applied to the state reached. -/
def mapNext (f : State → State) : Host.Outcome State Fault Refusal → Host.Outcome State Fault Refusal
  | .next t => .next (f t)
  | .fault r => .fault r
  | .refused r => .refused r

end Sys2Proof.Machine
end

