-- ==== Sys2Proof/Certificates/Slice0/Obligations.lean ====
section
/-!
DEFINITION. The statements about the machine that the provers settle, from the rules of spec/.
-/

open Sys2Proof Sys2Proof.Machine

/-! ### Registers and memory -/

/-- 10_state.md R22: a word read returns the slot, a byte read its high or low half; and every register code at w = 0
names a sub-view of AX, BX, CX or DX. -/
def Obligations.RegisterReadReturnsSlotOrHalf : Prop :=
  (∀ x r h, regRead x .word r h = x.get r) ∧
  (∀ x r, regRead x .byte r true = ((x.get r).extractLsb' 8 8).setWidth 16) ∧
  (∀ x r, regRead x .byte r false = ((x.get r).extractLsb' 0 8).setWidth 16) ∧
  (∀ code, gregSlot (GReg.ofCode .byte code) ∈ [Reg.ax, .bx, .cx, .dx])

/-- 10_state.md R23: a word write replaces the slot; a byte write replaces one half and keeps the other; no other
register changes; and the prior value of the slot is returned. -/
def Obligations.RegisterWriteReplacesSlotOrHalf : Prop :=
  (∀ x r h v, (regWrite x .word r h v).2.get r = v) ∧
  (∀ x r v, highByte ((regWrite x .byte r true v).2.get r) = lowByte v ∧
    lowByte ((regWrite x .byte r true v).2.get r) = lowByte (x.get r)) ∧
  (∀ x r v, lowByte ((regWrite x .byte r false v).2.get r) = lowByte v ∧
    highByte ((regWrite x .byte r false v).2.get r) = highByte (x.get r)) ∧
  (∀ x w r h v q, q ≠ r → (regWrite x w r h v).2.get q = x.get q) ∧
  (∀ x w r h v, (regWrite x w r h v).1 = x.get r)

/-- 30_encoding.md R88, R89, R92: the three code tables, each row. -/
def Obligations.OperandCodeTables : Prop :=
  ([0, 1, 2, 3, 4, 5, 6, 7].map fun c => gregLoc (GReg.ofCode .byte c)) =
    [.reg .byte .ax false, .reg .byte .cx false, .reg .byte .dx false, .reg .byte .bx false,
     .reg .byte .ax true, .reg .byte .cx true, .reg .byte .dx true, .reg .byte .bx true] ∧
  ([0, 1, 2, 3, 4, 5, 6, 7].map fun c => gregLoc (GReg.ofCode .word c)) =
    [.reg .word .ax false, .reg .word .cx false, .reg .word .dx false, .reg .word .bx false,
     .reg .word .sp false, .reg .word .bp false, .reg .word .si false, .reg .word .di false] ∧
  ([0, 1, 2, 3].map fun c => segLoc (SegReg.ofCode c)) =
    [.reg .word .es false, .reg .word .cs false, .reg .word .ss false, .reg .word .ds false] ∧
  ([0, 1, 2, 3, 4, 5, 6, 7].map fun c => pairRegs (Pair.ofCode c)) =
    [(.bx, some .si), (.bx, some .di), (.bp, some .si), (.bp, some .di), (.si, none), (.di, none), (.bp, none),
     (.bx, none)]

/-- 20_memory.md R50: a byte read returns the byte; a word read puts the byte at the next address, modulo 2^16, in the
high half; only a word at 0xFFFF under `fault_on_overflow` raises F6. -/
def Obligations.MemoryReadIsLittleEndian : Prop :=
  (∀ mode m a, memRead mode m a .byte = .ok ((m.read a.toNat).setWidth 16)) ∧
  (∀ mode m a, mode = .wrap16 ∨ a ≠ 0xFFFF →
    memRead mode m a .word = .ok (m.read ((a.toNat + 1) % 65536) ++ m.read a.toNat)) ∧
  (∀ m, memRead .faultOnOverflow m 0xFFFF .word = .error (.memBounds 0xFFFF))

/-- 20_memory.md R51: a write returns the old value, stores its bytes and changes no other byte; the bounds check writes
nothing (a word write at 0xFFFF under `fault_on_overflow` raises F6, decision D3).
Memory in canonical form is a premise (part of the invariant of StepKeepsInvariant). -/
def Obligations.MemoryWriteStoresOnlyItsBytes : Prop :=
  (∀ mode m a v, m.wf = true → ∃ m', memWrite mode m a v .byte = .ok ((m.read a.toNat).setWidth 16, m') ∧
    ∀ b, m'.read b = if b = a.toNat then v.extractLsb' 0 8 else m.read b) ∧
  (∀ mode m a v, m.wf = true → mode = .wrap16 ∨ a ≠ 0xFFFF → ∃ m',
    memWrite mode m a v .word = .ok (m.read ((a.toNat + 1) % 65536) ++ m.read a.toNat, m') ∧
    ∀ b, m'.read b =
      if b = a.toNat then v.extractLsb' 0 8
      else if b = (a.toNat + 1) % 65536 then v.extractLsb' 8 8 else m.read b) ∧
  (∀ m v, memWrite .faultOnOverflow m 0xFFFF v .word = .error (.memBounds 0xFFFF))

/-- 20_memory.md R52, its sentence marked derived: a mixed-width access sees the overlay of the two bytes. -/
def Obligations.MixedWidthAccessSeesOverlay : Prop :=
  ∀ mode m m' a v old, m.wf = true → memWrite mode m a v .word = .ok (old, m') →
    memRead mode m' a .byte = .ok ((v.extractLsb' 0 8).setWidth 16) ∧
    memRead mode m' (a + 1) .byte = .ok ((v.extractLsb' 8 8).setWidth 16)

/-- 20_memory.md R56: a direct address stands as it is; base, index and signed displacement are summed over the
integers and reduced modulo 2^16 under `wrap16`, or raise F6 outside 0 to 65535 under `fault_on_overflow`. -/
def Obligations.EffectiveAddressIsTheSum : Prop :=
  ∀ (x : RegFile) (base : Reg) (index : Option Reg) (disp addr : Word) (mode : EaMode),
    let sum : Int := (x.get base).toNat + ((index.map fun r => ((x.get r).toNat : Int)).getD 0) + disp.toInt
    effectiveAddress mode x (.direct addr) = .ok addr ∧
    effectiveAddress .wrap16 x (.indirect base index disp) = .ok (BitVec.ofInt 16 sum) ∧
    effectiveAddress .faultOnOverflow x (.indirect base index disp) =
      if 0 ≤ sum ∧ sum ≤ 65535 then .ok (BitVec.ofInt 16 sum) else .error (.memBounds (BitVec.ofInt 16 sum))

/-! ### Encoding -/

/-- 30_encoding.md R129: every well-formed instruction, of every form and with every operand value, decodes from its
encoding at any index and whatever follows, and the cursor then stands after its bytes. -/
def Obligations.DecodeOfEncodeIsIdentity : Prop :=
  ∀ (mode : AccAddrMode) (i : Instr) (k : Nat) (rest : List Byte), i.wf mode = true →
    decode mode { index := k, rest := encode i ++ rest } = .ok (i, { index := k + i.length, rest := rest })

/-- 30_encoding.md R105: what the decoder delivers is well-formed, and its length is the number of bytes consumed, 2 to
6. -/
def Obligations.DecodedLengthIsBytesConsumed : Prop :=
  ∀ (mode : AccAddrMode) (c c' : Cursor) (i : Instr), decode mode c = .ok (i, c') →
    i.wf mode = true ∧ 2 ≤ i.length ∧ i.length ≤ 6 ∧ i.length ≤ c.rest.length ∧
    c' = { index := c.index + i.length, rest := c.rest.drop i.length }

/-- 30_encoding.md R105, its sentence marked derived: bytes 0 and 1 alone settle the length; no later byte influences
it. -/
def Obligations.FirstTwoBytesSettleLength : Prop :=
  ∀ (mode : AccAddrMode) (k k' : Nat) (b0 b1 : Byte) (rest rest' : List Byte) (i i' : Instr) (c c' : Cursor),
    decode mode { index := k, rest := b0 :: b1 :: rest } = .ok (i, c) →
    decode mode { index := k', rest := b0 :: b1 :: rest' } = .ok (i', c') →
    i.length = i'.length

/-- A few words written out from the encodings of 40_mov.md, 41_arithmetic.md and 43_jumps.md, one or more a format. -/
def Obligations.WrittenOutBytesDecode : Prop :=
  decodeAt .byW [0b10001001, 0b11011000] 0 = .ok (.movRmReg .toRm .bx (.reg .ax)) ∧
  decodeAt .byW [0b10001010, 0b01100110, 0x02] 0 =
    .ok (.movRmReg .toReg .ah (.mem (.indirect .bp (.d8 2)))) ∧
  decodeAt .byW [0b11000110, 0b00000110, 0xE8, 0x03, 0x07] 0 =
    .ok (.movRmImm (.mem (.direct 1000)) (.byte 7)) ∧
  decodeAt .byW [0b10111000, 0x05, 0x00] 0 = .ok (.movRegImm .ax (.word 5)) ∧
  decodeAt .byW [0b10100001, 0xE8, 0x03] 0 = .ok (.movAccMem .word (.a16 1000)) ∧
  decodeAt .byW [0b10001110, 0b00010110, 0x00, 0x01] 0 = .ok (.movSegRm .ss (.mem (.direct 256))) ∧
  decodeAt .byW [0b00000000, 0b11000001] 0 = .ok (.addRmReg .toRm .al (.reg .cl)) ∧
  decodeAt .byW [0b00111100, 0x0A] 0 = .ok (.cmpAccImm (.byte 10)) ∧
  decodeAt .byW [0b10000011, 0b11011010, 0x00] 0 = .ok (.sbbRmImm (.reg .dx) (.sext 0)) ∧
  decodeAt .byW [0b01110101, 0xF8] 0 = .ok (.jne 0xF8) ∧
  decodeAt .byW [0b11100010, 0xFB] 0 = .ok (.loop 0xFB)

/-- 30_encoding.md R111: exactly the 186 listed values of byte 0 are unrecognized. -/
def Obligations.UnrecognizedFirstBytes : Prop :=
  (∀ b : Byte, lookup b = none ↔
    (0x06 ≤ b ∧ b ≤ 0x27) ∨ (0x2E ≤ b ∧ b ≤ 0x37) ∨ (0x3E ≤ b ∧ b ≤ 0x6F) ∨ (0x84 ≤ b ∧ b ≤ 0x87) ∨ b = 0x8D ∨
    (0x8F ≤ b ∧ b ≤ 0x9F) ∨ (0xA4 ≤ b ∧ b ≤ 0xAF) ∨ (0xC0 ≤ b ∧ b ≤ 0xC5) ∨ (0xC8 ≤ b ∧ b ≤ 0xDF) ∨ 0xE4 ≤ b) ∧
  ((List.range 256).filter fun n => lookup (BitVec.ofNat 8 n) == none).length = 186

/-- 30_encoding.md R104: the lookup finds the family of the longest key, of 3 to 8 bits, that equals the top bits of
byte 0; it fails exactly when there is none, and then decoding fails with that byte. -/
def Obligations.LookupFindsLongestMatch : Prop :=
  (∀ b : Byte,
    let hits := opcodeKeys.filter fun k => 3 ≤ k.len ∧ k.len ≤ 8 ∧ b.toNat / 2 ^ (8 - k.len) = k.value
    (lookup b = none ↔ hits = []) ∧
    ∀ f, lookup b = some f → ∃ k ∈ hits, k.family = f ∧ ∀ k' ∈ hits, k'.len ≤ k.len) ∧
  ∀ mode k b rest, lookup b = none →
    decode mode { index := k, rest := b :: rest } = .error (.unrecognizedOpcode b)

/-- 30_encoding.md R103, R106: 34 keys of lengths 4, 6, 7 and 8, none a prefix of another. -/
def Obligations.OpcodeKeysArePrefixFree : Prop :=
  opcodeKeys.length = 34 ∧
  (∀ k ∈ opcodeKeys, k.len ∈ [4, 6, 7, 8] ∧ k.value < 2 ^ k.len) ∧
  opcodeKeys.Pairwise fun k k' =>
    (k.len ≤ k'.len → k'.value / 2 ^ (k'.len - k.len) ≠ k.value) ∧
    (k'.len ≤ k.len → k.value / 2 ^ (k.len - k'.len) ≠ k'.value)

/-- 30_encoding.md R107: the extension field selects ADD, ADC, SBB, SUB or CMP, and 001, 100, 110 raise F2 as soon as
byte 1 has been read, whatever follows. -/
def Obligations.ExtensionFieldSelectsOperation : Prop :=
  (∀ rm imm, (extension 0b000).map (fun f => f rm imm) = .ok (.addRmImm rm imm) ∧
    (extension 0b010).map (fun f => f rm imm) = .ok (.adcRmImm rm imm) ∧
    (extension 0b011).map (fun f => f rm imm) = .ok (.sbbRmImm rm imm) ∧
    (extension 0b101).map (fun f => f rm imm) = .ok (.subRmImm rm imm) ∧
    (extension 0b111).map (fun f => f rm imm) = .ok (.cmpRmImm rm imm)) ∧
  ∀ (mode : AccAddrMode) (k : Nat) (b0 b1 : Byte) (rest : List Byte),
    b0 ∈ [0x80, 0x81, 0x82, 0x83] → b1.extractLsb' 3 3 ∈ [0b001, 0b100, 0b110] →
    decode mode { index := k, rest := b0 :: b1 :: rest } = .error (.unsupportedExtension (b1.extractLsb' 3 3))

/-- 30_encoding.md R85, R100: the sizes and values of immediate data, by W and, in format ARITHIMM, by S and W. -/
def Obligations.ImmediateSizesAndValues : Prop :=
  ∀ (k : Nat) (lo hi : Byte) (rest : List Byte),
    (immW { index := k, rest := lo :: rest } .byte).map (fun r => (immOperand r.1, r.2)) =
      .ok (.imm .byte (lo.setWidth 16), { index := k + 1, rest := rest }) ∧
    (immW { index := k, rest := lo :: hi :: rest } .word).map (fun r => (immOperand r.1, r.2)) =
      .ok (.imm .word (hi ++ lo), { index := k + 2, rest := rest }) ∧
    (∀ s, (immSW { index := k, rest := lo :: rest } s .byte).map (fun r => (arithImmOperand r.1, r.2)) =
      .ok (.imm .byte (lo.setWidth 16), { index := k + 1, rest := rest })) ∧
    (immSW { index := k, rest := lo :: hi :: rest } false .word).map (fun r => (arithImmOperand r.1, r.2)) =
      .ok (.imm .word (hi ++ lo), { index := k + 2, rest := rest }) ∧
    (immSW { index := k, rest := lo :: rest } true .word).map (fun r => (arithImmOperand r.1, r.2)) =
      .ok (.imm .word (lo.signExtend 16), { index := k + 1, rest := rest })

/-- 30_encoding.md R101: one zero-extended address byte for w = 0 under `by_w`, else two bytes, low byte first. -/
def Obligations.AccumulatorAddressSize : Prop :=
  ∀ (k : Nat) (lo hi : Byte) (rest : List Byte),
    (accAddr .byW { index := k, rest := lo :: rest } .byte).map (fun r => (accAddrValue r.1, r.2)) =
      .ok (lo.setWidth 16, { index := k + 1, rest := rest }) ∧
    ∀ mode w, mode = .always16 ∨ w = .word →
      (accAddr mode { index := k, rest := lo :: hi :: rest } w).map (fun r => (accAddrValue r.1, r.2)) =
        .ok (hi ++ lo, { index := k + 2, rest := rest })

/-- 30_encoding.md R108: 0x82 decodes as 0x80; the REG field of C6 and C7 and bit 5 of the SEG byte are not examined; the
two encodings of a register to register RMREG form are one Instruction value. -/
def Obligations.RedundantEncodings : Prop :=
  (∀ mode k rest, decode mode { index := k, rest := 0x82 :: rest } = decode mode { index := k, rest := 0x80 :: rest }) ∧
  (∀ mode k (b0 : Byte) (md : BitVec 2) (reg reg' rm : BitVec 3) rest, b0 ∈ [0xC6, 0xC7] →
    decode mode { index := k, rest := b0 :: (md ++ reg ++ rm : BitVec 8) :: rest } =
      decode mode { index := k, rest := b0 :: (md ++ reg' ++ rm : BitVec 8) :: rest }) ∧
  (∀ mode k (b0 : Byte) (md : BitVec 2) (x x' : BitVec 1) (ss : BitVec 2) (rm : BitVec 3) rest, b0 ∈ [0x8C, 0x8E] →
    decode mode { index := k, rest := b0 :: (md ++ x ++ ss ++ rm : BitVec 8) :: rest } =
      decode mode { index := k, rest := b0 :: (md ++ x' ++ ss ++ rm : BitVec 8) :: rest }) ∧
  (∀ r q : GReg, r.width = q.width →
    instruction (.movRmReg .toRm r (.reg q)) = instruction (.movRmReg .toReg q (.reg r)) ∧
    instruction (.addRmReg .toRm r (.reg q)) = instruction (.addRmReg .toReg q (.reg r)) ∧
    instruction (.subRmReg .toRm r (.reg q)) = instruction (.subRmReg .toReg q (.reg r)) ∧
    instruction (.cmpRmReg .toRm r (.reg q)) = instruction (.cmpRmReg .toReg q (.reg r)))

/-- 60_exceptions.md R251: an unrecognized byte 0 raises F1 whatever follows it, even at the very end of the code store;
and, by R235 (decision D18) and R256, it stops a running machine with nothing but STATUS changed. That a fatal condition
is a next state is log entry 5 (DEDUCED). -/
def Obligations.UnrecognizedOpcodeStopsMachine : Prop :=
  (∀ mode k b rest, lookup b = none →
    decode mode { index := k, rest := b :: rest } = .error (.unrecognizedOpcode b)) ∧
  (∀ s b, s.status = .running → s.code.length ≤ 65535 → s.code[s.regs.ip.toNat]? = some b → lookup b = none →
    step s = .next { s with status := .fault (.unrecognizedOpcode b) })

/-- 60_exceptions.md R254: every well-formed instruction cut short raises F4, and F4 always reports the index of the first
missing byte, which is the end of the store. -/
def Obligations.TruncatedInstructionRaisesF4 : Prop :=
  (∀ (mode : AccAddrMode) (i : Instr) (k n : Nat), i.wf mode = true → n < i.length →
    decode mode { index := k, rest := (encode i).take n } = .error (.truncatedInput (BitVec.ofNat 16 (k + n)))) ∧
  (∀ (mode : AccAddrMode) (c : Cursor) (x : Word), decode mode c = .error (.truncatedInput x) →
    x = BitVec.ofNat 16 (c.index + c.rest.length))

/-- 60_exceptions.md R253: no input raises F3. -/
def Obligations.MalformedModIsNeverRaised : Prop :=
  ∀ (mode : AccAddrMode) (c : Cursor) (v : Byte), decode mode c ≠ .error (.malformedMod v)

/-! ### MOV -/

/-- 40_mov.md, apply and flags of the forms with a register or an immediate source: each completes when its operands are
accessible. Memory in canonical form is a premise (part of the invariant of StepKeepsInvariant). -/
def Obligations.MovRegisterAndImmediateForms : Prop :=
  ∀ (mode : AccAddrMode) (s : State), s.mem.wf = true →
    (∀ d reg rm, (Instr.movRmReg d reg rm).wf mode = true →
      accessible s (rmLoc reg.width rm) →
      MovesTo (.movRmReg d reg rm)
        (match d with | .toRm => rmLoc reg.width rm | .toReg => gregLoc reg)
        (.loc (match d with | .toRm => gregLoc reg | .toReg => rmLoc reg.width rm)) s) ∧
    (∀ rm imm, (Instr.movRmImm rm imm).wf mode = true →
      accessible s (rmLoc imm.width rm) →
      MovesTo (.movRmImm rm imm) (rmLoc imm.width rm) (immOperand imm) s) ∧
    (∀ reg imm, (Instr.movRegImm reg imm).wf mode = true →
      MovesTo (.movRegImm reg imm) (gregLoc reg) (immOperand imm) s)

/-- 40_mov.md, apply and flags of the accumulator and segment forms: AL or AX against a direct address, a segment register
against a word operand. -/
def Obligations.MovAccumulatorAndSegmentForms : Prop :=
  ∀ (mode : AccAddrMode) (s : State), s.mem.wf = true →
    (∀ w addr, (Instr.movAccMem w addr).wf mode = true →
      accessible s (.mem w (.direct (accAddrValue addr))) →
      MovesTo (.movAccMem w addr) (.reg w .ax false) (.loc (.mem w (.direct (accAddrValue addr)))) s) ∧
    (∀ w addr, (Instr.movMemAcc w addr).wf mode = true →
      accessible s (.mem w (.direct (accAddrValue addr))) →
      MovesTo (.movMemAcc w addr) (.mem w (.direct (accAddrValue addr))) (.loc (.reg w .ax false)) s) ∧
    (∀ rm sr, (Instr.movRmSeg rm sr).wf mode = true →
      accessible s (rmLoc .word rm) →
      MovesTo (.movRmSeg rm sr) (rmLoc .word rm) (.loc (segLoc sr)) s) ∧
    (∀ sr rm, (Instr.movSegRm sr rm).wf mode = true →
      accessible s (rmLoc .word rm) →
      MovesTo (.movSegRm sr rm) (segLoc sr) (.loc (rmLoc .word rm)) s)

/-! ### Arithmetic -/

/-- 41_arithmetic.md, the three forms of ADD: destination plus source, written back, six flags. -/
def Obligations.AddForms : Prop :=
  ∀ (mode : AccAddrMode) (s : State), s.mem.wf = true →
    (∀ d reg rm, (Instr.addRmReg d reg rm).wf mode = true →
      accessible s (rmLoc reg.width rm) →
      Computes .add (fun d s _ => d + s) true (.addRmReg d reg rm)
        (match d with | .toRm => rmLoc reg.width rm | .toReg => gregLoc reg)
        (.loc (match d with | .toRm => gregLoc reg | .toReg => rmLoc reg.width rm)) s) ∧
    (∀ imm, Computes .add (fun d s _ => d + s) true (.addAccImm imm)
      (.reg imm.width .ax false) (immOperand imm) s) ∧
    (∀ rm imm, (Instr.addRmImm rm imm).wf mode = true →
      accessible s (rmLoc imm.width rm) →
      Computes .add (fun d s _ => d + s) true (.addRmImm rm imm) (rmLoc imm.width rm) (arithImmOperand imm) s)

/-- 41_arithmetic.md, the three forms of SUB: the destination is the minuend. -/
def Obligations.SubForms : Prop :=
  ∀ (mode : AccAddrMode) (s : State), s.mem.wf = true →
    (∀ d reg rm, (Instr.subRmReg d reg rm).wf mode = true →
      accessible s (rmLoc reg.width rm) →
      Computes .sub (fun d s _ => d - s) true (.subRmReg d reg rm)
        (match d with | .toRm => rmLoc reg.width rm | .toReg => gregLoc reg)
        (.loc (match d with | .toRm => gregLoc reg | .toReg => rmLoc reg.width rm)) s) ∧
    (∀ imm, Computes .sub (fun d s _ => d - s) true (.subAccImm imm)
      (.reg imm.width .ax false) (immOperand imm) s) ∧
    (∀ rm imm, (Instr.subRmImm rm imm).wf mode = true →
      accessible s (rmLoc imm.width rm) →
      Computes .sub (fun d s _ => d - s) true (.subRmImm rm imm) (rmLoc imm.width rm) (arithImmOperand imm) s)

/-- 41_arithmetic.md R156: the three forms of CMP compute the flags of SUB and write neither operand, whatever its
kind; no memory premise is needed, since nothing is stored. -/
def Obligations.CmpFormsWriteNothing : Prop :=
  ∀ (mode : AccAddrMode) (s : State),
    (∀ d reg rm, (Instr.cmpRmReg d reg rm).wf mode = true →
      accessible s (rmLoc reg.width rm) →
      Computes .sub (fun d s _ => d - s) false (.cmpRmReg d reg rm)
        (match d with | .toRm => rmLoc reg.width rm | .toReg => gregLoc reg)
        (.loc (match d with | .toRm => gregLoc reg | .toReg => rmLoc reg.width rm)) s) ∧
    (∀ imm, Computes .sub (fun d s _ => d - s) false (.cmpAccImm imm)
      (.reg imm.width .ax false) (immOperand imm) s) ∧
    (∀ rm imm, (Instr.cmpRmImm rm imm).wf mode = true →
      accessible s (rmLoc imm.width rm) →
      Computes .sub (fun d s _ => d - s) false (.cmpRmImm rm imm) (rmLoc imm.width rm) (arithImmOperand imm) s)

/-- 41_arithmetic.md R153 (decision D9): ADC adds and SBB subtracts the carry flag as it stood before the instruction. -/
def Obligations.AdcAndSbbHonourCarryIn : Prop :=
  ∀ (mode : AccAddrMode) (s : State), s.mem.wf = true →
    (∀ rm imm, (Instr.adcRmImm rm imm).wf mode = true →
      accessible s (rmLoc imm.width rm) →
      Computes .add (fun d s cin => d + s + cin) true (.adcRmImm rm imm) (rmLoc imm.width rm) (arithImmOperand imm) s) ∧
    (∀ rm imm, (Instr.sbbRmImm rm imm).wf mode = true →
      accessible s (rmLoc imm.width rm) →
      Computes .sub (fun d s cin => d - s - cin) true (.sbbRmImm rm imm) (rmLoc imm.width rm) (arithImmOperand imm) s)

/-- 60_exceptions.md R258, 44_sequencer.md R235: an instruction whose memory operand is not accessible (which needs
`fault_on_overflow`) raises F6 with the address modulo 2^16 and changes nothing but STATUS. -/
def Obligations.MemBoundsLeavesOnlyStatus : Prop :=
  ∀ (mode : AccAddrMode) (i : Instr) (mn : Mnemonic) (dst : Loc) (src : Operand) (w : Width) (m : MemRef) (s : State),
    i.wf mode = true → instruction i = ⟨mn, .two dst src⟩ → (dst = .mem w m ∨ src = .loc (.mem w m)) →
    ¬ accessible s (.mem w m) →
    s.opts.eaMode = .faultOnOverflow ∧
    exec i s = .next { s with status := .fault (.memBounds (BitVec.ofInt 16 (exactAddress s.regs m))) }

/-! ### The flag engine -/

/-- 42_flags.md R180 to R187: each of the six flags by its rule, at both widths, and the other ten bits unchanged. -/
def Obligations.FlagEngineFormulas : Prop :=
  ∀ (kind : AluKind) (f d s : Word) (raw : Int) (n : Nat), n = 8 ∨ n = 16 →
    let new := computeFlags kind f d s raw n
    let res : Word := BitVec.ofInt 16 (raw % 2 ^ n)
    let sg : Word → Bool := fun v => v.getLsbD (n - 1)
    new.getLsbD 2 = decide ((((List.range 8).map fun j => (res.getLsbD j).toNat).sum) % 2 = 0) ∧
    new.getLsbD 7 = sg res ∧
    new.getLsbD 6 = decide (raw % 2 ^ n = 0) ∧
    new.getLsbD 11 = (match kind with
      | .add => (sg d == sg s) && (sg res != sg d)
      | .sub => (sg d != sg s) && (sg res == sg s)) ∧
    new.getLsbD 4 = ((s ^^^ d ^^^ res).getLsbD 4) ∧
    new.getLsbD 0 = (match kind with
      | .add => decide (raw > 2 ^ n - 1)
      | .sub => decide (raw < 0)) ∧
    ∀ j ∈ reservedBits, new.getLsbD j = f.getLsbD j

/-- 42_flags.md R181: no flag keeps an old value: the six flags do not depend on the old flags word, and the other ten bits
pass through. -/
def Obligations.FlagsAreIndependentOfOldFlags : Prop :=
  ∀ (kind : AluKind) (f f' d s : Word) (raw : Int) (n : Nat),
    (∀ b ∈ flagBits, (computeFlags kind f d s raw n).getLsbD b = (computeFlags kind f' d s raw n).getLsbD b) ∧
    (∀ b ∈ reservedBits, (computeFlags kind f d s raw n).getLsbD b = f.getLsbD b)

/-- 42_flags.md R187, with its sentence marked derived: CF is the unsigned overflow or borrow, carry-in included (decision
D9), and equals bit n of raw modulo 2^(n+1). -/
def Obligations.CarryFlagIsUnsignedOverflow : Prop :=
  ∀ (f d s : Word) (cin : Bool) (n : Nat), n = 8 ∨ n = 16 → d.toNat < 2 ^ n → s.toNat < 2 ^ n →
    let cf : ArithOp → Bool := fun op => flag (computeFlags op.kind f d s (rawResult op d s cin) n) 0
    cf .add = decide (d.toNat + s.toNat ≥ 2 ^ n) ∧
    cf .adc = decide (d.toNat + s.toNat + cin.toNat ≥ 2 ^ n) ∧
    cf .sub = decide (s.toNat > d.toNat) ∧
    cf .cmp = decide (s.toNat > d.toNat) ∧
    cf .sbb = decide (s.toNat + cin.toNat > d.toNat) ∧
    ∀ op, cf op = decide ((rawResult op d s cin) % 2 ^ (n + 1) ≥ 2 ^ n)

/-- 42_flags.md R186, its sentence marked derived: AF is the carry from bit 3 into bit 4 of the sum, or the borrow bit 3
takes from bit 4 in the difference, carry-in included, at both widths. -/
def Obligations.AuxFlagIsNibbleCarry : Prop :=
  ∀ (f d s : Word) (cin : Bool) (n : Nat), n = 8 ∨ n = 16 → d.toNat < 2 ^ n → s.toNat < 2 ^ n →
    let af : ArithOp → Bool := fun op => flag (computeFlags op.kind f d s (rawResult op d s cin) n) 4
    af .add = decide (d.toNat % 16 + s.toNat % 16 ≥ 16) ∧
    af .adc = decide (d.toNat % 16 + s.toNat % 16 + cin.toNat ≥ 16) ∧
    af .sub = decide (d.toNat % 16 < s.toNat % 16) ∧
    af .cmp = decide (d.toNat % 16 < s.toNat % 16) ∧
    af .sbb = decide (d.toNat % 16 < s.toNat % 16 + cin.toNat)

/-- 42_flags.md R185, its sentence marked derived: OF is 1 exactly when the true signed result, carry-in included, lies
outside the width's signed range. Stated for operands of 8 and of 16 bits. -/
def Obligations.OverflowFlagIsSignedRange : Prop :=
  (∀ (f : Word) (d s : BitVec 8) (cin : Bool) (op : ArithOp),
    flag (computeFlags op.kind f (d.setWidth 16) (s.setWidth 16)
        (rawResult op (d.setWidth 16) (s.setWidth 16) cin) 8) 11 =
      let r : Int := match op with
        | .add => d.toInt + s.toInt
        | .adc => d.toInt + s.toInt + cin.toNat
        | .sub | .cmp => d.toInt - s.toInt
        | .sbb => d.toInt - s.toInt - cin.toNat
      decide (r < -128 ∨ 127 < r)) ∧
  (∀ (f d s : Word) (cin : Bool) (op : ArithOp),
    flag (computeFlags op.kind f d s (rawResult op d s cin) 16) 11 =
      let r : Int := match op with
        | .add => d.toInt + s.toInt
        | .adc => d.toInt + s.toInt + cin.toNat
        | .sub | .cmp => d.toInt - s.toInt
        | .sbb => d.toInt - s.toInt - cin.toNat
      decide (r < -32768 ∨ 32767 < r))

/-- 42_flags.md R190 L-d, marked derived: after CMP, CF orders the operands as unsigned, ZF says they are equal, SF XOR OF
orders them as signed; at 16 and at 8 bits. -/
def Obligations.CompareOrdersOperands : Prop :=
  (∀ (f d s : Word) (cin : Bool),
    let new := computeFlags .sub f d s (rawResult .cmp d s cin) 16
    (flag new 0 = decide (d.toNat < s.toNat)) ∧ (flag new 6 = decide (d = s)) ∧
    ((flag new 7 ^^ flag new 11) = decide (d.toInt < s.toInt))) ∧
  (∀ (f : Word) (d s : BitVec 8) (cin : Bool),
    let new := computeFlags .sub f (d.setWidth 16) (s.setWidth 16)
      (rawResult .cmp (d.setWidth 16) (s.setWidth 16) cin) 8
    (flag new 0 = decide (d.toNat < s.toNat)) ∧ (flag new 6 = decide (d = s)) ∧
    ((flag new 7 ^^ flag new 11) = decide (d.toInt < s.toInt)))

/-- 42_flags.md R190 L-f and L-g, marked derived: ADD then ADC adds 32-bit numbers, SUB then SBB subtracts them, modulo
2^32, and CF is the carry out or the borrow. -/
def Obligations.TwoWordArithmetic : Prop :=
  ∀ f lo1 lo2 hi1 hi2 : Word,
    (let rl := rawResult .add lo1 lo2 (flag f 0)
     let f1 := computeFlags .add f lo1 lo2 rl 16
     let rh := rawResult .adc hi1 hi2 (flag f1 0)
     let sum := (hi1.toNat * 65536 + lo1.toNat) + (hi2.toNat * 65536 + lo2.toNat)
     (resultOf rh 16).toNat * 65536 + (resultOf rl 16).toNat = sum % 2 ^ 32 ∧
     flag (computeFlags .add f1 hi1 hi2 rh 16) 0 = decide (sum ≥ 2 ^ 32)) ∧
    (let rl := rawResult .sub lo1 lo2 (flag f 0)
     let f1 := computeFlags .sub f lo1 lo2 rl 16
     let rh := rawResult .sbb hi1 hi2 (flag f1 0)
     let diff : Int := ((hi1.toNat * 65536 + lo1.toNat : Nat) : Int) - ((hi2.toNat * 65536 + lo2.toNat : Nat) : Int)
     (((resultOf rh 16).toNat * 65536 + (resultOf rl 16).toNat : Nat) : Int) = diff % 2 ^ 32 ∧
     flag (computeFlags .sub f1 hi1 hi2 rh 16) 0 = decide (diff < 0))

/-- 42_flags.md R190 L-a, L-b, L-c, L-h, marked derived: adding zero, subtracting a value from itself, subtracting and
adding back, and that ZF implies PF and not SF. -/
def Obligations.ArithmeticIdentities : Prop :=
  ∀ (f d s : Word) (n : Nat), n = 8 ∨ n = 16 → d.toNat < 2 ^ n → s.toNat < 2 ^ n →
    (let new := computeFlags .add f d 0 (rawResult .add d 0 (flag f 0)) n
     resultOf (rawResult .add d 0 (flag f 0)) n = d ∧
     flag new 0 = false ∧ flag new 11 = false ∧ flag new 4 = false) ∧
    (let new := computeFlags .sub f d d (rawResult .sub d d (flag f 0)) n
     resultOf (rawResult .sub d d (flag f 0)) n = 0 ∧
     flag new 0 = false ∧ flag new 2 = true ∧ flag new 4 = false ∧ flag new 6 = true ∧ flag new 7 = false ∧
     flag new 11 = false) ∧
    (let r := resultOf (rawResult .sub d s (flag f 0)) n
     ∀ cin, resultOf (rawResult .add r s cin) n = d) ∧
    (∀ kind raw, let new := computeFlags kind f d s raw n
     flag new 6 = true → flag new 7 = false ∧ flag new 2 = true)

/-- 42_flags.md R190 L-e, marked derived, and 41_arithmetic.md R153: with CF = 0, ADC and SBB of an immediate are ADD and
SUB of it, the whole outcome, in every state. -/
def Obligations.AdcAndSbbWithoutCarry : Prop :=
  ∀ (s : State) (rm : RM) (imm : ArithImm), s.flags.getLsbD 0 = false →
    exec (.adcRmImm rm imm) s = exec (.addRmImm rm imm) s ∧
    exec (.sbbRmImm rm imm) s = exec (.subRmImm rm imm) s

/-! ### Jumps -/

/-- 43_jumps.md R201 to R208: opcode byte, condition and effect of JO, JNO, JB, JNB, JE, JNE, JBE, JNBE. -/
def Obligations.OverflowCarryZeroJumps : Prop :=
  JumpRule 0x70 .jo (fun f => f.getLsbD 11) ∧
  JumpRule 0x71 .jno (fun f => !f.getLsbD 11) ∧
  JumpRule 0x72 .jb (fun f => f.getLsbD 0) ∧
  JumpRule 0x73 .jnb (fun f => !f.getLsbD 0) ∧
  JumpRule 0x74 .je (fun f => f.getLsbD 6) ∧
  JumpRule 0x75 .jne (fun f => !f.getLsbD 6) ∧
  JumpRule 0x76 .jbe (fun f => f.getLsbD 0 || f.getLsbD 6) ∧
  JumpRule 0x77 .jnbe (fun f => !f.getLsbD 0 && !f.getLsbD 6)

/-- 43_jumps.md R209 to R216: opcode byte, condition and effect of JS, JNS, JP, JNP, JL, JNL, JLE, JNLE. -/
def Obligations.SignParityLessJumps : Prop :=
  JumpRule 0x78 .js (fun f => f.getLsbD 7) ∧
  JumpRule 0x79 .jns (fun f => !f.getLsbD 7) ∧
  JumpRule 0x7A .jp (fun f => f.getLsbD 2) ∧
  JumpRule 0x7B .jnp (fun f => !f.getLsbD 2) ∧
  JumpRule 0x7C .jl (fun f => f.getLsbD 7 != f.getLsbD 11) ∧
  JumpRule 0x7D .jnl (fun f => f.getLsbD 7 == f.getLsbD 11) ∧
  JumpRule 0x7E .jle (fun f => f.getLsbD 6 || (f.getLsbD 7 != f.getLsbD 11)) ∧
  JumpRule 0x7F .jnle (fun f => !f.getLsbD 6 && (f.getLsbD 7 == f.getLsbD 11))

/-- 43_jumps.md R221, marked derived: for a non-zero displacement, exactly one jump of each pair leaves the fall-through
address. -/
def Obligations.NegatedJumpsAreComplementary : Prop :=
  ∀ (disp : Byte) (s : State), disp ≠ 0 →
    ∀ p ∈ ([(.jo, .jno), (.jb, .jnb), (.je, .jne), (.jbe, .jnbe), (.js, .jns), (.jp, .jnp), (.jl, .jnl),
        (.jle, .jnle)] : List ((Byte → Instr) × (Byte → Instr))),
      ∃ t u, exec (p.1 disp) s = .next t ∧ exec (p.2 disp) s = .next u ∧
        ((t.regs.ip = s.regs.ip + 2 ∧ u.regs.ip ≠ s.regs.ip + 2) ∨
          (t.regs.ip ≠ s.regs.ip + 2 ∧ u.regs.ip = s.regs.ip + 2))

/-- 43_jumps.md R217 to R220 under `LOOP_EXEC = i8086`: opcode byte, CX and jump of LOOPNZ, LOOPZ, LOOP, JCXZ. -/
def Obligations.LoopFamilyEffects : Prop :=
  (∀ mode k disp rest,
    decode mode { index := k, rest := 0xE0 :: disp :: rest } = .ok (.loopnz disp, { index := k + 2, rest := rest }) ∧
    decode mode { index := k, rest := 0xE1 :: disp :: rest } = .ok (.loopz disp, { index := k + 2, rest := rest }) ∧
    decode mode { index := k, rest := 0xE2 :: disp :: rest } = .ok (.loop disp, { index := k + 2, rest := rest }) ∧
    decode mode { index := k, rest := 0xE3 :: disp :: rest } = .ok (.jcxz disp, { index := k + 2, rest := rest })) ∧
  (∀ disp s, s.opts.loopExec = .i8086 →
    LoopsIf (.loopnz disp) (s.flags.getLsbD 6 = false) disp s ∧
    LoopsIf (.loopz disp) (s.flags.getLsbD 6 = true) disp s ∧
    LoopsIf (.loop disp) True disp s ∧
    JumpsIf (.jcxz disp) (s.regs.cx = 0) disp s)

/-- 43_jumps.md R224: under `LOOP_EXEC = refuse` the four are still decoded and printed, and refused by name when
executed. -/
def Obligations.LoopFamilyRefused : Prop :=
  ∀ disp s, s.opts.loopExec = .refuse →
    exec (.loopnz disp) s = .refused (.loopExecRefused .loopnz) ∧
    exec (.loopz disp) s = .refused (.loopExecRefused .loopz) ∧
    exec (.loop disp) s = .refused (.loopExecRefused .loop) ∧
    exec (.jcxz disp) s = .refused (.loopExecRefused .jcxz)

/-! ### The sequencer -/

/-- 44_sequencer.md R230, R232, R233: when the bytes at the pc decode to an instruction, a running machine's step is `exec`
of it in that state, and the instruction's record is emitted unless a fatal condition stopped it; when fetch, lookup or
decode raises a condition, in either mode, STATUS records exactly that code and info and nothing else changes (R235, R256).
That `exec` contains the pc advance is log entry 18 (DEDUCED), the record on `emitted` is the model's choice of log
entry 4 (DESIGN CHOICE), and that a fatal condition is a next state is log entry 5 (DEDUCED). -/
def Obligations.StepRunsDecodedInstruction : Prop :=
  (∀ (s : State) (i : Instr), s.status = .running → s.code.length ≤ 65535 → s.opts.runMode = .simulate →
    decodeAt s.opts.accAddr s.code s.regs.ip.toNat = .ok i →
    step s = match exec i s with
      | .next t => .next (match t.status with
          | .fault _ => t
          | _ => { t with
              emitted := ⟨i, s.regs, s.flags, t.regs, t.flags, storeOf (writtenLoc i) s t⟩ :: t.emitted })
      | .fault r => .fault r
      | .refused r => .refused r) ∧
  (∀ (s : State) (c : Fatal), s.status = .running → s.code.length ≤ 65535 → s.regs.ip.toNat < s.code.length →
    decodeAt s.opts.accAddr s.code s.regs.ip.toNat = .error c →
    step s = .next { s with status := .fault c })

/-- 44_sequencer.md R231: before each fetch, `pc = CODE_LEN` halts the machine and `pc > CODE_LEN` raises F5; with no code
the machine is Halted from reset. -/
def Obligations.EndTestHaltsOrFaults : Prop :=
  (∀ s, s.status = .running → s.code.length ≤ 65535 → s.regs.ip.toNat = s.code.length →
    step s = .next { s with status := .halted }) ∧
  (∀ s, s.status = .running → s.code.length ≤ 65535 → s.regs.ip.toNat > s.code.length →
    step s = .next { s with status := .fault (.fetchOutOfRange s.regs.ip) }) ∧
  (∀ m o, (State.resetWith [] m o).status = .halted)

/-- 44_sequencer.md R236, 60_exceptions.md R259: a Halted or Fault machine has no step (stuck,
93_implementation_defined.md U15). That `step` says so by the two named faults is log entry 5 (DEDUCED). -/
def Obligations.StoppedMachineHasNoStep : Prop :=
  (∀ s, s.status = .halted → step s = .fault .haltedHasNoStep) ∧
  (∀ s c, s.status = .fault c → step s = .fault (.faultHasNoStep c)) ∧
  (∀ s t, step s = .next t → s.status = .running)

/-- 44_sequencer.md R235: a step that raises a fatal condition, of whatever kind and in whatever phase, changes nothing but
STATUS, and emits no line. -/
def Obligations.FatalStepChangesOnlyStatus : Prop :=
  ∀ (s t : State) (c : Fatal), step s = .next t → t.status = .fault c → t = { s with status := .fault c }

/-- 44_sequencer.md R237: in `decode_only` mode an instruction moves the pc by its length and changes no other register, no
flag and no memory byte; jumps are not taken and nothing is refused. -/
def Obligations.DecodeOnlyWalksLinearly : Prop :=
  ∀ (s : State) (i : Instr), s.status = .running → s.code.length ≤ 65535 → s.opts.runMode = .decodeOnly →
    decodeAt s.opts.accAddr s.code s.regs.ip.toNat = .ok i →
    ∃ t, step s = .next t ∧ t.regs = s.regs.set .ip (s.regs.ip + BitVec.ofNat 16 i.length) ∧
      t.flags = s.flags ∧ t.mem = s.mem ∧ t.code = s.code ∧ t.status = .running ∧ t.opts = s.opts ∧
      t.emitted.map Executed.instr = i :: s.emitted.map Executed.instr

/-- 44_sequencer.md R238, both directions of its "exactly when": a step that ends Halted found `pc = CODE_LEN` and changed
nothing but STATUS; and a running machine, no fatal condition recorded, that finds `pc = CODE_LEN` ends so. The bound on
the code store is that of R29 (decision D5, log entry 6). -/
def Obligations.HaltedOnlyAtCodeEnd : Prop :=
  (∀ s t : State, step s = .next t → t.endedNormally →
    s.regs.ip.toNat = s.code.length ∧ t = { s with status := .halted }) ∧
  (∀ s : State, s.status = .running → s.code.length ≤ 65535 → s.regs.ip.toNat = s.code.length →
    ∃ t, step s = .next t ∧ t.endedNormally)

/-- 44_sequencer.md R233, its sentence marked derived: a decoded instruction lies inside the code store, so the sequential
advance never wraps. -/
def Obligations.SequentialAdvanceNeverWraps : Prop :=
  ∀ (s : State) (i : Instr), s.code.length ≤ 65535 →
    decodeAt s.opts.accAddr s.code s.regs.ip.toNat = .ok i →
    s.regs.ip.toNat + i.length ≤ s.code.length ∧
    (s.regs.ip + BitVec.ofNat 16 i.length).toNat = s.regs.ip.toNat + i.length

/-- 93_implementation_defined.md U16 (decision D5), log entry 6: a code store of more than 65535 bytes is refused by a
running machine. -/
def Obligations.OverlongCodeIsRefused : Prop :=
  ∀ s : State, s.status = .running → s.code.length > 65535 → step s = .refused (.codeTooLong s.code.length)

/-- 44_sequencer.md R230 (step 6), R240, 60_exceptions.md R256: a step that leaves the machine running emits exactly one
record, of the instruction it decoded, with the registers and FLAGS before and after, and in `simulate` mode its memory write;
any other step emits none and keeps those already emitted. `emitted` is the model's own field for the output ports (log
entry 4). -/
def Obligations.OneRecordPerCompletedStep : Prop :=
  ∀ s t : State, step s = .next t →
    (t.status = .running ∧ ∃ i, decodeAt s.opts.accAddr s.code s.regs.ip.toNat = .ok i ∧
      t.emitted = ⟨i, s.regs, s.flags, t.regs, t.flags,
        if s.opts.runMode = .simulate then storeOf (writtenLoc i) s t else none⟩ :: s.emitted) ∨
    (t.status ≠ .running ∧ t.emitted = s.emitted)

/-- 20_memory.md R51 (`MemWrite` returns the old value for the trace), 44_sequencer.md R241: the record of an instruction
that completed with a memory destination holds the address, the value there before the step and the value stored. The
record is the model's own (log entries 4 and 20). -/
def Obligations.RecordHoldsOldMemoryValue : Prop :=
  ∀ s t : State, s.opts.runMode = .simulate → step s = .next t → t.status = .running →
    ∃ i e, decodeAt s.opts.accAddr s.code s.regs.ip.toNat = .ok i ∧ t.emitted = e :: s.emitted ∧ e.instr = i ∧
      ∀ w m, writtenLoc i = some (.mem w m) →
        ∃ a old new, effectiveAddress s.opts.eaMode s.regs m = .ok a ∧
          memRead s.opts.eaMode s.mem a w = .ok old ∧ memRead s.opts.eaMode t.mem a w = .ok new ∧
          e.stored = some ⟨a, w, old, new⟩

/-- 44_sequencer.md R241, 10_state.md R26: with the reserved bits zero, a flag string holds no other letters than C, P, A,
Z, S and O, each exactly when its flag is set. -/
def Obligations.FlagStringShowsSixFlags : Prop :=
  ∀ f : Word, (∀ b ∈ reservedBits, f.getLsbD b = false) →
    ((flagString f).toList = ([(0, 'C'), (2, 'P'), (4, 'A'), (6, 'Z'), (7, 'S'), (11, 'O')].filter
      fun x => f.getLsbD x.1).map Prod.snd)

/-! ### Reset and whole-machine rules -/

/-- 10_state.md R33, 70_reset_and_hazards.md R280: what reset leaves, for every code store, MEM_INIT and options (the zeros
are decision D8, log entries 3 and 7; that the model's field `emitted` starts empty is log entry 4, DESIGN CHOICE); and
`State.reset` is the reset with no code, memory all zero and the default options. -/
def Obligations.ResetValues : Prop :=
  (∀ (code : List Byte) (m : Memory) (o : Options),
    let s := State.resetWith code m o
    (∀ r, s.regs.get r = 0) ∧ s.flags = 0 ∧ s.mem = m ∧ s.code = code ∧ s.opts = o ∧ s.emitted = [] ∧
    s.status = if code = [] then .halted else .running) ∧
  State.reset = State.resetWith [] [] ⟨.wrap16, .byW, .i8086, .simulate⟩ ∧
  (∀ a, State.reset.mem.read a = 0)

/-- The invariant of StepKeepsInvariant holds after every reset with at most 65535 bytes of code and a canonical
memory, and in `State.reset`. -/
def Obligations.ResetMeetsInvariant : Prop :=
  State.reset.Inv ∧
  ∀ (code : List Byte) (cells : List (Word × Byte)) (o : Options), code.length ≤ 65535 →
    (State.resetWith code (Memory.ofCells cells) o).Inv

/-- Every step keeps the invariant, from every state that meets it: memory in canonical form, a code store of at most
65535 bytes, the reserved flag bits zero (10_state.md R26), Halted only at `pc = CODE_LEN` (R238), never F3 (R253), F6
only under `fault_on_overflow` (R258). -/
def Obligations.StepKeepsInvariant : Prop :=
  ∀ s t : State, s.Inv → step s = .next t → t.Inv

/-- 10_state.md R29, 20_memory.md R63, 70_reset_and_hazards.md R280: no step changes the code store or the option
parameters. -/
def Obligations.CodeAndOptionsNeverChange : Prop :=
  ∀ s t : State, step s = .next t → t.code = s.code ∧ t.opts = s.opts

/-- 10_state.md R25: no instruction but those of the five arithmetic mnemonics changes any bit of FLAGS. -/
def Obligations.OnlyArithmeticWritesFlags : Prop :=
  ∀ (i : Instr) (s t : State), (instruction i).mnemonic ∉ [Mnemonic.add, .adc, .sub, .sbb, .cmp] →
    exec i s = .next t → t.flags = s.flags

/-- 10_state.md R34, R200: only the jumps and the LOOP family write the pc otherwise than by the sequential advance, and a
fatal condition leaves it. -/
def Obligations.OnlyJumpsRedirectThePc : Prop :=
  ∀ (i : Instr) (s t : State), (instruction i).mnemonic ∈ [Mnemonic.mov, .add, .adc, .sub, .sbb, .cmp] →
    exec i s = .next t →
    t.regs.ip = s.regs.ip + BitVec.ofNat 16 i.length ∨ (∃ c, t = { s with status := .fault c })

/-- 10_state.md R27, marked derived: the segment registers take part in nothing but the two segment forms of MOV: with
other values in them, every other instruction does the same and leaves those values. -/
def Obligations.SegmentRegistersAreStorageOnly : Prop :=
  ∀ (i : Instr) (s : State) (es cs ss ds : Word),
    (∀ rm sr, i ≠ .movRmSeg rm sr) → (∀ sr rm, i ≠ .movSegRm sr rm) →
    exec i (s.withSegs es cs ss ds) = mapNext (fun t => t.withSegs es cs ss ds) (exec i s)
end

