-- ==== Sys2Proof/Laws/Memory.lean ====
section
/-!
SUPPORT. The laws of byte memory: reading after writing, and that every operation keeps the canonical form.
-/

namespace Sys2Proof.Machine

/-! ### The canonical form, one entry at a time -/

/-- Every listed address lies above `a`. -/
def Memory.above (a : Nat) (m : Memory) : Prop := ∀ x ∈ m, a < x.1

theorem Memory.rising_cons (x : Host.Cell) (m : Memory) :
    Memory.rising (x :: m) = true ↔ Memory.above x.1 m ∧ Memory.rising m = true := by
  induction m generalizing x with
  | nil => simp [Memory.rising, Memory.above]
  | cons y rest ih =>
    simp only [Memory.rising, Bool.and_eq_true, decide_eq_true_eq, Memory.above, List.mem_cons, forall_eq_or_imp]
    constructor
    · rintro ⟨hxy, hr⟩
      exact ⟨⟨hxy, fun z hz => Nat.lt_trans hxy (((ih y).1 hr).1 z hz)⟩, hr⟩
    · rintro ⟨⟨hxy, -⟩, hr⟩
      exact ⟨hxy, hr⟩

/-- What the canonical form says of one entry. -/
def Memory.cellOk (x : Host.Cell) : Prop := x.1 < Config.memSize ∧ x.2 ≠ Config.unlistedByte

theorem Memory.wf_nil : Memory.wf [] = true := rfl

theorem Memory.wf_cons (x : Host.Cell) (m : Memory) :
    Memory.wf (x :: m) = true ↔ Memory.cellOk x ∧ Memory.above x.1 m ∧ Memory.wf m = true := by
  simp only [Memory.wf, List.all_cons, Bool.and_eq_true, Memory.rising_cons, decide_eq_true_eq, Memory.cellOk]
  tauto

/-! ### Reading -/

/-- An address below every listed one reads as the unlisted byte. -/
theorem Memory.read_above {m : Memory} {a : Nat} (h : Memory.above a m) : m.read a = Config.unlistedByte := by
  induction m with
  | nil => rfl
  | cons x rest ih =>
    have hx : a < x.1 := h x (by simp)
    obtain ⟨k, b⟩ := x
    simp only [Memory.read]
    rw [if_neg (by simp at hx; omega)]
    exact ih fun y hy => h y (by simp [hy])

theorem Memory.read_entry_append (a b : Nat) (v : Byte) (m : Memory) (h : Memory.above a m) :
    Memory.read (Memory.entry a v ++ m) b = if b = a then v else m.read b := by
  unfold Memory.entry
  split
  · subst_vars
    by_cases hb : b = a
    · subst hb; simp [Memory.read_above h]
    · simp [hb]
  · simp only [List.cons_append, List.nil_append, Memory.read]
    by_cases hb : b = a
    · simp [hb]
    · simp [hb, Ne.symm hb]

/-- Reading after a write (R50, R51): the byte written at its address, the old byte everywhere else. -/
theorem Memory.read_write {m : Memory} (h : m.wf = true) (a : Nat) (v : Byte) (b : Nat) :
    (m.write a v).read b = if b = a then v else m.read b := by
  induction m with
  | nil =>
    have := Memory.read_entry_append a b v [] (by simp [Memory.above])
    rwa [List.append_nil] at this
  | cons x rest ih =>
    obtain ⟨k, w⟩ := x
    obtain ⟨-, habove, hrest⟩ := (Memory.wf_cons _ _).1 h
    simp only [Memory.write]
    by_cases h1 : k < a
    · rw [if_pos h1]
      simp only [Memory.read]
      rw [ih hrest]
      split_ifs <;> first | rfl | omega
    · rw [if_neg h1]
      by_cases h2 : k = a
      · subst h2
        rw [if_pos rfl, Memory.read_entry_append _ _ _ _ habove]
        simp only [Memory.read]
        split_ifs <;> first | rfl | omega
      · rw [if_neg h2]
        refine Memory.read_entry_append _ _ _ _ fun y hy => ?_
        rcases List.mem_cons.1 hy with rfl | hy
        · simp; omega
        · exact Nat.lt_trans (by omega) (habove y hy)

theorem Memory.read_write_same {m : Memory} (h : m.wf = true) (a : Nat) (v : Byte) : (m.write a v).read a = v := by
  rw [Memory.read_write h, if_pos rfl]

theorem Memory.read_write_ne {m : Memory} (h : m.wf = true) {a b : Nat} (v : Byte) (hb : b ≠ a) :
    (m.write a v).read b = m.read b := by
  rw [Memory.read_write h, if_neg hb]

/-! ### Keeping the canonical form -/

theorem Memory.entry_append_wf {m : Memory} {a : Nat} (v : Byte) (ha : a < Config.memSize) (hm : m.wf = true)
    (h : Memory.above a m) : Memory.wf (Memory.entry a v ++ m) = true := by
  unfold Memory.entry
  split
  · simpa using hm
  · exact (Memory.wf_cons _ _).2 ⟨⟨ha, ‹_›⟩, h, hm⟩

theorem Memory.write_above {m : Memory} {k a : Nat} (v : Byte) (hka : k < a) (h : Memory.above k m) :
    Memory.above k (m.write a v) := by
  have hentry : ∀ y ∈ Memory.entry a v, k < y.1 := by
    intro y hy
    unfold Memory.entry at hy
    split at hy
    · simp at hy
    · rw [List.mem_singleton.1 hy]; exact hka
  induction m with
  | nil => exact hentry
  | cons x rest ih =>
    obtain ⟨j, w⟩ := x
    have hrest : Memory.above k rest := fun y hy => h y (by simp [hy])
    have hj : k < j := h (j, w) (by simp)
    intro y hy
    simp only [Memory.write] at hy
    split_ifs at hy
    · rcases List.mem_cons.1 hy with rfl | hy
      · exact hj
      · exact ih hrest y hy
    · rcases List.mem_append.1 hy with hy | hy
      · exact hentry y hy
      · exact hrest y hy
    · rcases List.mem_append.1 hy with hy | hy
      · exact hentry y hy
      · exact h y hy

/-- A write inside the memory keeps the canonical form. -/
theorem Memory.write_wf {m : Memory} (h : m.wf = true) {a : Nat} (ha : a < Config.memSize) (v : Byte) :
    (m.write a v).wf = true := by
  induction m with
  | nil =>
    have := Memory.entry_append_wf v ha Memory.wf_nil (by simp [Memory.above])
    rwa [List.append_nil] at this
  | cons x rest ih =>
    obtain ⟨k, w⟩ := x
    obtain ⟨hx, habove, hrest⟩ := (Memory.wf_cons _ _).1 h
    simp only [Memory.write]
    split_ifs with h1 h2
    · exact (Memory.wf_cons _ _).2 ⟨hx, Memory.write_above v h1 habove, ih hrest⟩
    · subst h2
      exact Memory.entry_append_wf v ha hrest habove
    · refine Memory.entry_append_wf v ha h fun y hy => ?_
      rcases List.mem_cons.1 hy with rfl | hy
      · simp; omega
      · exact Nat.lt_trans (by omega) (habove y hy)

/-- Every 16-bit address lies inside the memory (R28, D1). -/
theorem Word.toNat_lt_memSize (a : Word) : a.toNat < Config.memSize := a.isLt

/-- Storing the bytes of a value keeps the canonical form. -/
theorem storeBytes_wf {m : Memory} (h : m.wf = true) (a v : Word) (w : Width) : (storeBytes m a v w).wf = true := by
  cases w with
  | byte => exact Memory.write_wf h (Word.toNat_lt_memSize a) _
  | word => exact Memory.write_wf (Memory.write_wf h (Word.toNat_lt_memSize a) _) (Word.toNat_lt_memSize (a + 1)) _

/-- `MemWrite` succeeds exactly when `MemRead` of the same address and width does; it returns what that read gives, and
stores the bytes (R51). -/
theorem memWrite_ok_iff {mode : EaMode} {m m' : Memory} {a v old : Word} {w : Width} :
    memWrite mode m a v w = .ok (old, m') ↔ memRead mode m a w = .ok old ∧ m' = storeBytes m a v w := by
  unfold memWrite
  cases memRead mode m a w with
  | error c => simp
  | ok o => simp [eq_comm]

/-- What `MemWrite` raises is what `MemRead` of the same address and width raises. -/
theorem memWrite_error_iff {mode : EaMode} {m : Memory} {a v : Word} {w : Width} {c : Fatal} :
    memWrite mode m a v w = .error c ↔ memRead mode m a w = .error c := by
  unfold memWrite
  cases memRead mode m a w <;> simp

/-- `MemWrite` keeps the canonical form (R51). -/
theorem memWrite_wf {mode : EaMode} {m m' : Memory} (h : m.wf = true) {a v old : Word} {w : Width}
    (hw : memWrite mode m a v w = .ok (old, m')) : m'.wf = true := by
  obtain ⟨-, rfl⟩ := memWrite_ok_iff.1 hw
  exact storeBytes_wf h a v w

/-- A memory given as cells is in canonical form, whatever the cells. -/
theorem Memory.ofCells_wf (cells : List (Word × Byte)) : (Memory.ofCells cells).wf = true := by
  suffices h : ∀ m : Memory, m.wf = true →
      (cells.foldl (fun m x => Memory.write m x.1.toNat x.2) m).wf = true from h [] Memory.wf_nil
  induction cells with
  | nil => exact fun m h => h
  | cons x rest ih => exact fun m h => ih _ (Memory.write_wf h (Word.toNat_lt_memSize x.1) x.2)

/-- Equal memories are equal data: canonical memories that read alike are the same list. -/
theorem Memory.ext_of_wf {m n : Memory} (hm : m.wf = true) (hn : n.wf = true) (h : ∀ a, m.read a = n.read a) :
    m = n := by
  induction m generalizing n with
  | nil =>
    cases n with
    | nil => rfl
    | cons y rest =>
      obtain ⟨k, w⟩ := y
      obtain ⟨hy, -, -⟩ := (Memory.wf_cons _ _).1 hn
      exact absurd (by simpa [Memory.read] using (h k).symm) hy.2
  | cons x rest ih =>
    obtain ⟨j, v⟩ := x
    obtain ⟨hx, hxa, hxr⟩ := (Memory.wf_cons _ _).1 hm
    cases n with
    | nil => exact absurd (by simpa [Memory.read] using h j) hx.2
    | cons y rest' =>
      obtain ⟨k, w⟩ := y
      obtain ⟨hy, hya, hyr⟩ := (Memory.wf_cons _ _).1 hn
      have hj := h j
      have hk := h k
      simp only [Memory.read, if_true] at hj hk
      have hjk : j = k := by
        by_contra hne
        rcases Nat.lt_or_gt_of_ne hne with hlt | hgt
        · rw [if_neg (by omega), Memory.read_above fun z hz => Nat.lt_trans hlt (hya z hz)] at hj
          exact hx.2 hj
        · rw [if_neg (by omega), Memory.read_above fun z hz => Nat.lt_trans hgt (hxa z hz)] at hk
          exact hy.2 hk.symm
      subst hjk
      rw [if_pos rfl] at hj
      have htail : rest = rest' := ih hxr hyr fun a => by
        have ha := h a
        simp only [Memory.read] at ha
        split_ifs at ha with hja
        · subst hja
          rw [Memory.read_above hxa, Memory.read_above hya]
        · exact ha
      rw [hj, htail]

end Sys2Proof.Machine
end

