-- ==== Sys2Proof/Laws/State.lean ====
section
/-!
SUPPORT. One lemma per field per update of the state, and the register file's read-after-write laws.
-/

namespace Sys2Proof.Machine

/-! ### The register file -/

@[simp] theorem RegFile.get_set_same (x : RegFile) (r : Reg) (v : Word) : (x.set r v).get r = v := by
  cases r <;> rfl

theorem RegFile.get_set_ne (x : RegFile) {r q : Reg} (v : Word) (h : q ≠ r) : (x.set r v).get q = x.get q := by
  cases r <;> cases q <;> first | rfl | exact absurd rfl h

@[simp] theorem RegFile.get_ip (x : RegFile) : x.get .ip = x.ip := rfl
@[simp] theorem RegFile.get_cx (x : RegFile) : x.get .cx = x.cx := rfl

@[simp] theorem RegFile.set_ip_ip (x : RegFile) (v : Word) : (x.set .ip v).ip = v := rfl
@[simp] theorem RegFile.set_ip_cx (x : RegFile) (v : Word) : (x.set .ip v).cx = x.cx := rfl
@[simp] theorem RegFile.set_cx_ip (x : RegFile) (v : Word) : (x.set .cx v).ip = x.ip := rfl
@[simp] theorem RegFile.set_cx_cx (x : RegFile) (v : Word) : (x.set .cx v).cx = v := rfl

@[simp] theorem RegFile.set_ip_set_ip (x : RegFile) (v w : Word) : (x.set .ip v).set .ip w = x.set .ip w := rfl

/-- The pc is a slot of its own: writing another register leaves it. -/
theorem RegFile.set_ip_of_ne (x : RegFile) {r : Reg} (v : Word) (h : r ≠ .ip) : (x.set r v).ip = x.ip := by
  cases r <;> first | rfl | exact absurd rfl h

/-- Writing the pc leaves every other register. -/
theorem RegFile.get_set_ip (x : RegFile) {r : Reg} (v : Word) (h : r ≠ .ip) : (x.set .ip v).get r = x.get r :=
  RegFile.get_set_ne x v h

/-! ### `State.setIp` -/

@[simp] theorem State.setIp_regs (s : State) (v : Word) : (s.setIp v).regs = s.regs.set .ip v := rfl
@[simp] theorem State.setIp_flags (s : State) (v : Word) : (s.setIp v).flags = s.flags := rfl
@[simp] theorem State.setIp_mem (s : State) (v : Word) : (s.setIp v).mem = s.mem := rfl
@[simp] theorem State.setIp_code (s : State) (v : Word) : (s.setIp v).code = s.code := rfl
@[simp] theorem State.setIp_status (s : State) (v : Word) : (s.setIp v).status = s.status := rfl
@[simp] theorem State.setIp_opts (s : State) (v : Word) : (s.setIp v).opts = s.opts := rfl
@[simp] theorem State.setIp_emitted (s : State) (v : Word) : (s.setIp v).emitted = s.emitted := rfl

/-! ### `State.advance` -/

@[simp] theorem State.advance_regs (s : State) (n : Nat) :
    (s.advance n).regs = s.regs.set .ip (s.regs.ip + BitVec.ofNat 16 n) := rfl
@[simp] theorem State.advance_flags (s : State) (n : Nat) : (s.advance n).flags = s.flags := rfl
@[simp] theorem State.advance_mem (s : State) (n : Nat) : (s.advance n).mem = s.mem := rfl
@[simp] theorem State.advance_code (s : State) (n : Nat) : (s.advance n).code = s.code := rfl
@[simp] theorem State.advance_status (s : State) (n : Nat) : (s.advance n).status = s.status := rfl
@[simp] theorem State.advance_opts (s : State) (n : Nat) : (s.advance n).opts = s.opts := rfl
@[simp] theorem State.advance_emitted (s : State) (n : Nat) : (s.advance n).emitted = s.emitted := rfl

/-! ### `State.raise` and `State.halt` -/

@[simp] theorem State.raise_regs (s : State) (c : Fatal) : (s.raise c).regs = s.regs := rfl
@[simp] theorem State.raise_flags (s : State) (c : Fatal) : (s.raise c).flags = s.flags := rfl
@[simp] theorem State.raise_mem (s : State) (c : Fatal) : (s.raise c).mem = s.mem := rfl
@[simp] theorem State.raise_code (s : State) (c : Fatal) : (s.raise c).code = s.code := rfl
@[simp] theorem State.raise_status (s : State) (c : Fatal) : (s.raise c).status = .fault c := rfl
@[simp] theorem State.raise_opts (s : State) (c : Fatal) : (s.raise c).opts = s.opts := rfl
@[simp] theorem State.raise_emitted (s : State) (c : Fatal) : (s.raise c).emitted = s.emitted := rfl

@[simp] theorem State.halt_regs (s : State) : s.halt.regs = s.regs := rfl
@[simp] theorem State.halt_flags (s : State) : s.halt.flags = s.flags := rfl
@[simp] theorem State.halt_mem (s : State) : s.halt.mem = s.mem := rfl
@[simp] theorem State.halt_code (s : State) : s.halt.code = s.code := rfl
@[simp] theorem State.halt_status (s : State) : s.halt.status = .halted := rfl
@[simp] theorem State.halt_opts (s : State) : s.halt.opts = s.opts := rfl
@[simp] theorem State.halt_emitted (s : State) : s.halt.emitted = s.emitted := rfl

/-! ### `decrementCx` -/

@[simp] theorem decrementCx_regs (s : State) : (decrementCx s).regs = s.regs.set .cx (s.regs.cx - 1) := rfl
@[simp] theorem decrementCx_flags (s : State) : (decrementCx s).flags = s.flags := rfl
@[simp] theorem decrementCx_mem (s : State) : (decrementCx s).mem = s.mem := rfl
@[simp] theorem decrementCx_code (s : State) : (decrementCx s).code = s.code := rfl
@[simp] theorem decrementCx_status (s : State) : (decrementCx s).status = s.status := rfl
@[simp] theorem decrementCx_opts (s : State) : (decrementCx s).opts = s.opts := rfl
@[simp] theorem decrementCx_emitted (s : State) : (decrementCx s).emitted = s.emitted := rfl

/-! ### `jumpTo`

All that a jump does: only the pc changes. -/

theorem jumpTo_eq (cond : Bool) (disp : Byte) (s : State) :
    jumpTo cond disp s =
      s.setIp (if cond then s.regs.ip + BitVec.ofNat 16 jumpLength + sext16 disp
        else s.regs.ip + BitVec.ofNat 16 jumpLength) := by
  cases cond <;> rfl

@[simp] theorem jumpTo_flags (c : Bool) (d : Byte) (s : State) : (jumpTo c d s).flags = s.flags := by
  rw [jumpTo_eq]; rfl
@[simp] theorem jumpTo_mem (c : Bool) (d : Byte) (s : State) : (jumpTo c d s).mem = s.mem := by
  rw [jumpTo_eq]; rfl
@[simp] theorem jumpTo_code (c : Bool) (d : Byte) (s : State) : (jumpTo c d s).code = s.code := by
  rw [jumpTo_eq]; rfl
@[simp] theorem jumpTo_status (c : Bool) (d : Byte) (s : State) : (jumpTo c d s).status = s.status := by
  rw [jumpTo_eq]; rfl
@[simp] theorem jumpTo_opts (c : Bool) (d : Byte) (s : State) : (jumpTo c d s).opts = s.opts := by
  rw [jumpTo_eq]; rfl
@[simp] theorem jumpTo_emitted (c : Bool) (d : Byte) (s : State) : (jumpTo c d s).emitted = s.emitted := by
  rw [jumpTo_eq]; rfl

/-! ### `retire` -/

@[simp] theorem retire_regs (i : Instr) (d : Option Loc) (s t : State) : (retire i d s t).regs = t.regs := by
  unfold retire; split <;> rfl
@[simp] theorem retire_flags (i : Instr) (d : Option Loc) (s t : State) : (retire i d s t).flags = t.flags := by
  unfold retire; split <;> rfl
@[simp] theorem retire_mem (i : Instr) (d : Option Loc) (s t : State) : (retire i d s t).mem = t.mem := by
  unfold retire; split <;> rfl
@[simp] theorem retire_code (i : Instr) (d : Option Loc) (s t : State) : (retire i d s t).code = t.code := by
  unfold retire; split <;> rfl
@[simp] theorem retire_status (i : Instr) (d : Option Loc) (s t : State) : (retire i d s t).status = t.status := by
  unfold retire; split <;> rfl
@[simp] theorem retire_opts (i : Instr) (d : Option Loc) (s t : State) : (retire i d s t).opts = t.opts := by
  unfold retire; split <;> rfl

/-- A step that ends running or halted emits one record. -/
theorem retire_emitted_of_not_fault (i : Instr) (d : Option Loc) (s t : State)
    (h : ∀ c, t.status ≠ .fault c) :
    (retire i d s t).emitted = record i d s t :: t.emitted := by
  unfold retire
  split
  · exact absurd ‹_› (h _)
  · rfl

/-- A fatal condition emits none (R235). -/
theorem retire_of_fault (i : Instr) (d : Option Loc) (s t : State) (c : Fatal) (h : t.status = .fault c) :
    retire i d s t = t := by
  unfold retire; rw [h]

/-! ### Reset -/

/-- `State.reset` is the reset of R280 with no code, default memory and default options. -/
theorem resetWith_default : State.resetWith [] [] Options.default = State.reset := rfl

@[simp] theorem resetWith_regs (code : List Byte) (m : Memory) (o : Options) :
    (State.resetWith code m o).regs = RegFile.zero := rfl
@[simp] theorem resetWith_flags (code : List Byte) (m : Memory) (o : Options) :
    (State.resetWith code m o).flags = 0 := rfl
@[simp] theorem resetWith_mem (code : List Byte) (m : Memory) (o : Options) :
    (State.resetWith code m o).mem = m := rfl
@[simp] theorem resetWith_code (code : List Byte) (m : Memory) (o : Options) :
    (State.resetWith code m o).code = code := rfl
@[simp] theorem resetWith_opts (code : List Byte) (m : Memory) (o : Options) :
    (State.resetWith code m o).opts = o := rfl
@[simp] theorem resetWith_emitted (code : List Byte) (m : Memory) (o : Options) :
    (State.resetWith code m o).emitted = [] := rfl

end Sys2Proof.Machine
end

