-- ==== Sys2Proof/Laws/Operands.lean ====
section
/-!
SUPPORT. What reading and writing through a descriptor can do: when it succeeds, that the pc advance does not change it,
what a read gives after a write, and what a write leaves unchanged.
-/

namespace Sys2Proof.Machine

/-! ### Byte order -/

theorem wordOf_getLsbD (hi lo : Byte) (i : Nat) :
    (wordOf hi lo).getLsbD i = if i < 8 then lo.getLsbD i else hi.getLsbD (i - 8) :=
  BitVec.getLsbD_append

theorem lowByte_getLsbD (v : Word) (i : Nat) : (lowByte v).getLsbD i = (decide (i < 8) && v.getLsbD i) := by
  simp [lowByte]

theorem highByte_getLsbD (v : Word) (i : Nat) : (highByte v).getLsbD i = (decide (i < 8) && v.getLsbD (8 + i)) := by
  simp [highByte]

@[simp] theorem lowByte_wordOf (hi lo : Byte) : lowByte (wordOf hi lo) = lo := by
  refine BitVec.eq_of_getLsbD_eq fun i h => ?_
  rw [lowByte_getLsbD, wordOf_getLsbD, if_pos h, decide_eq_true h, Bool.true_and]

@[simp] theorem highByte_wordOf (hi lo : Byte) : highByte (wordOf hi lo) = hi := by
  refine BitVec.eq_of_getLsbD_eq fun i h => ?_
  rw [highByte_getLsbD, wordOf_getLsbD, if_neg (by omega), decide_eq_true h, Bool.true_and, Nat.add_sub_cancel_left]

@[simp] theorem wordOf_high_low (v : Word) : wordOf (highByte v) (lowByte v) = v := by
  refine BitVec.eq_of_getLsbD_eq fun i hi => ?_
  rw [wordOf_getLsbD, lowByte_getLsbD, highByte_getLsbD]
  split_ifs with h
  · simp [h]
  · rw [show 8 + (i - 8) = i by omega, decide_eq_true (show i - 8 < 8 by omega), Bool.true_and]

/-- What an access of this width keeps of a 16-bit value. -/
def narrow (w : Width) (v : Word) : Word :=
  match w with
  | .byte => zext16 (lowByte v)
  | .word => v

@[simp] theorem lowByte_zext16 (b : Byte) : lowByte (zext16 b) = b := by
  refine BitVec.eq_of_getLsbD_eq fun i h => ?_
  have : i < 16 := by omega
  simp [lowByte, zext16, h, this]

@[simp] theorem narrow_narrow (w : Width) (v : Word) : narrow w (narrow w v) = narrow w v := by
  cases w <;> simp [narrow]

/-! ### Registers (R22, R23) -/

@[simp] theorem regWrite_fst (x : RegFile) (w : Width) (r : Reg) (h : Bool) (v : Word) :
    (regWrite x w r h v).1 = x.get r := rfl
@[simp] theorem regWrite_snd (x : RegFile) (w : Width) (r : Reg) (h : Bool) (v : Word) :
    (regWrite x w r h v).2 = setReg x w r h v := rfl

theorem regRead_setReg_same (x : RegFile) (w : Width) (r : Reg) (h : Bool) (v : Word) :
    regRead (setReg x w r h v) w r h = narrow w v := by
  cases w <;> cases h <;> simp [regRead, setReg, narrow]

theorem setReg_get_ne (x : RegFile) (w : Width) {r q : Reg} (h : Bool) (v : Word) (hq : q ≠ r) :
    (setReg x w r h v).get q = x.get q := by
  cases w <;> cases h <;> simp [setReg, RegFile.get_set_ne _ _ hq]

/-- A byte write keeps the other half of the parent word. -/
theorem setReg_otherHalf (x : RegFile) (r : Reg) (h : Bool) (v : Word) :
    otherHalf h ((setReg x .byte r h v).get r) = otherHalf h (x.get r) := by
  cases h <;> simp [setReg, otherHalf]

theorem regRead_narrow (x : RegFile) (w : Width) (r : Reg) (h : Bool) :
    narrow w (regRead x w r h) = regRead x w r h := by
  cases w <;> simp [regRead, narrow]

theorem regRead_setIp (x : RegFile) (w : Width) {r : Reg} (h : Bool) (v : Word) (hr : r ≠ .ip) :
    regRead (x.set .ip v) w r h = regRead x w r h := by
  cases w <;> simp [regRead, RegFile.get_set_ip _ _ hr]

theorem setReg_ip (x : RegFile) (w : Width) {r : Reg} (h : Bool) (v : Word) (hr : r ≠ .ip) :
    (setReg x w r h v).ip = x.ip := by
  cases w <;> cases h <;> simp [setReg, RegFile.set_ip_of_ne _ _ hr]

/-! ### Descriptors never name the pc (R24) -/

/-- The descriptor does not read or write IP. -/
def locNoIp : Loc → Prop
  | .reg _ r _ => r ≠ .ip
  | .mem _ (.direct _) => True
  | .mem _ (.indirect base index _) => base ≠ .ip ∧ index ≠ some .ip

def operandNoIp : Operand → Prop
  | .loc l => locNoIp l
  | .imm _ _ => True

theorem gregLoc_noIp (r : GReg) : locNoIp (gregLoc r) := by cases r <;> simp [gregLoc, gregSlot, locNoIp]

theorem segLoc_noIp (sr : SegReg) : locNoIp (segLoc sr) := by cases sr <;> simp [segLoc, segSlot, locNoIp]

theorem rmLoc_noIp (w : Width) (rm : RM) : locNoIp (rmLoc w rm) := by
  cases rm with
  | reg r => exact gregLoc_noIp r
  | mem m =>
    cases m with
    | direct a => trivial
    | indirect p d => cases p <;> simp [rmLoc, memRef, pairRegs, locNoIp]

theorem accLoc_noIp (w : Width) : locNoIp (accLoc w) := gregLoc_noIp _

theorem accMemLoc_noIp (w : Width) (a : AccAddr) : locNoIp (accMemLoc w a) := trivial

theorem rmRegDst_noIp (d : Dir) (reg : GReg) (rm : RM) : locNoIp (rmRegDst d reg rm) := by
  cases d
  · exact rmLoc_noIp _ _
  · exact gregLoc_noIp _

theorem rmRegSrc_noIp (d : Dir) (reg : GReg) (rm : RM) : locNoIp (rmRegSrc d reg rm) := by
  cases d
  · exact gregLoc_noIp _
  · exact rmLoc_noIp _ _

theorem immOperand_noIp (i : Imm) : operandNoIp (immOperand i) := by cases i <;> trivial

theorem arithImmOperand_noIp (i : ArithImm) : operandNoIp (arithImmOperand i) := by cases i <;> trivial

/-! ### The pc advance does not change an access -/

theorem addressSum_setIp (x : RegFile) (v : Word) {b : Reg} {i : Option Reg} (hb : b ≠ .ip) (hi : i ≠ some .ip)
    (d : Word) : addressSum (x.set .ip v) b i d = addressSum x b i d := by
  unfold addressSum
  rw [RegFile.get_set_ip _ _ hb]
  cases i with
  | none => rfl
  | some r => simp only; rw [RegFile.get_set_ip _ _ (by simpa using hi)]

theorem effectiveAddress_setIp (mode : EaMode) (x : RegFile) (v : Word) {w : Width} {m : MemRef}
    (h : locNoIp (.mem w m)) : effectiveAddress mode (x.set .ip v) m = effectiveAddress mode x m := by
  cases m with
  | direct a => rfl
  | indirect b i d => simp only [effectiveAddress, addressSum_setIp x v h.1 h.2]

theorem readLoc_advance (s : State) (n : Nat) {l : Loc} (h : locNoIp l) : readLoc (s.advance n) l = readLoc s l := by
  cases l with
  | reg w r hi => simp only [readLoc, State.advance_regs, regRead_setIp _ _ _ _ h]
  | mem w m =>
    simp only [readLoc, State.advance_regs, State.advance_opts, State.advance_mem,
      effectiveAddress_setIp _ _ _ h]

theorem readOperand_advance (s : State) (n : Nat) {o : Operand} (h : operandNoIp o) :
    readOperand (s.advance n) o = readOperand s o := by
  cases o with
  | loc l => exact readLoc_advance s n h
  | imm w v => rfl

theorem exactAddress_setIp (x : RegFile) (v : Word) {w : Width} {m : MemRef} (h : locNoIp (.mem w m)) :
    exactAddress (x.set .ip v) m = exactAddress x m := by
  cases m with
  | direct a => rfl
  | indirect b i d => exact addressSum_setIp x v h.1 h.2 d

theorem accessible_advance (s : State) (n : Nat) {l : Loc} (h : locNoIp l) :
    accessible (s.advance n) l ↔ accessible s l := by
  cases l with
  | reg w r hi => exact Iff.rfl
  | mem w m => simp only [accessible, State.advance_regs, State.advance_opts, exactAddress_setIp _ _ h]

theorem storedBytes_advance (s : State) (n : Nat) {l : Loc} (h : locNoIp l) :
    storedBytes (s.advance n) (some l) = storedBytes s (some l) := by
  cases l with
  | reg w r hi => rfl
  | mem w m =>
    simp only [storedBytes, State.advance_regs, State.advance_opts, effectiveAddress_setIp _ _ _ h]

/-! ### When an access succeeds -/

theorem effectiveAddress_eq (mode : EaMode) (x : RegFile) (m : MemRef)
    (h : mode = .wrap16 ∨ (0 ≤ exactAddress x m ∧ exactAddress x m ≤ 65535)) :
    effectiveAddress mode x m = .ok (BitVec.ofInt 16 (exactAddress x m)) := by
  cases m with
  | direct a => simp [effectiveAddress, exactAddress]
  | indirect b i d =>
    cases mode with
    | wrap16 => rfl
    | faultOnOverflow =>
      simp only [reduceCtorEq, false_or, exactAddress] at h
      simp only [effectiveAddress, exactAddress, if_pos h]

/-- An accessible memory operand has an effective address, and a word there is in bounds. -/
theorem address_of_accessible {s : State} {w : Width} {m : MemRef} (h : accessible s (.mem w m)) :
    effectiveAddress s.opts.eaMode s.regs m = .ok (BitVec.ofInt 16 (exactAddress s.regs m)) ∧
      (w = .word → wordInBounds s.opts.eaMode (BitVec.ofInt 16 (exactAddress s.regs m)) = true) := by
  rcases h with h | ⟨h0, h1⟩
  · exact ⟨effectiveAddress_eq _ _ _ (.inl h), fun _ => by simp [wordInBounds, h]⟩
  · have hb : (1 : Int) ≤ widthBytes w := by cases w <;> decide
    have hs : (Config.memSize : Int) = 65536 := rfl
    refine ⟨effectiveAddress_eq _ _ _ (.inr ⟨h0, by omega⟩), fun hw => ?_⟩
    subst hw
    have h2 : (widthBytes .word : Int) = 2 := rfl
    have hne : BitVec.ofInt 16 (exactAddress s.regs m) ≠ 0xFFFF := by
      intro hc
      have := congrArg BitVec.toNat hc
      rw [BitVec.toNat_ofInt] at this
      have h3 : (0xFFFF : Word).toNat = 65535 := rfl
      rw [h3] at this
      norm_num at this
      omega
    unfold wordInBounds
    rw [beq_eq_false_iff_ne.2 hne, Bool.and_false, Bool.not_false]

theorem memRead_of_inBounds {mode : EaMode} (m : Memory) {a : Word} {w : Width}
    (h : w = .word → wordInBounds mode a = true) : ∃ v, memRead mode m a w = .ok v := by
  cases w with
  | byte => exact ⟨_, rfl⟩
  | word => exact ⟨_, by simp only [memRead, h rfl, if_true]; rfl⟩

theorem readLoc_of_accessible {s : State} {l : Loc} (h : accessible s l) : ∃ v, readLoc s l = .ok v := by
  cases l with
  | reg w r hi => exact ⟨_, rfl⟩
  | mem w m =>
    obtain ⟨ha, hb⟩ := address_of_accessible h
    obtain ⟨v, hv⟩ := memRead_of_inBounds s.mem hb
    exact ⟨v, by simp only [readLoc, ha, hv]⟩

theorem readOperand_of_accessible {s : State} {o : Operand} (h : operandAccessible s o) :
    ∃ v, readOperand s o = .ok v := by
  cases o with
  | loc l => exact readLoc_of_accessible h
  | imm w v => exact ⟨v, rfl⟩

theorem writeLoc_of_accessible {s : State} {l : Loc} (h : accessible s l) (v : Word) : ∃ t, writeLoc s l v = .ok t := by
  cases l with
  | reg w r hi => exact ⟨_, rfl⟩
  | mem w m =>
    obtain ⟨ha, hb⟩ := address_of_accessible h
    obtain ⟨old, ho⟩ := memRead_of_inBounds s.mem hb
    exact ⟨_, by simp only [writeLoc, ha, memWrite_ok_iff.2 ⟨ho, rfl⟩]; rfl⟩

/-! ### All that an access can do -/

/-- A read gives a value of the location's width. -/
theorem readLoc_narrow {s : State} {l : Loc} {v : Word} (h : readLoc s l = .ok v) : narrow (locWidth l) v = v := by
  cases l with
  | reg w r hi =>
    simp only [readLoc, Except.ok.injEq] at h
    subst h
    exact regRead_narrow ..
  | mem w m =>
    simp only [readLoc] at h
    split at h
    · cases h
    · cases w with
      | byte =>
        simp only [memRead, Except.ok.injEq] at h
        subst h
        simp [narrow, locWidth]
      | word => rfl

/-- A write changes only registers (at a register) or only memory (at a memory operand). -/
theorem writeLoc_cases {s t : State} {l : Loc} {v : Word} (h : writeLoc s l v = .ok t) :
    (∃ w r hi, l = .reg w r hi ∧ t = { s with regs := setReg s.regs w r hi v }) ∨
      (∃ w m a old mem, l = .mem w m ∧ effectiveAddress s.opts.eaMode s.regs m = .ok a ∧
        memWrite s.opts.eaMode s.mem a v w = .ok (old, mem) ∧ t = { s with mem := mem }) := by
  cases l with
  | reg w r hi => exact .inl ⟨w, r, hi, rfl, by simpa [writeLoc] using h.symm⟩
  | mem w m =>
    simp only [writeLoc] at h
    split at h
    · cases h
    · split at h
      · cases h
      · exact .inr ⟨w, m, _, _, _, rfl, ‹_›, ‹_›, by simpa using h.symm⟩

theorem word_succ_toNat_ne (a : Word) : (a + 1).toNat ≠ a.toNat := by
  rw [BitVec.toNat_add]
  have := a.isLt
  rw [show (1 : Word).toNat = 1 from rfl]
  omega

/-- `MemWrite` then `MemRead` at the same address and width (R50, R51). -/
theorem memRead_memWrite {mode : EaMode} {m m' : Memory} (hm : m.wf = true) {a v old : Word} {w : Width}
    (h : memWrite mode m a v w = .ok (old, m')) : memRead mode m' a w = .ok (narrow w v) := by
  obtain ⟨ho, rfl⟩ := memWrite_ok_iff.1 h
  cases w with
  | byte => simp only [storeBytes, memRead, Memory.read_write_same hm, narrow]
  | word =>
    simp only [memRead] at ho
    split at ho
    · rename_i hb
      have h1 := Memory.write_wf hm (Word.toNat_lt_memSize a) (lowByte v)
      simp only [storeBytes, memRead, hb, if_true, Memory.read_write_same h1,
        Memory.read_write_ne h1 _ (word_succ_toNat_ne a).symm, Memory.read_write_same hm, wordOf_high_low, narrow]
    · cases ho

/-- `MemWrite` leaves every byte outside the written ones (R51). -/
theorem memWrite_read_ne {mode : EaMode} {m m' : Memory} (hm : m.wf = true) {a v old : Word} {w : Width}
    (h : memWrite mode m a v w = .ok (old, m')) {b : Nat} (hb : b ≠ a.toNat) (hb1 : w = .word → b ≠ (a + 1).toNat) :
    m'.read b = m.read b := by
  obtain ⟨-, rfl⟩ := memWrite_ok_iff.1 h
  cases w with
  | byte => exact Memory.read_write_ne hm _ hb
  | word =>
    rw [storeBytes, Memory.read_write_ne (Memory.write_wf hm (Word.toNat_lt_memSize a) _) _ (hb1 rfl),
      Memory.read_write_ne hm _ hb]

/-- Reading back what was written (R97). -/
theorem readLoc_writeLoc {s t : State} {l : Loc} {v : Word} (hm : s.mem.wf = true) (h : writeLoc s l v = .ok t) :
    readLoc t l = .ok (narrow (locWidth l) v) := by
  rcases writeLoc_cases h with ⟨w, r, hi, rfl, rfl⟩ | ⟨w, m, a, old, mem, rfl, ha, hw, rfl⟩
  · simp only [readLoc, regRead_setReg_same, locWidth]
  · simp only [readLoc, ha, memRead_memWrite hm hw, locWidth]

/-- What the record of a step holds of a memory write: the value `MemWrite` returned, and the value stored (R51, R241). -/
theorem storeOf_writeLoc {s t : State} {w : Width} {m : MemRef} {v : Word} (hm : s.mem.wf = true)
    (h : writeLoc s (.mem w m) v = .ok t) :
    ∃ a old, effectiveAddress s.opts.eaMode s.regs m = .ok a ∧
      memWrite s.opts.eaMode s.mem a v w = .ok (old, t.mem) ∧
      storeOf (some (.mem w m)) s t = some { addr := a, width := w, old := old, new := narrow w v } := by
  rcases writeLoc_cases h with ⟨_, _, _, hl, -⟩ | ⟨w', m', a, old, mem, hl, ha, hw, rfl⟩
  · cases hl
  · cases hl
    exact ⟨a, old, ha, hw, by simp only [storeOf, ha, (memWrite_ok_iff.1 hw).1, memRead_memWrite hm hw]⟩

/-- A write through a descriptor keeps its frame (R23, R51). -/
theorem writeLoc_frame {s t : State} {l : Loc} {v : Word} (hm : s.mem.wf = true) (h : writeLoc s l v = .ok t) :
    Frame s t (some l) := by
  rcases writeLoc_cases h with ⟨w, r, hi, rfl, rfl⟩ | ⟨w, m, a, old, mem, rfl, ha, hw, rfl⟩
  · refine ⟨fun q _ hq => ?_, fun q hq hd => ?_, fun _ _ => rfl, rfl, rfl, rfl, rfl⟩
    · exact setReg_get_ne _ _ _ _ fun hqr => hq w hi (by rw [hqr])
    · obtain ⟨rfl, rfl, rfl⟩ : w = .byte ∧ r = q ∧ hi = hq := by simpa using hd
      exact setReg_otherHalf ..
  · refine ⟨fun _ _ _ => rfl, fun _ _ hd => by simp at hd, fun b hb => ?_, rfl, rfl, rfl, rfl⟩
    simp only [storedBytes, ha] at hb
    refine memWrite_read_ne hm hw ?_ fun hword => ?_
    · rintro rfl
      cases w <;> simp at hb
    · rintro rfl
      subst hword
      simp at hb

theorem writeLoc_flags {s t : State} {l : Loc} {v : Word} (h : writeLoc s l v = .ok t) : t.flags = s.flags := by
  rcases writeLoc_cases h with ⟨w, r, hi, rfl, rfl⟩ | ⟨w, m, a, old, mem, rfl, ha, hw, rfl⟩ <;> rfl

theorem writeLoc_ip {s t : State} {l : Loc} {v : Word} (hl : locNoIp l) (h : writeLoc s l v = .ok t) :
    t.regs.ip = s.regs.ip := by
  rcases writeLoc_cases h with ⟨w, r, hi, rfl, rfl⟩ | ⟨w, m, a, old, mem, rfl, ha, hw, rfl⟩
  · exact setReg_ip _ _ _ _ hl
  · rfl

theorem writeLoc_mem_wf {s t : State} {l : Loc} {v : Word} (hm : s.mem.wf = true) (h : writeLoc s l v = .ok t) :
    t.mem.wf = true := by
  rcases writeLoc_cases h with ⟨w, r, hi, rfl, rfl⟩ | ⟨w, m, a, old, mem, rfl, ha, hw, rfl⟩
  · exact hm
  · exact memWrite_wf hm hw

end Sys2Proof.Machine
end

