-- ==== Sys2Proof/Laws/Decode.lean ====
section
/-!
SUPPORT. What each reader of the decoder does on the bytes the encoder writes, the code tables read both ways, and all that
a reader can do on any bytes (`decode_reads`).
-/

namespace Sys2Proof

open Sys2Proof.Machine

/-! ### The cursor -/

@[simp] theorem Cursor.byte_cons (k : Nat) (b : Byte) (rest : List Byte) :
    Cursor.byte { index := k, rest := b :: rest } = .ok (b, { index := k + 1, rest := rest }) := rfl

@[simp] theorem Cursor.byte_nil (k : Nat) :
    Cursor.byte { index := k, rest := [] } = .error (.truncatedInput (BitVec.ofNat 16 k)) := rfl

@[simp] theorem Cursor.word_cons_cons (k : Nat) (lo hi : Byte) (rest : List Byte) :
    Cursor.word { index := k, rest := lo :: hi :: rest } =
      .ok (wordOf hi lo, { index := k + 2, rest := rest }) := rfl

@[simp] theorem Cursor.word_single (k : Nat) (lo : Byte) :
    Cursor.word { index := k, rest := [lo] } = .error (.truncatedInput (BitVec.ofNat 16 (k + 1))) := rfl

@[simp] theorem Cursor.word_nil (k : Nat) :
    Cursor.word { index := k, rest := [] } = .error (.truncatedInput (BitVec.ofNat 16 k)) := rfl

/-- A two-byte field read back (R99). -/
@[simp] theorem Cursor.word_wordBytes (k : Nat) (v : Word) (rest : List Byte) :
    Cursor.word { index := k, rest := wordBytes v ++ rest } = .ok (v, { index := k + 2, rest := rest }) := by
  simp [wordBytes]

/-! ### Code tables -/

@[simp] theorem GReg.ofCode_code (r : GReg) : GReg.ofCode r.width r.code = r := by cases r <;> rfl

theorem GReg.ofCode_code_of_width {r : GReg} {w : Width} (h : r.width = w) : GReg.ofCode w r.code = r := by
  subst h; exact GReg.ofCode_code r

theorem GReg.width_ofCode (w : Width) (c : BitVec 3) : (GReg.ofCode w c).width = w := by
  cases w
  · revert c; decide
  · revert c; decide

@[simp] theorem SegReg.ofCode_code (r : SegReg) : SegReg.ofCode r.code = r := by cases r <;> rfl

@[simp] theorem Pair.ofCode_code (p : Pair) : Pair.ofCode p.code = p := by cases p <;> rfl

/-! ### The ModRM byte -/

/-- The three fields of R87 read back from the byte that holds them. -/
theorem ModRM.ofByte_append (m : BitVec 2) (r : BitVec 3) (b : BitVec 3) :
    ModRM.ofByte (m ++ r ++ b : BitVec 8) = { mod := m, reg := r, rm := b } := by
  revert m r b; decide

/-! ### The resolver and the immediates -/

/-- The resolver reads back a well-formed operand and its displacement bytes (R91 to R96). -/
theorem resolve_encoded {w : Width} {rm : RM} (h : rm.wf w = true) (k : Nat) (rest : List Byte) :
    resolve { index := k, rest := rm.dispBytes ++ rest } rm.modBits rm.rmBits w =
      .ok (rm, { index := k + rm.dlen, rest := rest }) := by
  rcases rm with r | (a | ⟨p, d⟩)
  · have hr : r.width = w := by simpa [RM.wf] using h
    simp only [RM.modBits, RM.rmBits, RM.dispBytes, RM.dlen, List.nil_append, Nat.add_zero]
    show Except.ok (RM.reg (GReg.ofCode w r.code), _) = _
    rw [GReg.ofCode_code_of_width hr]
  · simp only [RM.modBits, RM.rmBits, RM.dispBytes, RM.dlen]
    show (do
      let (addr, c) ← Cursor.word { index := k, rest := wordBytes a ++ rest }
      return (RM.mem (.direct addr), c) : Except Fatal (RM × Cursor)) = _
    rw [Cursor.word_wordBytes]
    rfl
  · cases d with
    | none => cases p <;> first | rfl | (simp [RM.wf, MemOperand.wf] at h)
    | d8 v => cases p <;> rfl
    | d16 v =>
      simp only [RM.modBits, RM.rmBits, RM.dispBytes, RM.dlen, Disp.length]
      show (do
        let (d, c) ← Cursor.word { index := k, rest := wordBytes v ++ rest }
        return (RM.mem (.indirect (Pair.ofCode p.code) (.d16 d)), c) : Except Fatal (RM × Cursor)) = _
      rw [Cursor.word_wordBytes, Pair.ofCode_code]
      rfl

/-- `ImmW` reads back its data (R100). -/
theorem immW_encoded (imm : Imm) (k : Nat) (rest : List Byte) :
    immW { index := k, rest := imm.bytes ++ rest } imm.width =
      .ok (imm, { index := k + imm.length, rest := rest }) := by
  cases imm with
  | byte v => rfl
  | word v =>
    simp only [immW, Imm.bytes, Imm.width, Imm.length, Cursor.word_wordBytes]
    rfl

/-- The S bit of an ARITHIMM first byte (R85). -/
def ArithImm.sBit : ArithImm → Bool
  | .sext _ => true
  | _ => false

/-- `ImmSW` reads back its data (R85, R100). -/
theorem immSW_encoded (imm : ArithImm) (k : Nat) (rest : List Byte) :
    immSW { index := k, rest := imm.bytes ++ rest } imm.sBit imm.width =
      .ok (imm, { index := k + imm.length, rest := rest }) := by
  cases imm with
  | byte v => rfl
  | sext v => rfl
  | word v =>
    simp only [immSW, ArithImm.bytes, ArithImm.width, ArithImm.length, ArithImm.sBit, Cursor.word_wordBytes]
    rfl

/-- `AccAddr` reads back an address of the size its mode gives (R101). -/
theorem accAddr_encoded {mode : AccAddrMode} {w : Width} {a : AccAddr} (h : a.wf mode w = true) (k : Nat)
    (rest : List Byte) :
    accAddr mode { index := k, rest := a.bytes ++ rest } w =
      .ok (a, { index := k + a.length, rest := rest }) := by
  cases a with
  | a8 v =>
    obtain ⟨rfl, rfl⟩ : mode = .byW ∧ w = .byte := by simpa [AccAddr.wf] using h
    rfl
  | a16 v =>
    cases mode <;> cases w <;>
      first
        | (simp [AccAddr.wf] at h; done)
        | (simp only [accAddr, AccAddr.bytes, AccAddr.length, Cursor.word_wordBytes]; rfl)

/-! ### The lookup -/

/-- The family of each of the four RMREG keys, whatever D and W. -/
theorem lookup_rmReg (d : Dir) (w : Width) :
    lookup (0b100010#6 ++ d.bit ++ w.bit : BitVec 8) = some .movRmReg ∧
      lookup (0b000000#6 ++ d.bit ++ w.bit : BitVec 8) = some .addRmReg ∧
      lookup (0b001010#6 ++ d.bit ++ w.bit : BitVec 8) = some .subRmReg ∧
      lookup (0b001110#6 ++ d.bit ++ w.bit : BitVec 8) = some .cmpRmReg := by
  cases d <;> cases w <;> decide

/-- The D and W bits of an RMREG first byte (R82). -/
theorem rmReg_bits (key : BitVec 6) (d : Dir) (w : Width) :
    Width.ofBit ((key ++ d.bit ++ w.bit : BitVec 8).getLsbD 0) = w ∧
      Dir.ofBit ((key ++ d.bit ++ w.bit : BitVec 8).getLsbD 1) = d := by
  cases d <;> cases w <;> (revert key; decide)

/-! ### All that a reader of the code store can do -/

/-- What a reader of bytes can do from cursor `c`: deliver a value that meets `P`, with the cursor moved past exactly
`len` of the remaining bytes; or F4 at the end of the store; or F1 or F2; never another fatal condition. -/
def Reads {α : Type} (c : Cursor) (len : α → Nat) (P : α → Prop) : Except Fatal (α × Cursor) → Prop
  | .ok (a, c') =>
    P a ∧ len a ≤ c.rest.length ∧ c' = { index := c.index + len a, rest := c.rest.drop (len a) }
  | .error (.truncatedInput x) => x = BitVec.ofNat 16 (c.index + c.rest.length)
  | .error (.unrecognizedOpcode _) => True
  | .error (.unsupportedExtension _) => True
  | .error _ => False

theorem Reads.pure {α : Type} {c : Cursor} {len : α → Nat} {P : α → Prop} {a : α} (hp : P a) (h : len a = 0) :
    Reads c len P (.ok (a, c)) := by
  simp [Reads, hp, h]

/-- One reader after another: the lengths add up. -/
theorem Reads.bind {α β : Type} {c : Cursor} {la : α → Nat} {lb : β → Nat} {P : α → Prop} {Q : β → Prop}
    {x : Except Fatal (α × Cursor)} {f : α × Cursor → Except Fatal (β × Cursor)} (hx : Reads c la P x)
    (hf : ∀ a c', P a → Reads c' (fun b => lb b - la a) (fun b => Q b ∧ la a ≤ lb b) (f (a, c'))) :
    Reads c lb Q (x.bind f) := by
  rcases x with e | ⟨a, c'⟩
  · cases e <;> simp_all [Reads, Except.bind]
  · obtain ⟨h1, h2, rfl⟩ := hx
    have h3 := hf a { index := c.index + la a, rest := c.rest.drop (la a) } h1
    simp only [Except.bind]
    revert h3
    rcases f (a, _) with e | ⟨b, c''⟩
    · cases e <;> simp [Reads]
      rintro rfl
      congr 1
      omega
    · simp only [Reads]
      rintro ⟨⟨h3, h4⟩, h5, rfl⟩
      rw [List.length_drop] at h5
      refine ⟨h3, by omega, ?_⟩
      rw [List.drop_drop, show la a + (lb b - la a) = lb b by omega,
        show c.index + la a + (lb b - la a) = c.index + lb b by omega]

theorem Cursor.byte_reads (c : Cursor) : Reads c (fun _ => 1) (fun _ => True) c.byte := by
  rcases c with ⟨k, _ | ⟨a, r⟩⟩ <;> simp [Cursor.byte, Reads]

theorem Cursor.word_reads (c : Cursor) : Reads c (fun _ => 2) (fun _ => True) c.word := by
  refine Reads.bind (Cursor.byte_reads c) fun lo c1 _ => ?_
  exact Reads.bind (Cursor.byte_reads c1) fun hi c2 _ => Reads.pure (by simp) rfl

theorem Pair.wf_none {rm : BitVec 3} (h : rm ≠ 0b110) :
    MemOperand.wf (.indirect (Pair.ofCode rm) .none) = true := by
  revert rm; decide

theorem MemOperand.wf_d8 (p : Pair) (v : Byte) : MemOperand.wf (.indirect p (.d8 v)) = true := by cases p <;> rfl

theorem MemOperand.wf_d16 (p : Pair) (v : Word) : MemOperand.wf (.indirect p (.d16 v)) = true := by cases p <;> rfl

/-- The resolver names a well-formed operand and consumes its displacement bytes. -/
theorem resolve_reads (c : Cursor) (m : BitVec 2) (rm : BitVec 3) (w : Width) :
    Reads c RM.dlen (fun r => r.wf w = true) (resolve c m rm w) := by
  unfold resolve
  have hm : m.toNat < 4 := m.isLt
  generalize m.toNat = k at hm
  split
  · split
    · exact Reads.bind (Cursor.word_reads c) fun a c' _ => Reads.pure ⟨rfl, Nat.le_refl 2⟩ rfl
    · exact Reads.pure (Pair.wf_none ‹_›) rfl
  · exact Reads.bind (Cursor.byte_reads c) fun a c' _ => Reads.pure ⟨MemOperand.wf_d8 .., Nat.le_refl 1⟩ rfl
  · exact Reads.bind (Cursor.word_reads c) fun a c' _ => Reads.pure ⟨MemOperand.wf_d16 .., Nat.le_refl 2⟩ rfl
  · exact Reads.pure (by simp [RM.wf, GReg.width_ofCode]) rfl
  · rename_i n0 n1 n2 n3
    exact (show False by
      rcases (by omega : k = 0 ∨ k = 1 ∨ k = 2 ∨ k = 3) with h | h | h | h
      exacts [n0 h, n1 h, n2 h, n3 h]).elim

theorem immW_reads (c : Cursor) (w : Width) : Reads c Imm.length (fun i => i.width = w) (immW c w) := by
  cases w
  · exact Reads.bind (Cursor.byte_reads c) fun a c' _ => Reads.pure ⟨rfl, Nat.le_refl 1⟩ rfl
  · exact Reads.bind (Cursor.word_reads c) fun a c' _ => Reads.pure ⟨rfl, Nat.le_refl 2⟩ rfl

theorem immSW_reads (c : Cursor) (s : Bool) (w : Width) :
    Reads c ArithImm.length (fun i => i.width = w) (immSW c s w) := by
  cases w
  · exact Reads.bind (Cursor.byte_reads c) fun a c' _ => Reads.pure ⟨rfl, Nat.le_refl 1⟩ rfl
  · cases s
    · exact Reads.bind (Cursor.word_reads c) fun a c' _ => Reads.pure ⟨rfl, Nat.le_refl 2⟩ rfl
    · exact Reads.bind (Cursor.byte_reads c) fun a c' _ => Reads.pure ⟨rfl, Nat.le_refl 1⟩ rfl

theorem accAddr_reads (mode : AccAddrMode) (c : Cursor) (w : Width) :
    Reads c AccAddr.length (fun a => a.wf mode w = true) (accAddr mode c w) := by
  cases mode <;> cases w
  · exact Reads.bind (Cursor.byte_reads c) fun a c' _ => Reads.pure ⟨rfl, Nat.le_refl 1⟩ rfl
  all_goals exact Reads.bind (Cursor.word_reads c) fun a c' _ => Reads.pure ⟨rfl, Nat.le_refl 2⟩ rfl

/-- The extension field selects one of five operations or raises F2 (R107). -/
theorem extension_cases (field : BitVec 3) :
    extension field = .error (.unsupportedExtension field) ∨ extension field = .ok .addRmImm ∨
      extension field = .ok .adcRmImm ∨ extension field = .ok .sbbRmImm ∨ extension field = .ok .subRmImm ∨
      extension field = .ok .cmpRmImm := by
  unfold extension; split <;> simp

/-- `decode` delivers a well-formed instruction with the cursor moved past exactly its length, or raises F4 at the end of
the store, F1 or F2, and no other fatal condition (R105, R250). -/
theorem decode_reads (mode : AccAddrMode) (c : Cursor) :
    Reads c Instr.length (fun i => i.wf mode = true) (decode mode c) := by
  unfold decode
  refine Reads.bind (Cursor.byte_reads c) fun b0 c' _ => ?_
  dsimp only
  have rmReg : ∀ make : Dir → GReg → RM → Instr,
      (∀ d reg rm, (make d reg rm).length = 2 + rm.dlen) →
      (∀ d reg rm, (make d reg rm).wf mode = rm.wf reg.width) →
      Reads c' (fun i => i.length - 1) (fun i => i.wf mode = true ∧ 1 ≤ i.length) (decodeRmReg make b0 c') := by
    intro make hl hw
    refine Reads.bind (Cursor.byte_reads c') fun b1 c1 _ => ?_
    refine Reads.bind (resolve_reads _ _ _ _) fun rm c2 h => Reads.pure ⟨⟨⟨?_, ?_⟩, ?_⟩, ?_⟩ ?_
    · rw [hw, GReg.width_ofCode]; exact h
    all_goals rw [hl]; omega
  have accMem : ∀ make : Width → AccAddr → Instr,
      (∀ w a, (make w a).length = 1 + a.length) → (∀ w a, (make w a).wf mode = a.wf mode w) →
      Reads c' (fun i => i.length - 1) (fun i => i.wf mode = true ∧ 1 ≤ i.length) (decodeAccMem make mode b0 c') := by
    intro make hl hw
    refine Reads.bind (accAddr_reads _ _ _) fun a c2 h => Reads.pure ⟨⟨?_, ?_⟩, ?_⟩ ?_
    · rw [hw]; exact h
    all_goals rw [hl]; omega
  have accImm : ∀ make : Imm → Instr, (∀ i, (make i).length = 1 + i.length) → (∀ i, (make i).wf mode = true) →
      Reads c' (fun i => i.length - 1) (fun i => i.wf mode = true ∧ 1 ≤ i.length) (decodeAccImm make b0 c') := by
    intro make hl hw
    refine Reads.bind (immW_reads _ _) fun a c2 _ => Reads.pure ⟨⟨hw a, ?_⟩, ?_⟩ ?_
    all_goals rw [hl]; omega
  have seg : ∀ make : RM → SegReg → Instr, (∀ rm sr, (make rm sr).length = 2 + rm.dlen) →
      (∀ rm sr, (make rm sr).wf mode = rm.wf .word) →
      Reads c' (fun i => i.length - 1) (fun i => i.wf mode = true ∧ 1 ≤ i.length) (decodeSeg make c') := by
    intro make hl hw
    refine Reads.bind (Cursor.byte_reads c') fun b1 c1 _ => ?_
    refine Reads.bind (resolve_reads _ _ _ _) fun rm c2 h => Reads.pure ⟨⟨⟨?_, ?_⟩, ?_⟩, ?_⟩ ?_
    · rw [hw]; exact h
    all_goals rw [hl]; omega
  cases lookup b0 with
  | none => trivial
  | some f =>
    cases f with
    | movRmReg => exact rmReg _ (fun _ _ _ => rfl) (fun _ _ _ => rfl)
    | addRmReg => exact rmReg _ (fun _ _ _ => rfl) (fun _ _ _ => rfl)
    | subRmReg => exact rmReg _ (fun _ _ _ => rfl) (fun _ _ _ => rfl)
    | cmpRmReg => exact rmReg _ (fun _ _ _ => rfl) (fun _ _ _ => rfl)
    | movAccMem => exact accMem _ (fun _ _ => rfl) (fun _ _ => rfl)
    | movMemAcc => exact accMem _ (fun _ _ => rfl) (fun _ _ => rfl)
    | addAccImm => exact accImm _ (fun _ => rfl) (fun _ => rfl)
    | subAccImm => exact accImm _ (fun _ => rfl) (fun _ => rfl)
    | cmpAccImm => exact accImm _ (fun _ => rfl) (fun _ => rfl)
    | movRmSeg => exact seg _ (fun _ _ => rfl) (fun _ _ => rfl)
    | movSegRm => exact seg (fun rm sr => .movSegRm sr rm) (fun _ _ => rfl) (fun _ _ => rfl)
    | movRegImm =>
      refine Reads.bind (immW_reads _ _) fun imm c2 h => Reads.pure ⟨⟨?_, ?_⟩, ?_⟩ ?_
      · simp only [Instr.wf, GReg.width_ofCode, h, beq_self_eq_true]
      all_goals simp only [Instr.length]; omega
    | movRmImm =>
      refine Reads.bind (Cursor.byte_reads c') fun b1 c1 _ => ?_
      refine Reads.bind (resolve_reads _ _ _ _) fun rm c2 h => ?_
      refine Reads.bind (immW_reads _ _) fun imm c3 h' => Reads.pure ⟨⟨⟨⟨?_, ?_⟩, ?_⟩, ?_⟩, ?_⟩ ?_
      · rw [Instr.wf, h']; exact h
      all_goals simp only [Instr.length]; omega
    | arithImm =>
      refine Reads.bind (Cursor.byte_reads c') fun b1 c1 _ => ?_
      dsimp only
      rcases extension_cases (ModRM.ofByte b1).reg with h | h | h | h | h | h <;> rw [h]
      · trivial
      all_goals
        refine Reads.bind (resolve_reads _ _ _ _) fun rm c2 hr => ?_
        refine Reads.bind (immSW_reads _ _ _) fun imm c3 hi => Reads.pure ⟨⟨⟨⟨?_, ?_⟩, ?_⟩, ?_⟩, ?_⟩ ?_
        · rw [Instr.wf, hi]; exact hr
        all_goals simp only [Instr.length]; omega
    | jump j =>
      refine Reads.bind (Cursor.byte_reads c') fun b1 c1 _ => ?_
      cases j <;> exact Reads.pure ⟨⟨rfl, Nat.le_succ 1⟩, Nat.le_refl 1⟩ rfl

end Sys2Proof
end

