-- ==== Sys2Proof/Laws/Exec.lean ====
section
/-!
SUPPORT. What the shared meanings (`move`, `arith`, jumps, loops) and hence `exec` can do: one inversion lemma each, and
for `move` and `arith` the lemma that says when they complete and with what.
-/

namespace Sys2Proof.Machine

/-! ### The only error of an access -/

/-- `c` is F6 and the machine runs under `fault_on_overflow` (R258). -/
def isBounds (s : State) (c : Fatal) : Prop := (∃ a, c = .memBounds a) ∧ s.opts.eaMode = .faultOnOverflow

theorem wordInBounds_false {mode : EaMode} {a : Word} (h : wordInBounds mode a ≠ true) : mode = .faultOnOverflow := by
  cases mode
  · exact absurd rfl h
  · rfl

theorem effectiveAddress_error {mode : EaMode} {x : RegFile} {m : MemRef} {c : Fatal}
    (h : effectiveAddress mode x m = .error c) : (∃ a, c = .memBounds a) ∧ mode = .faultOnOverflow := by
  cases m with
  | direct a => cases h
  | indirect b i d =>
    cases mode with
    | wrap16 => cases h
    | faultOnOverflow =>
      simp only [effectiveAddress] at h
      split at h
      · cases h
      · exact ⟨⟨_, by simpa using h.symm⟩, rfl⟩

theorem memRead_error {mode : EaMode} {m : Memory} {a : Word} {w : Width} {c : Fatal}
    (h : memRead mode m a w = .error c) : (∃ b, c = .memBounds b) ∧ mode = .faultOnOverflow := by
  cases w with
  | byte => cases h
  | word =>
    simp only [memRead] at h
    split at h
    · cases h
    · exact ⟨⟨_, by simpa using h.symm⟩, wordInBounds_false ‹_›⟩

theorem readLoc_error {s : State} {l : Loc} {c : Fatal} (h : readLoc s l = .error c) : isBounds s c := by
  cases l with
  | reg w r hi => cases h
  | mem w m =>
    simp only [readLoc] at h
    split at h
    · simp only [Except.error.injEq] at h
      subst h
      exact effectiveAddress_error ‹_›
    · exact memRead_error h

theorem readOperand_error {s : State} {o : Operand} {c : Fatal} (h : readOperand s o = .error c) : isBounds s c := by
  cases o with
  | loc l => exact readLoc_error h
  | imm w v => cases h

theorem writeLoc_error {s : State} {l : Loc} {v : Word} {c : Fatal} (h : writeLoc s l v = .error c) :
    isBounds s c := by
  cases l with
  | reg w r hi => cases h
  | mem w m =>
    simp only [writeLoc] at h
    split at h
    · simp only [Except.error.injEq] at h
      subst h
      exact effectiveAddress_error ‹_›
    · split at h
      · simp only [Except.error.injEq] at h
        subst h
        exact memRead_error (memWrite_error_iff.1 ‹_›)
      · cases h

/-! ### `move` (R137) -/

/-- All that a MOV can do: F6 with nothing but STATUS changed, or the write of the value read. -/
theorem move_cases {dst : Loc} {src : Operand} {n : Nat} {s t : State} (h : move dst src n s = .next t) :
    (∃ c, isBounds s c ∧ t = s.raise c) ∨
      ∃ v, readOperand (s.advance n) src = .ok v ∧ writeLoc (s.advance n) dst v = .ok t := by
  simp only [move, fatalOutcome] at h
  split at h
  · exact .inl ⟨_, readOperand_error (s := s.advance n) ‹_›, by simpa using h.symm⟩
  · split at h
    · exact .inl ⟨_, writeLoc_error (s := s.advance n) ‹_›, by simpa using h.symm⟩
    · simp only [Host.Outcome.next.injEq] at h
      subst h
      exact .inr ⟨_, ‹_›, ‹_›⟩

/-- A MOV whose operands are accessible completes (R137). -/
theorem move_completes {dst : Loc} {src : Operand} (n : Nat) {s : State} (hd : locNoIp dst) (hs : operandNoIp src)
    (ad : accessible s dst) (as : operandAccessible s src) :
    ∃ v t, readOperand s src = .ok v ∧ writeLoc (s.advance n) dst v = .ok t ∧ move dst src n s = .next t := by
  obtain ⟨v, hv⟩ := readOperand_of_accessible as
  obtain ⟨t, ht⟩ := writeLoc_of_accessible ((accessible_advance s n hd).2 ad) v
  refine ⟨v, t, hv, ht, ?_⟩
  simp only [move, readOperand_advance s n hs, hv, ht]

/-- A frame of the advanced state is one of the state itself. -/
theorem Frame.of_advance {s t : State} {n : Nat} {dst : Loc} (hd : locNoIp dst)
    (h : Frame (s.advance n) t (some dst)) : Frame s t (some dst) := by
  refine ⟨fun r hr hw => ?_, fun r hi hw => ?_, fun a ha => ?_, h.code, h.opts, h.status, h.emitted⟩
  · rw [h.regs r hr hw, State.advance_regs, RegFile.get_set_ip _ _ hr]
  · have hr : r ≠ .ip := by
      obtain rfl := Option.some.inj hw
      exact hd
    rw [h.half r hi hw, State.advance_regs, RegFile.get_set_ip _ _ hr]
  · rw [h.mem a (by rwa [storedBytes_advance s n hd]), State.advance_mem]

/-! ### `arith` (R150) -/

theorem writeBack_cases {op : ArithOp} {s t : State} {dst : Loc} {v : Word} (h : writeBack op s dst v = .ok t) :
    (op.writes = true ∧ writeLoc s dst v = .ok t) ∨ (op.writes = false ∧ t = s) := by
  unfold writeBack at h
  split at h
  · exact .inl ⟨‹_›, h⟩
  · rename_i hw
    exact .inr ⟨by simpa using hw, by simpa using h.symm⟩

theorem writeBack_error {op : ArithOp} {s : State} {dst : Loc} {v : Word} {c : Fatal}
    (h : writeBack op s dst v = .error c) : isBounds s c := by
  unfold writeBack at h
  split at h
  · exact writeLoc_error h
  · cases h

/-- `raw` of R150 for these operands in this state. -/
def arithRaw (op : ArithOp) (s : State) (dv sv : Word) : Int := rawResult op dv sv (flag s.flags cfBit)

/-- The FLAGS of R150 for these operands in this state. -/
def arithFlags (op : ArithOp) (dst : Loc) (s : State) (dv sv : Word) : Word :=
  computeFlags op.kind s.flags dv sv (arithRaw op s dv sv) (widthBits (locWidth dst))

/-- The result of R150 for these operands in this state. -/
def arithResult (op : ArithOp) (dst : Loc) (s : State) (dv sv : Word) : Word :=
  resultOf (arithRaw op s dv sv) (widthBits (locWidth dst))

/-- All that an arithmetic instruction can do: F6 with nothing but STATUS changed, or the write-back and the flags. -/
theorem arith_cases {op : ArithOp} {dst : Loc} {src : Operand} {n : Nat} {s t : State}
    (h : arith op dst src n s = .next t) :
    (∃ c, isBounds s c ∧ t = s.raise c) ∨
      ∃ sv dv s2, readOperand (s.advance n) src = .ok sv ∧ readLoc (s.advance n) dst = .ok dv ∧
        writeBack op (s.advance n) dst (arithResult op dst s dv sv) = .ok s2 ∧
        t = { s2 with flags := arithFlags op dst s dv sv } := by
  simp only [arith, fatalOutcome] at h
  split at h
  · exact .inl ⟨_, readOperand_error (s := s.advance n) ‹_›, by simpa using h.symm⟩
  · split at h
    · exact .inl ⟨_, readLoc_error (s := s.advance n) ‹_›, by simpa using h.symm⟩
    · split at h
      · exact .inl ⟨_, writeBack_error (s := s.advance n) ‹_›, by simpa using h.symm⟩
      · simp only [Host.Outcome.next.injEq] at h
        exact .inr ⟨_, _, _, ‹_›, ‹_›, ‹_›, h.symm⟩

/-- An arithmetic instruction whose operands are accessible completes (R150). -/
theorem arith_completes (op : ArithOp) {dst : Loc} {src : Operand} (n : Nat) {s : State} (hd : locNoIp dst)
    (hs : operandNoIp src) (ad : accessible s dst) (as : operandAccessible s src) :
    ∃ dv sv s2, readLoc s dst = .ok dv ∧ readOperand s src = .ok sv ∧
      writeBack op (s.advance n) dst (arithResult op dst s dv sv) = .ok s2 ∧
      arith op dst src n s = .next { s2 with flags := arithFlags op dst s dv sv } := by
  obtain ⟨sv, hsv⟩ := readOperand_of_accessible as
  obtain ⟨dv, hdv⟩ := readLoc_of_accessible ad
  have hw : ∃ s2, writeBack op (s.advance n) dst (arithResult op dst s dv sv) = .ok s2 := by
    unfold writeBack
    split
    · exact writeLoc_of_accessible ((accessible_advance s n hd).2 ad) _
    · exact ⟨_, rfl⟩
  obtain ⟨s2, h2⟩ := hw
  refine ⟨dv, sv, s2, hdv, hsv, h2, ?_⟩
  unfold arithResult arithRaw at h2
  simp only [arith, readOperand_advance s n hs, hsv, readLoc_advance s n hd, hdv, h2, arithFlags, arithRaw]

/-! ### The flags word -/

theorem withFlag_getLsbD (f : Word) (bit : Nat) (b : Bool) (j : Nat) (hj : j < 16) :
    (withFlag f bit b).getLsbD j = if j = bit then b else f.getLsbD j := by
  unfold withFlag
  by_cases h : j = bit
  · subst h
    cases b <;> simp [hj]
  · cases b
    · simp [hj, h]
    · simp [hj, h]

/-- The flag engine writes no bit but its six (R181). -/
theorem computeFlags_getLsbD_of_not_mem (kind : AluKind) (f d s : Word) (raw : Int) (n : Nat) {j : Nat} (hj : j < 16)
    (h : j ∉ flagBits) : (computeFlags kind f d s raw n).getLsbD j = f.getLsbD j := by
  simp only [flagBits, List.mem_cons, List.not_mem_nil, or_false, not_or] at h
  simp only [computeFlags, withFlag_getLsbD _ _ _ _ hj, h, if_false]

/-! ### `exec` -/

/-- A machine with `LOOP_EXEC = i8086` runs the LOOP family; otherwise it is refused (R224). -/
theorem loopExec_cases {mn : Mnemonic} {u s t : State} (h : loopExec mn u s = .next t) :
    s.opts.loopExec = .i8086 ∧ t = u := by
  unfold loopExec at h
  split at h
  · exact ⟨‹_›, by simpa using h.symm⟩
  · cases h

/-- Everything an instruction's meaning can do when it answers a next state: F6 with nothing but STATUS changed; the pc
advance and one write (MOV); the pc advance, at most one write and new FLAGS (arithmetic); a jump; a loop. -/
inductive Effect (s : State) : State → Prop where
  | fatal (c : Fatal) (h : isBounds s c) : Effect s (s.raise c)
  | moved (n : Nat) (dst : Loc) (v : Word) (t : State) (hd : locNoIp dst)
    (h : writeLoc (s.advance n) dst v = .ok t) : Effect s t
  | compared (n : Nat) (kind : AluKind) (dv sv : Word) (raw : Int) (w : Nat) :
    Effect s { s.advance n with flags := computeFlags kind s.flags dv sv raw w }
  | computed (n : Nat) (dst : Loc) (v : Word) (t : State) (kind : AluKind) (dv sv : Word) (raw : Int) (w : Nat)
    (hd : locNoIp dst) (h : writeLoc (s.advance n) dst v = .ok t) :
    Effect s { t with flags := computeFlags kind s.flags dv sv raw w }
  | jumped (c : Bool) (disp : Byte) : Effect s (jumpTo c disp s)
  | looped (test : Bool) (disp : Byte) : Effect s (loopStep test disp s)

theorem move_effect {dst : Loc} {src : Operand} {n : Nat} {s t : State} (hd : locNoIp dst)
    (h : move dst src n s = .next t) : Effect s t := by
  rcases move_cases h with ⟨c, hc, rfl⟩ | ⟨v, -, hw⟩
  · exact .fatal c hc
  · exact .moved n dst v t hd hw

theorem arith_effect {op : ArithOp} {dst : Loc} {src : Operand} {n : Nat} {s t : State} (hd : locNoIp dst)
    (h : arith op dst src n s = .next t) : Effect s t := by
  rcases arith_cases h with ⟨c, hc, rfl⟩ | ⟨sv, dv, s2, -, -, hw, rfl⟩
  · exact .fatal c hc
  · rcases writeBack_cases hw with ⟨-, hw⟩ | ⟨-, rfl⟩
    · exact .computed _ _ _ _ _ _ _ _ _ hd hw
    · exact .compared ..

theorem jumpIf_effect {c : Bool} {d : Byte} {s t : State} (h : jumpIf c d s = .next t) : Effect s t := by
  simp only [jumpIf, Host.Outcome.next.injEq] at h
  subst h
  exact .jumped c d

theorem exec_effect {i : Instr} {s t : State} (h : exec i s = .next t) : Effect s t := by
  cases i with
  | movRmReg d reg rm => simp only [exec, execMovRmReg] at h; exact move_effect (rmRegDst_noIp ..) h
  | movRmImm rm imm => simp only [exec, execMovRmImm] at h; exact move_effect (rmLoc_noIp ..) h
  | movRegImm reg imm => simp only [exec, execMovRegImm] at h; exact move_effect (gregLoc_noIp _) h
  | movAccMem w a => simp only [exec, execMovAccMem] at h; exact move_effect (accLoc_noIp _) h
  | movMemAcc w a => simp only [exec, execMovMemAcc] at h; exact move_effect (accMemLoc_noIp ..) h
  | movRmSeg rm sr => simp only [exec, execMovRmSeg] at h; exact move_effect (rmLoc_noIp ..) h
  | movSegRm sr rm => simp only [exec, execMovSegRm] at h; exact move_effect (segLoc_noIp _) h
  | addRmReg d reg rm => simp only [exec, execAddRmReg] at h; exact arith_effect (rmRegDst_noIp ..) h
  | subRmReg d reg rm => simp only [exec, execSubRmReg] at h; exact arith_effect (rmRegDst_noIp ..) h
  | cmpRmReg d reg rm => simp only [exec, execCmpRmReg] at h; exact arith_effect (rmRegDst_noIp ..) h
  | addAccImm imm => simp only [exec, execAddAccImm] at h; exact arith_effect (accLoc_noIp _) h
  | subAccImm imm => simp only [exec, execSubAccImm] at h; exact arith_effect (accLoc_noIp _) h
  | cmpAccImm imm => simp only [exec, execCmpAccImm] at h; exact arith_effect (accLoc_noIp _) h
  | addRmImm rm imm => simp only [exec, execAddRmImm] at h; exact arith_effect (rmLoc_noIp ..) h
  | adcRmImm rm imm => simp only [exec, execAdcRmImm] at h; exact arith_effect (rmLoc_noIp ..) h
  | subRmImm rm imm => simp only [exec, execSubRmImm] at h; exact arith_effect (rmLoc_noIp ..) h
  | sbbRmImm rm imm => simp only [exec, execSbbRmImm] at h; exact arith_effect (rmLoc_noIp ..) h
  | cmpRmImm rm imm => simp only [exec, execCmpRmImm] at h; exact arith_effect (rmLoc_noIp ..) h
  | jo d => simp only [exec, execJo] at h; exact jumpIf_effect h
  | jno d => simp only [exec, execJno] at h; exact jumpIf_effect h
  | jb d => simp only [exec, execJb] at h; exact jumpIf_effect h
  | jnb d => simp only [exec, execJnb] at h; exact jumpIf_effect h
  | je d => simp only [exec, execJe] at h; exact jumpIf_effect h
  | jne d => simp only [exec, execJne] at h; exact jumpIf_effect h
  | jbe d => simp only [exec, execJbe] at h; exact jumpIf_effect h
  | jnbe d => simp only [exec, execJnbe] at h; exact jumpIf_effect h
  | js d => simp only [exec, execJs] at h; exact jumpIf_effect h
  | jns d => simp only [exec, execJns] at h; exact jumpIf_effect h
  | jp d => simp only [exec, execJp] at h; exact jumpIf_effect h
  | jnp d => simp only [exec, execJnp] at h; exact jumpIf_effect h
  | jl d => simp only [exec, execJl] at h; exact jumpIf_effect h
  | jnl d => simp only [exec, execJnl] at h; exact jumpIf_effect h
  | jle d => simp only [exec, execJle] at h; exact jumpIf_effect h
  | jnle d => simp only [exec, execJnle] at h; exact jumpIf_effect h
  | loopnz d => simp only [exec, execLoopnz] at h; obtain ⟨-, rfl⟩ := loopExec_cases h; exact .looped _ _
  | loopz d => simp only [exec, execLoopz] at h; obtain ⟨-, rfl⟩ := loopExec_cases h; exact .looped _ _
  | loop d => simp only [exec, execLoop] at h; obtain ⟨-, rfl⟩ := loopExec_cases h; exact .looped _ _
  | jcxz d => simp only [exec, execJcxz] at h; obtain ⟨-, rfl⟩ := loopExec_cases h; exact .jumped _ _

/-- What no instruction changes: the code store and the options always, STATUS and the output ports unless F6 is
raised. -/
theorem exec_keeps {i : Instr} {s t : State} (h : exec i s = .next t) :
    t.code = s.code ∧ t.opts = s.opts ∧
      ((t.status = s.status ∧ t.emitted = s.emitted) ∨ ∃ c, isBounds s c ∧ t = s.raise c) := by
  cases exec_effect h with
  | fatal c hc => exact ⟨rfl, rfl, .inr ⟨c, hc, rfl⟩⟩
  | moved n dst v t hd hw =>
    rcases writeLoc_cases hw with ⟨w, r, hi, rfl, rfl⟩ | ⟨w, m, a, old, mem, rfl, ha, hm, rfl⟩ <;>
      exact ⟨rfl, rfl, .inl ⟨rfl, rfl⟩⟩
  | compared => exact ⟨rfl, rfl, .inl ⟨rfl, rfl⟩⟩
  | computed n dst v t kind dv sv raw w hd hw =>
    rcases writeLoc_cases hw with ⟨w, r, hi, rfl, rfl⟩ | ⟨w, m, a, old, mem, rfl, ha, hm, rfl⟩ <;>
      exact ⟨rfl, rfl, .inl ⟨rfl, rfl⟩⟩
  | jumped => simp
  | looped => simp [loopStep]

/-- What a MOV that is stopped by no fatal condition writes. -/
theorem move_writes {dst : Loc} {src : Operand} {n : Nat} {s t : State} (h : move dst src n s = .next t)
    (hf : ∀ c, t.status ≠ .fault c) : ∃ v u, writeLoc (s.advance n) dst v = .ok u ∧ t.mem = u.mem := by
  rcases move_cases h with ⟨c, -, rfl⟩ | ⟨v, -, hw⟩
  · exact absurd rfl (hf c)
  · exact ⟨v, t, hw, rfl⟩

/-- What an arithmetic instruction other than CMP that is stopped by no fatal condition writes. -/
theorem arith_writes {op : ArithOp} {dst : Loc} {src : Operand} {n : Nat} {s t : State}
    (h : arith op dst src n s = .next t) (ho : op.writes = true) (hf : ∀ c, t.status ≠ .fault c) :
    ∃ v u, writeLoc (s.advance n) dst v = .ok u ∧ t.mem = u.mem := by
  rcases arith_cases h with ⟨c, -, rfl⟩ | ⟨sv, dv, s2, -, -, hw, rfl⟩
  · exact absurd rfl (hf c)
  · rcases writeBack_cases hw with ⟨-, hw⟩ | ⟨hn, -⟩
    · exact ⟨_, s2, hw, rfl⟩
    · rw [ho] at hn; cases hn

/-- An instruction that is stopped by no fatal condition has written the location it says it writes (R97). -/
theorem exec_writes {i : Instr} {s t : State} {dst : Loc} (h : exec i s = .next t) (hf : ∀ c, t.status ≠ .fault c)
    (hd : writtenLoc i = some dst) : ∃ v u, writeLoc (s.advance i.length) dst v = .ok u ∧ t.mem = u.mem := by
  cases i with
  | movRmReg d reg rm => cases hd; simp only [exec, execMovRmReg] at h; exact move_writes h hf
  | movRmImm rm imm => cases hd; simp only [exec, execMovRmImm] at h; exact move_writes h hf
  | movRegImm reg imm => cases hd; simp only [exec, execMovRegImm] at h; exact move_writes h hf
  | movAccMem w a => cases hd; simp only [exec, execMovAccMem] at h; exact move_writes h hf
  | movMemAcc w a => cases hd; simp only [exec, execMovMemAcc] at h; exact move_writes h hf
  | movRmSeg rm sr => cases hd; simp only [exec, execMovRmSeg] at h; exact move_writes h hf
  | movSegRm sr rm => cases hd; simp only [exec, execMovSegRm] at h; exact move_writes h hf
  | addRmReg d reg rm => cases hd; simp only [exec, execAddRmReg] at h; exact arith_writes h rfl hf
  | subRmReg d reg rm => cases hd; simp only [exec, execSubRmReg] at h; exact arith_writes h rfl hf
  | addAccImm imm => cases hd; simp only [exec, execAddAccImm] at h; exact arith_writes h rfl hf
  | subAccImm imm => cases hd; simp only [exec, execSubAccImm] at h; exact arith_writes h rfl hf
  | addRmImm rm imm => cases hd; simp only [exec, execAddRmImm] at h; exact arith_writes h rfl hf
  | adcRmImm rm imm => cases hd; simp only [exec, execAdcRmImm] at h; exact arith_writes h rfl hf
  | subRmImm rm imm => cases hd; simp only [exec, execSubRmImm] at h; exact arith_writes h rfl hf
  | sbbRmImm rm imm => cases hd; simp only [exec, execSbbRmImm] at h; exact arith_writes h rfl hf
  | _ => cases hd

/-! ### `step` -/

/-- Everything a step can do when it answers a next state (R230). -/
theorem step_cases {s t : State} (h : step s = .next t) :
    s.status = .running ∧ s.code.length ≤ Config.maxCodeLen ∧
      ((s.regs.ip.toNat = s.code.length ∧ t = s.halt) ∨
        (s.code.length < s.regs.ip.toNat ∧ t = s.raise (.fetchOutOfRange s.regs.ip)) ∨
        (s.regs.ip.toNat < s.code.length ∧
          ((∃ c, fetchInstr s = .error c ∧ t = s.raise c) ∨
            ∃ i, fetchInstr s = .ok i ∧
              ((s.opts.runMode = .decodeOnly ∧ t = retire i none s (walk i s)) ∨
                (s.opts.runMode = .simulate ∧ ∃ u, exec i s = .next u ∧ t = retire i (writtenLoc i) s u))))) := by
  unfold step at h
  split at h
  · cases h
  · cases h
  · refine ⟨‹_›, ?_⟩
    split at h
    · cases h
    · refine ⟨by omega, ?_⟩
      unfold endTest at h
      by_cases h1 : s.regs.ip.toNat = s.code.length
      · rw [if_pos h1] at h
        exact .inl ⟨h1, by simpa using h.symm⟩
      · rw [if_neg h1] at h
        by_cases h2 : s.regs.ip.toNat > s.code.length
        · rw [if_pos h2] at h
          exact .inr (.inl ⟨h2, by simpa using h.symm⟩)
        · rw [if_neg h2] at h
          refine .inr (.inr ⟨by omega, ?_⟩)
          simp only at h
          split at h
          · exact .inl ⟨_, ‹_›, by simpa using h.symm⟩
          · refine .inr ⟨_, ‹_›, ?_⟩
            unfold runInstr at h
            split at h
            · exact .inl ⟨‹_›, by simpa using h.symm⟩
            · refine .inr ⟨‹_›, ?_⟩
              split at h
              · exact ⟨_, ‹_›, by simpa using h.symm⟩
              · cases h
              · cases h

end Sys2Proof.Machine
end

