-- ==== Sys2Proof/Laws/PerInstr.lean ====
section
/-!
SUPPORT. Statements about every instruction as syntax, one lemma per constructor. `EncodedLength`: the encoder writes
`Instr.length` bytes, 2 to 6 of them (R81, R105).
-/

namespace Sys2Proof.Laws.EncodedLength

/-- The encoding has the length of R105, and that is 2 to 6 bytes. -/
def Statement (i : Instr) : Prop := (encode i).length = i.length ∧ 2 ≤ i.length ∧ i.length ≤ 6

theorem dispBytes_length (rm : RM) : rm.dispBytes.length = rm.dlen ∧ rm.dlen ≤ 2 := by
  rcases rm with r | (a | ⟨p, (_ | d | d)⟩) <;> simp [RM.dispBytes, RM.dlen, Disp.length, wordBytes]

theorem immBytes_length (i : Imm) : i.bytes.length = i.length ∧ 1 ≤ i.length ∧ i.length ≤ 2 := by
  cases i <;> simp [Imm.bytes, Imm.length, wordBytes]

theorem arithImmBytes_length (i : ArithImm) : i.bytes.length = i.length ∧ 1 ≤ i.length ∧ i.length ≤ 2 := by
  cases i <;> simp [ArithImm.bytes, ArithImm.length, wordBytes]

theorem accAddrBytes_length (a : AccAddr) : a.bytes.length = a.length ∧ 1 ≤ a.length ∧ a.length ≤ 2 := by
  cases a <;> simp [AccAddr.bytes, AccAddr.length, wordBytes]

theorem movRmReg (d : Dir) (reg : GReg) (rm : RM) : Statement (.movRmReg d reg rm) := by
  have := dispBytes_length rm
  simp only [Statement, encode, Instr.length, encodeRmReg, encodeModRM, List.length_cons]
  omega

theorem movRmImm (rm : RM) (imm : Imm) : Statement (.movRmImm rm imm) := by
  have := dispBytes_length rm
  have := immBytes_length imm
  simp only [Statement, encode, Instr.length, encodeModRM, List.length_cons, List.length_append]
  omega

theorem movRegImm (reg : GReg) (imm : Imm) : Statement (.movRegImm reg imm) := by
  have := immBytes_length imm
  simp only [Statement, encode, Instr.length, List.length_cons]
  omega

theorem movAccMem (w : Width) (addr : AccAddr) : Statement (.movAccMem w addr) := by
  have := accAddrBytes_length addr
  simp only [Statement, encode, Instr.length, List.length_cons]
  omega

theorem movMemAcc (w : Width) (addr : AccAddr) : Statement (.movMemAcc w addr) := by
  have := accAddrBytes_length addr
  simp only [Statement, encode, Instr.length, List.length_cons]
  omega

theorem movRmSeg (rm : RM) (sr : SegReg) : Statement (.movRmSeg rm sr) := by
  have := dispBytes_length rm
  simp only [Statement, encode, Instr.length, encodeModRM, List.length_cons]
  omega

theorem movSegRm (sr : SegReg) (rm : RM) : Statement (.movSegRm sr rm) := by
  have := dispBytes_length rm
  simp only [Statement, encode, Instr.length, encodeModRM, List.length_cons]
  omega

theorem addRmReg (d : Dir) (reg : GReg) (rm : RM) : Statement (.addRmReg d reg rm) := by
  have := dispBytes_length rm
  simp only [Statement, encode, Instr.length, encodeRmReg, encodeModRM, List.length_cons]
  omega

theorem addAccImm (imm : Imm) : Statement (.addAccImm imm) := by
  have := immBytes_length imm
  simp only [Statement, encode, Instr.length, encodeAccImm, List.length_cons]
  omega

theorem subRmReg (d : Dir) (reg : GReg) (rm : RM) : Statement (.subRmReg d reg rm) := by
  have := dispBytes_length rm
  simp only [Statement, encode, Instr.length, encodeRmReg, encodeModRM, List.length_cons]
  omega

theorem subAccImm (imm : Imm) : Statement (.subAccImm imm) := by
  have := immBytes_length imm
  simp only [Statement, encode, Instr.length, encodeAccImm, List.length_cons]
  omega

theorem cmpRmReg (d : Dir) (reg : GReg) (rm : RM) : Statement (.cmpRmReg d reg rm) := by
  have := dispBytes_length rm
  simp only [Statement, encode, Instr.length, encodeRmReg, encodeModRM, List.length_cons]
  omega

theorem cmpAccImm (imm : Imm) : Statement (.cmpAccImm imm) := by
  have := immBytes_length imm
  simp only [Statement, encode, Instr.length, encodeAccImm, List.length_cons]
  omega

theorem addRmImm (rm : RM) (imm : ArithImm) : Statement (.addRmImm rm imm) := by
  have := dispBytes_length rm
  have := arithImmBytes_length imm
  simp only [Statement, encode, Instr.length, encodeArithImm, encodeModRM, List.length_cons, List.length_append]
  omega

theorem adcRmImm (rm : RM) (imm : ArithImm) : Statement (.adcRmImm rm imm) := by
  have := dispBytes_length rm
  have := arithImmBytes_length imm
  simp only [Statement, encode, Instr.length, encodeArithImm, encodeModRM, List.length_cons, List.length_append]
  omega

theorem subRmImm (rm : RM) (imm : ArithImm) : Statement (.subRmImm rm imm) := by
  have := dispBytes_length rm
  have := arithImmBytes_length imm
  simp only [Statement, encode, Instr.length, encodeArithImm, encodeModRM, List.length_cons, List.length_append]
  omega

theorem sbbRmImm (rm : RM) (imm : ArithImm) : Statement (.sbbRmImm rm imm) := by
  have := dispBytes_length rm
  have := arithImmBytes_length imm
  simp only [Statement, encode, Instr.length, encodeArithImm, encodeModRM, List.length_cons, List.length_append]
  omega

theorem cmpRmImm (rm : RM) (imm : ArithImm) : Statement (.cmpRmImm rm imm) := by
  have := dispBytes_length rm
  have := arithImmBytes_length imm
  simp only [Statement, encode, Instr.length, encodeArithImm, encodeModRM, List.length_cons, List.length_append]
  omega

theorem jo (disp : Byte) : Statement (.jo disp) := by
  exact ⟨rfl, (by decide : 2 ≤ 2), (by decide : 2 ≤ 6)⟩

theorem jno (disp : Byte) : Statement (.jno disp) := by
  exact ⟨rfl, (by decide : 2 ≤ 2), (by decide : 2 ≤ 6)⟩

theorem jb (disp : Byte) : Statement (.jb disp) := by
  exact ⟨rfl, (by decide : 2 ≤ 2), (by decide : 2 ≤ 6)⟩

theorem jnb (disp : Byte) : Statement (.jnb disp) := by
  exact ⟨rfl, (by decide : 2 ≤ 2), (by decide : 2 ≤ 6)⟩

theorem je (disp : Byte) : Statement (.je disp) := by
  exact ⟨rfl, (by decide : 2 ≤ 2), (by decide : 2 ≤ 6)⟩

theorem jne (disp : Byte) : Statement (.jne disp) := by
  exact ⟨rfl, (by decide : 2 ≤ 2), (by decide : 2 ≤ 6)⟩

theorem jbe (disp : Byte) : Statement (.jbe disp) := by
  exact ⟨rfl, (by decide : 2 ≤ 2), (by decide : 2 ≤ 6)⟩

theorem jnbe (disp : Byte) : Statement (.jnbe disp) := by
  exact ⟨rfl, (by decide : 2 ≤ 2), (by decide : 2 ≤ 6)⟩

theorem js (disp : Byte) : Statement (.js disp) := by
  exact ⟨rfl, (by decide : 2 ≤ 2), (by decide : 2 ≤ 6)⟩

theorem jns (disp : Byte) : Statement (.jns disp) := by
  exact ⟨rfl, (by decide : 2 ≤ 2), (by decide : 2 ≤ 6)⟩

theorem jp (disp : Byte) : Statement (.jp disp) := by
  exact ⟨rfl, (by decide : 2 ≤ 2), (by decide : 2 ≤ 6)⟩

theorem jnp (disp : Byte) : Statement (.jnp disp) := by
  exact ⟨rfl, (by decide : 2 ≤ 2), (by decide : 2 ≤ 6)⟩

theorem jl (disp : Byte) : Statement (.jl disp) := by
  exact ⟨rfl, (by decide : 2 ≤ 2), (by decide : 2 ≤ 6)⟩

theorem jnl (disp : Byte) : Statement (.jnl disp) := by
  exact ⟨rfl, (by decide : 2 ≤ 2), (by decide : 2 ≤ 6)⟩

theorem jle (disp : Byte) : Statement (.jle disp) := by
  exact ⟨rfl, (by decide : 2 ≤ 2), (by decide : 2 ≤ 6)⟩

theorem jnle (disp : Byte) : Statement (.jnle disp) := by
  exact ⟨rfl, (by decide : 2 ≤ 2), (by decide : 2 ≤ 6)⟩

theorem loopnz (disp : Byte) : Statement (.loopnz disp) := by
  exact ⟨rfl, (by decide : 2 ≤ 2), (by decide : 2 ≤ 6)⟩

theorem loopz (disp : Byte) : Statement (.loopz disp) := by
  exact ⟨rfl, (by decide : 2 ≤ 2), (by decide : 2 ≤ 6)⟩

theorem loop (disp : Byte) : Statement (.loop disp) := by
  exact ⟨rfl, (by decide : 2 ≤ 2), (by decide : 2 ≤ 6)⟩

theorem jcxz (disp : Byte) : Statement (.jcxz disp) := by
  exact ⟨rfl, (by decide : 2 ≤ 2), (by decide : 2 ≤ 6)⟩

end Sys2Proof.Laws.EncodedLength
end

