-- ==== Sys2Proof/Tests/Slice0.lean ====
section
/-!
SUPPORT. The model's own tests: ill-formed terms, one written-out encoding per constructor, one-step tests with the
results of spec/95_test_vectors.md, text, and witnesses that meet the hypotheses of the obligations.
-/

namespace Sys2Proof.Tests

open Sys2Proof Sys2Proof.Machine

set_option maxRecDepth 20000

/-! ### Helpers -/

/-- The machine after reset with this code, registers, FLAGS and memory cells, default options. -/
def start (code : List Byte) (regs : RegFile) (flags : Word) (cells : List (Word × Byte)) : State :=
  { State.resetWith code (Memory.ofCells cells) Options.default with regs := regs, flags := flags }

/-- One field or more of the state that one step reaches. -/
def after {α : Type} (s : State) (f : State → α) : Option α :=
  match step s with
  | .next t => some (f t)
  | _ => none

def zero : RegFile := RegFile.zero

/-! ### Well-formedness: one ill-formed term for each check -/

/-- RMREG: a byte register with a word register (R86, R88). -/
theorem test_wf_refuses_width_mismatch : (Instr.movRmReg .toRm .al (.reg .bx)).wf .byW = false := by decide

/-- RMIMM: a byte immediate for a word register (R100). -/
theorem test_wf_refuses_immediate_width : (Instr.movRmImm (.reg .ax) (.byte 1)).wf .byW = false := by decide

/-- REGIMM: a word immediate for a byte register (R100). -/
theorem test_wf_refuses_register_immediate : (Instr.movRegImm .ah (.word 1)).wf .byW = false := by decide

/-- ARITHIMM: a sign-extended byte belongs to a word operation (R85). -/
theorem test_wf_refuses_sext_for_byte : (Instr.addRmImm (.reg .cl) (.sext 1)).wf .byW = false := by decide

/-- BP without displacement is the direct address (R96). -/
theorem test_wf_refuses_bare_bp :
    (Instr.movRmReg .toReg .ax (.mem (.indirect .bp .none))).wf .byW = false := by decide

/-- SEG operands are words (R84). -/
theorem test_wf_refuses_byte_for_segment : (Instr.movRmSeg (.reg .al) .ds).wf .byW = false := by decide

/-- A one-byte address for a word move (R101). -/
theorem test_wf_refuses_short_address_of_word : (Instr.movAccMem .word (.a8 1)).wf .byW = false := by decide

/-- A one-byte address under `always16` (R101). -/
theorem test_wf_refuses_short_address_always16 : (Instr.movAccMem .byte (.a8 1)).wf .always16 = false := by decide

/-- A two-byte address of a byte move under `by_w` (R101). -/
theorem test_wf_refuses_long_address_by_w : (Instr.movMemAcc .byte (.a16 1)).wf .byW = false := by decide

/-- The same bytes are well-formed under `always16`. -/
theorem test_wf_accepts_long_address_always16 : (Instr.movMemAcc .byte (.a16 1)).wf .always16 = true := by decide

/-! ### Decoding: each constructor from bytes written out from its encoding -/

/-- R130, `100010dw`: d = 1, w = 0, MOD = 10, REG = 100, R/M = 011. -/
theorem test_decode_movRmReg :
    decodeAt .byW [0b10001010, 0b10100011, 0x34, 0x12] 0 =
      .ok (.movRmReg .toReg .ah (.mem (.indirect .bpDi (.d16 0x1234)))) := by decide

/-- R131, `1100011w`: w = 1, MOD = 01, R/M = 111. -/
theorem test_decode_movRmImm :
    decodeAt .byW [0b11000111, 0b01000111, 0xFE, 0x34, 0x12] 0 =
      .ok (.movRmImm (.mem (.indirect .bx (.d8 0xFE))) (.word 0x1234)) := by decide

/-- R132, `1011wrrr`: w = 0, register 101. -/
theorem test_decode_movRegImm :
    decodeAt .byW [0b10110101, 0xFF] 0 = .ok (.movRegImm .ch (.byte 0xFF)) := by decide

/-- R133, `1010000w`: w = 0, one address byte under `by_w`. -/
theorem test_decode_movAccMem :
    decodeAt .byW [0b10100000, 0x10] 0 = .ok (.movAccMem .byte (.a8 0x10)) := by decide

/-- R134, `1010001w`: w = 1. -/
theorem test_decode_movMemAcc :
    decodeAt .byW [0b10100011, 0x00, 0x02] 0 = .ok (.movMemAcc .word (.a16 0x200)) := by decide

/-- R135, `10001100`: MOD = 11, field 01, R/M = 110. -/
theorem test_decode_movRmSeg :
    decodeAt .byW [0b10001100, 0b11001110] 0 = .ok (.movRmSeg (.reg .si) .cs) := by decide

/-- R136, `10001110`: MOD = 00, field 10, R/M = 110. -/
theorem test_decode_movSegRm :
    decodeAt .byW [0b10001110, 0b00010110, 0x00, 0x01] 0 = .ok (.movSegRm .ss (.mem (.direct 0x100))) := by decide

/-- R151, `000000dw`: d = 1, w = 1, MOD = 00, REG = 000, R/M = 111. -/
theorem test_decode_addRmReg :
    decodeAt .byW [0b00000011, 0b00000111] 0 = .ok (.addRmReg .toReg .ax (.mem (.indirect .bx .none))) := by decide

/-- R152, `0000010w`: w = 1. -/
theorem test_decode_addAccImm :
    decodeAt .byW [0b00000101, 0x01, 0x00] 0 = .ok (.addAccImm (.word 1)) := by decide

/-- R154, `001010dw`: d = 0, w = 1, MOD = 11, REG = 001, R/M = 011. -/
theorem test_decode_subRmReg :
    decodeAt .byW [0b00101001, 0b11001011] 0 = .ok (.subRmReg .toRm .cx (.reg .bx)) := by decide

/-- R155, `0010110w`: w = 0. -/
theorem test_decode_subAccImm :
    decodeAt .byW [0b00101100, 0x01] 0 = .ok (.subAccImm (.byte 1)) := by decide

/-- R157, `001110dw`: d = 0, w = 0, MOD = 00, REG = 100, R/M = 111. -/
theorem test_decode_cmpRmReg :
    decodeAt .byW [0b00111000, 0b00100111] 0 = .ok (.cmpRmReg .toRm .ah (.mem (.indirect .bx .none))) := by decide

/-- R158, `0011110w`: w = 1. -/
theorem test_decode_cmpAccImm :
    decodeAt .byW [0b00111101, 0xFF, 0xFF] 0 = .ok (.cmpAccImm (.word 0xFFFF)) := by decide

/-- R160, `100000sw` extension 000: s = 1, w = 1. -/
theorem test_decode_addRmImm :
    decodeAt .byW [0b10000011, 0b11000011, 0x0A] 0 = .ok (.addRmImm (.reg .bx) (.sext 10)) := by decide

/-- R161, extension 010: s = 0, w = 0, R/M = 100. -/
theorem test_decode_adcRmImm :
    decodeAt .byW [0b10000000, 0b11010100, 0x00] 0 = .ok (.adcRmImm (.reg .ah) (.byte 0)) := by decide

/-- R162, extension 101: s = 0, w = 1. -/
theorem test_decode_subRmImm :
    decodeAt .byW [0b10000001, 0b11101001, 0x34, 0x12] 0 = .ok (.subRmImm (.reg .cx) (.word 0x1234)) := by decide

/-- R163, extension 011: s = 1, w = 1, MOD = 00, R/M = 110. -/
theorem test_decode_sbbRmImm :
    decodeAt .byW [0b10000011, 0b00011110, 0x02, 0x03, 0x00] 0 =
      .ok (.sbbRmImm (.mem (.direct 0x302)) (.sext 0)) := by decide

/-- R164, extension 111: s = 0, w = 1, MOD = 00, R/M = 110. -/
theorem test_decode_cmpRmImm :
    decodeAt .byW [0b10000001, 0b00111110, 0xE8, 0x03, 0x34, 0x12] 0 =
      .ok (.cmpRmImm (.mem (.direct 1000)) (.word 0x1234)) := by decide

/-- R201, `01110000`. -/
theorem test_decode_jo :
    decodeAt .byW [0b01110000, 0xF8] 0 = .ok (.jo 0xF8) := by decide

/-- R202, `01110001`. -/
theorem test_decode_jno :
    decodeAt .byW [0b01110001, 0xF8] 0 = .ok (.jno 0xF8) := by decide

/-- R203, `01110010`. -/
theorem test_decode_jb :
    decodeAt .byW [0b01110010, 0xF8] 0 = .ok (.jb 0xF8) := by decide

/-- R204, `01110011`. -/
theorem test_decode_jnb :
    decodeAt .byW [0b01110011, 0xF8] 0 = .ok (.jnb 0xF8) := by decide

/-- R205, `01110100`. -/
theorem test_decode_je :
    decodeAt .byW [0b01110100, 0xF8] 0 = .ok (.je 0xF8) := by decide

/-- R206, `01110101`. -/
theorem test_decode_jne :
    decodeAt .byW [0b01110101, 0xF8] 0 = .ok (.jne 0xF8) := by decide

/-- R207, `01110110`. -/
theorem test_decode_jbe :
    decodeAt .byW [0b01110110, 0xF8] 0 = .ok (.jbe 0xF8) := by decide

/-- R208, `01110111`. -/
theorem test_decode_jnbe :
    decodeAt .byW [0b01110111, 0xF8] 0 = .ok (.jnbe 0xF8) := by decide

/-- R209, `01111000`. -/
theorem test_decode_js :
    decodeAt .byW [0b01111000, 0xF8] 0 = .ok (.js 0xF8) := by decide

/-- R210, `01111001`. -/
theorem test_decode_jns :
    decodeAt .byW [0b01111001, 0xF8] 0 = .ok (.jns 0xF8) := by decide

/-- R211, `01111010`. -/
theorem test_decode_jp :
    decodeAt .byW [0b01111010, 0xF8] 0 = .ok (.jp 0xF8) := by decide

/-- R212, `01111011`. -/
theorem test_decode_jnp :
    decodeAt .byW [0b01111011, 0xF8] 0 = .ok (.jnp 0xF8) := by decide

/-- R213, `01111100`. -/
theorem test_decode_jl :
    decodeAt .byW [0b01111100, 0xF8] 0 = .ok (.jl 0xF8) := by decide

/-- R214, `01111101`. -/
theorem test_decode_jnl :
    decodeAt .byW [0b01111101, 0xF8] 0 = .ok (.jnl 0xF8) := by decide

/-- R215, `01111110`. -/
theorem test_decode_jle :
    decodeAt .byW [0b01111110, 0xF8] 0 = .ok (.jle 0xF8) := by decide

/-- R216, `01111111`. -/
theorem test_decode_jnle :
    decodeAt .byW [0b01111111, 0xF8] 0 = .ok (.jnle 0xF8) := by decide

/-- R217, `11100000`. -/
theorem test_decode_loopnz :
    decodeAt .byW [0b11100000, 0xFB] 0 = .ok (.loopnz 0xFB) := by decide

/-- R218, `11100001`. -/
theorem test_decode_loopz :
    decodeAt .byW [0b11100001, 0xFB] 0 = .ok (.loopz 0xFB) := by decide

/-- R219, `11100010`. -/
theorem test_decode_loop :
    decodeAt .byW [0b11100010, 0xFB] 0 = .ok (.loop 0xFB) := by decide

/-- R220, `11100011`. -/
theorem test_decode_jcxz :
    decodeAt .byW [0b11100011, 0xFB] 0 = .ok (.jcxz 0xFB) := by decide

/-- 2.1 of 95_test_vectors.md, `A0 10 00` under `always16`. -/
theorem test_decode_always16 :
    decodeAt .always16 [0b10100000, 0x10, 0x00] 0 = .ok (.movAccMem .byte (.a16 0x10)) := by decide

/-- 2.1, `8E E3`: bit 5 of the SEG byte is ignored (R89). -/
theorem test_decode_ignores_bit5 : decodeAt .byW [0b10001110, 0b11100011] 0 = .ok (.movSegRm .es (.reg .bx)) := by decide

/-- 2.1, `C7 38 01 00`: the REG field of RMIMM is ignored (R108). -/
theorem test_decode_ignores_reg :
    decodeAt .byW [0b11000111, 0b00111000, 0x01, 0x00] 0 =
      .ok (.movRmImm (.mem (.indirect .bxSi .none)) (.word 1)) := by decide

/-- The table's row of JNE, `01110101` `disp8` in bits 15:8 and 7:0. -/
theorem test_decode_table_word : decodeTableWord 16 0x75F8 = some (.jne 0xF8) := by decide

/-- `81 /7` with every operand word zero (the table gives the row 16 bits). -/
theorem test_decode_table_word_padded :
    decodeTableWord 16 0x8138 = some (.cmpRmImm (.mem (.indirect .bxSi .none)) (.word 0)) := by decide

/-- 2.1, `81 3E E8 03 34 12` from the encoder. -/
theorem test_encode_cmp :
    encode (.cmpRmImm (.mem (.direct 1000)) (.word 0x1234)) = [0x81, 0x3E, 0xE8, 0x03, 0x34, 0x12] := by decide

/-- 2.1, `8A 66 02` from the encoder. -/
theorem test_encode_mov :
    encode (.movRmReg .toReg .ah (.mem (.indirect .bp (.d8 2)))) = [0x8A, 0x66, 0x02] := by decide

/-! ### One step of each instruction, results from 95_test_vectors.md sections 1 and 2 -/

/-- 2.3, `MOV AL, AH` keeps AH. -/
theorem test_movRmReg_half :
    after (start [0x88, 0xE0] { zero with ax := 0xAB12 } 0 [])
      (fun t => (t.regs.ax, t.regs.ip, t.flags)) = some (0xABAB, 2, 0) := by decide

/-- 2.3, `MOV BX, [BX+SI]` uses the old BX. -/
theorem test_movRmReg_old_base :
    after (start [0x8B, 0x18] { zero with bx := 0x0100, si := 2 } 0 [(0x0102, 0xEF), (0x0103, 0xBE)])
      (fun t => t.regs.bx) = some 0xBEEF := by decide

/-- 2.3, `MOV [BX], AX` at 0xFFFF wraps. -/
theorem test_movRmReg_wraps :
    after (start [0x89, 0x07] { zero with bx := 0xFFFF, ax := 0xA1B2 } 0 [])
      (fun t => (t.mem.read 0xFFFF, t.mem.read 0)) = some (0xB2, 0xA1) := by decide

/-- 2.3, `MOV [BX-2], word 4660`. -/
theorem test_movRmImm :
    after (start [0xC7, 0x47, 0xFE, 0x34, 0x12] { zero with bx := 0x0202 } 0 [])
      (fun t => (t.mem.read 0x200, t.mem.read 0x201, t.regs.ip)) = some (0x34, 0x12, 5) := by decide

/-- 2.3, `MOV [1000], byte 7` stores one byte. -/
theorem test_movRmImm_byte :
    after (start [0xC6, 0x06, 0xE8, 0x03, 0x07] zero 0 [])
      (fun t => t.mem) = some [(0x3E8, 7)] := by decide

/-- S1, `MOV AX, 5` from reset. -/
theorem test_movRegImm :
    after (start [0xB8, 0x05, 0x00] zero 0 [])
      (fun t => (t.regs.ax, t.regs.ip, t.flags)) = some (5, 3, 0) := by decide

/-- 2.3, `MOV CH, 255` keeps CL and FLAGS. -/
theorem test_movRegImm_high :
    after (start [0xB5, 0xFF] { zero with cx := 0x1234 } 0x08D5 [])
      (fun t => (t.regs.cx, t.flags)) = some (0xFF34, 0x08D5) := by decide

/-- 2.3, `MOV AL, [16]` keeps AH. -/
theorem test_movAccMem :
    after (start [0xA0, 0x10] { zero with ax := 0xFF00 } 0 [(0x10, 0x5A)])
      (fun t => (t.regs.ax, t.regs.ip)) = some (0xFF5A, 2) := by decide

/-- 2.3, `MOV AX, [1000]`. -/
theorem test_movAccMem_word :
    after (start [0xA1, 0xE8, 0x03] zero 0 [(0x3E8, 0x78), (0x3E9, 0x56)])
      (fun t => t.regs.ax) = some 0x5678 := by decide

/-- 2.3, `MOV [512], AX`. -/
theorem test_movMemAcc :
    after (start [0xA3, 0x00, 0x02] { zero with ax := 0xCAFE } 0 [])
      (fun t => (t.mem.read 0x200, t.mem.read 0x201)) = some (0xFE, 0xCA) := by decide

/-- 2.3, `MOV [16], AL`. -/
theorem test_movMemAcc_byte :
    after (start [0xA2, 0x10] { zero with ax := 0xCAFE } 0 [])
      (fun t => (t.mem.read 0x10, t.mem.read 0x11)) = some (0xFE, 0) := by decide

/-- 2.3, `MOV [256], ES`. -/
theorem test_movRmSeg :
    after (start [0x8C, 0x06, 0x00, 0x01] { zero with es := 0xBEEF } 0 [])
      (fun t => (t.mem.read 0x100, t.mem.read 0x101)) = some (0xEF, 0xBE) := by decide

/-- 2.3, `MOV AX, DS`. -/
theorem test_movRmSeg_reg :
    after (start [0x8C, 0xD8] { zero with ds := 0x2000 } 0 [])
      (fun t => (t.regs.ax, t.regs.ip)) = some (0x2000, 2) := by decide

/-- 2.3, `MOV SS, [256]`. -/
theorem test_movSegRm :
    after (start [0x8E, 0x16, 0x00, 0x01] zero 0 [(0x100, 0xCD), (0x101, 0xAB)])
      (fun t => t.regs.ss) = some 0xABCD := by decide

/-- 2.3, `MOV CS, AX` redirects nothing. -/
theorem test_movSegRm_cs :
    after (start [0x8E, 0xC8] { zero with ax := 0x7777 } 0 [])
      (fun t => (t.regs.cs, t.regs.ip)) = some (0x7777, 2) := by decide

/-- S2, `ADD CL, AL`. -/
theorem test_addRmReg :
    after (start [0x00, 0xC1] { zero with ax := 0x00FF, cx := 1 } 0 [])
      (fun t => (t.regs.cx, t.regs.ax, t.flags)) = some (0, 0xFF, 0x0055) := by decide

/-- 2.4, `ADD [BX], AX`. -/
theorem test_addRmReg_mem :
    after (start [0x01, 0x07] { zero with ax := 1, bx := 0x200 } 0 [(0x200, 0xFF)])
      (fun t => (t.mem.read 0x200, t.mem.read 0x201, t.flags)) = some (0, 1, 0x0014) := by decide

/-- 2.4, `ADD AL, 128` keeps AH. -/
theorem test_addAccImm :
    after (start [0x04, 0x80] { zero with ax := 0x1280 } 0 [])
      (fun t => (t.regs.ax, t.flags)) = some (0x1200, 0x0845) := by decide

/-- 2.4, `ADD AX, 1`. -/
theorem test_addAccImm_word :
    after (start [0x05, 0x01, 0x00] { zero with ax := 0xFFFF } 0 [])
      (fun t => (t.regs.ax, t.flags, t.regs.ip)) = some (0, 0x0055, 3) := by decide

/-- 2.4, `SUB AH, [16]`. -/
theorem test_subRmReg :
    after (start [0x2A, 0x26, 0x10, 0x00] { zero with ax := 0x8000 } 0 [(0x10, 1)])
      (fun t => (t.regs.ax, t.flags)) = some (0x7F00, 0x0810) := by decide

/-- 2.4, `SUB BX, CX`: the destination is the minuend. -/
theorem test_subRmReg_order :
    after (start [0x29, 0xCB] { zero with bx := 3, cx := 1 } 0 [])
      (fun t => (t.regs.bx, t.flags)) = some (2, 0) := by decide

/-- 2.4, `SUB AL, 1` keeps AH. -/
theorem test_subAccImm :
    after (start [0x2C, 0x01] { zero with ax := 0x5500 } 0 [])
      (fun t => (t.regs.ax, t.flags)) = some (0x55FF, 0x0095) := by decide

/-- 2.4, `SUB AX, 1`. -/
theorem test_subAccImm_word :
    after (start [0x2D, 0x01, 0x00] zero 0 [])
      (fun t => (t.regs.ax, t.flags)) = some (0xFFFF, 0x0095) := by decide

/-- 2.4, `CMP BX, AX` of equal words. -/
theorem test_cmpRmReg :
    after (start [0x39, 0xC3] { zero with ax := 0x1234, bx := 0x1234 } 0x81 [])
      (fun t => (t.regs.ax, t.regs.bx, t.flags)) = some (0x1234, 0x1234, 0x44) := by decide

/-- 2.4, `CMP [BX], AH` stores nothing. -/
theorem test_cmpRmReg_mem :
    after (start [0x38, 0x27] { zero with ax := 0x8000, bx := 0x400 } 0 [])
      (fun t => (t.mem, t.flags)) = some ([], 0x0881) := by decide

/-- 2.4, `CMP AX, 65535`. -/
theorem test_cmpAccImm :
    after (start [0x3D, 0xFF, 0xFF] { zero with ax := 1 } 0 [])
      (fun t => (t.regs.ax, t.flags)) = some (1, 0x0011) := by decide

/-- 2.4, `CMP AL, 10`. -/
theorem test_cmpAccImm_byte :
    after (start [0x3C, 0x0A] { zero with ax := 0x0A } 0 [])
      (fun t => (t.regs.ax, t.flags)) = some (0x0A, 0x44) := by decide

/-- 2.4, `ADD BX, 65535` from one sign-extended byte. -/
theorem test_addRmImm :
    after (start [0x83, 0xC3, 0xFF] { zero with bx := 5 } 0 [])
      (fun t => (t.regs.bx, t.flags)) = some (4, 0x0011) := by decide

/-- 2.4, `82 07 FF` adds a byte in memory. -/
theorem test_addRmImm_mem :
    after (start [0x82, 0x07, 0xFF] { zero with bx := 0x500 } 0 [(0x500, 1), (0x501, 0x77)])
      (fun t => (t.mem, t.flags)) = some ([(0x501, 0x77)], 0x0055) := by decide

/-- 2.4, `ADC DX, 0` with CF = 1. -/
theorem test_adcRmImm :
    after (start [0x83, 0xD2, 0x00] { zero with dx := 1 } 1 [])
      (fun t => (t.regs.dx, t.flags)) = some (2, 0) := by decide

/-- 2.4, `ADC AH, 0` with CF = 1. -/
theorem test_adcRmImm_half :
    after (start [0x80, 0xD4, 0x00] { zero with ax := 0x7F00 } 1 [])
      (fun t => (t.regs.ax, t.flags)) = some (0x8000, 0x0890) := by decide

/-- 2.4, `SUB CX, 1`. -/
theorem test_subRmImm :
    after (start [0x83, 0xE9, 0x01] { zero with cx := 1 } 0 [])
      (fun t => (t.regs.cx, t.flags)) = some (0, 0x44) := by decide

/-- 2.4, `SBB DX, 65535` with CF = 1. -/
theorem test_sbbRmImm :
    after (start [0x83, 0xDA, 0xFF] zero 1 [])
      (fun t => (t.regs.dx, t.flags)) = some (0, 0x0055) := by decide

/-- 2.2 row 43, SBB of 0x8000 and 0x7FFF with CF = 1. -/
theorem test_sbbRmImm_overflow :
    after (start [0x81, 0xDA, 0xFF, 0x7F] { zero with dx := 0x8000 } 1 [])
      (fun t => (t.regs.dx, t.flags)) = some (0, 0x0854) := by decide

/-- 2.4, `CMP [1000], word 4660`. -/
theorem test_cmpRmImm :
    after (start [0x81, 0x3E, 0xE8, 0x03, 0x34, 0x12] zero 0 [(0x3E8, 0x34), (0x3E9, 0x12)])
      (fun t => (t.mem, t.flags, t.regs.ip)) = some ([(0x3E8, 0x34), (0x3E9, 0x12)], 0x44, 6) := by decide

/-- 2.4, `CMP [BX+1], byte 128`. -/
theorem test_cmpRmImm_byte :
    after (start [0x80, 0x7F, 0x01, 0x80] { zero with bx := 0x10 } 0 [])
      (fun t => (t.mem, t.flags)) = some ([], 0x0881) := by decide

/-- The two bytes of a jump at index 0x10 of a code store of 0x19 bytes. -/
def jumpAt (opcode disp : Byte) (cx flags : Word) : State :=
  start (List.replicate 0x10 0 ++ [opcode, disp] ++ List.replicate 7 0) { zero with ip := 0x10, cx := cx } flags []

/-- 2.5, `70 06` taken and not taken. -/
theorem test_jo :
    after (jumpAt 0x70 6 0 0x0800) (fun t => t.regs.ip) = some 0x18 ∧
      after (jumpAt 0x70 6 0 0x0001) (fun t => t.regs.ip) = some 0x12 := by decide

/-- 2.5, `71 06` taken and not taken. -/
theorem test_jno :
    after (jumpAt 0x71 6 0 1) (fun t => t.regs.ip) = some 0x18 ∧
      after (jumpAt 0x71 6 0 0x0800) (fun t => t.regs.ip) = some 0x12 := by decide

/-- 2.5, `72 06` taken and not taken. -/
theorem test_jb :
    after (jumpAt 0x72 6 0 1) (fun t => t.regs.ip) = some 0x18 ∧
      after (jumpAt 0x72 6 0 0x0040) (fun t => t.regs.ip) = some 0x12 := by decide

/-- 2.5, `73 06` taken and not taken. -/
theorem test_jnb :
    after (jumpAt 0x73 6 0 0x0040) (fun t => t.regs.ip) = some 0x18 ∧
      after (jumpAt 0x73 6 0 1) (fun t => t.regs.ip) = some 0x12 := by decide

/-- 2.5, `74 06` taken and not taken. -/
theorem test_je :
    after (jumpAt 0x74 6 0 0x40) (fun t => t.regs.ip) = some 0x18 ∧
      after (jumpAt 0x74 6 0 1) (fun t => t.regs.ip) = some 0x12 := by decide

/-- 2.5, `75 06` taken and not taken. -/
theorem test_jne :
    after (jumpAt 0x75 6 0 1) (fun t => t.regs.ip) = some 0x18 ∧
      after (jumpAt 0x75 6 0 0x40) (fun t => t.regs.ip) = some 0x12 := by decide

/-- 2.5, `76 06` taken and not taken. -/
theorem test_jbe :
    after (jumpAt 0x76 6 0 0x40) (fun t => t.regs.ip) = some 0x18 ∧
      after (jumpAt 0x76 6 0 0x0880) (fun t => t.regs.ip) = some 0x12 := by decide

/-- 2.5, `77 06` taken and not taken. -/
theorem test_jnbe :
    after (jumpAt 0x77 6 0 0x0880) (fun t => t.regs.ip) = some 0x18 ∧
      after (jumpAt 0x77 6 0 0x41) (fun t => t.regs.ip) = some 0x12 := by decide

/-- 2.5, `78 06` taken and not taken. -/
theorem test_js :
    after (jumpAt 0x78 6 0 0x80) (fun t => t.regs.ip) = some 0x18 ∧
      after (jumpAt 0x78 6 0 0x0800) (fun t => t.regs.ip) = some 0x12 := by decide

/-- 2.5, `79 06` taken and not taken. -/
theorem test_jns :
    after (jumpAt 0x79 6 0 0x0800) (fun t => t.regs.ip) = some 0x18 ∧
      after (jumpAt 0x79 6 0 0x80) (fun t => t.regs.ip) = some 0x12 := by decide

/-- 2.5, `7A 06` taken and not taken. -/
theorem test_jp :
    after (jumpAt 0x7A 6 0 4) (fun t => t.regs.ip) = some 0x18 ∧
      after (jumpAt 0x7A 6 0 0x10) (fun t => t.regs.ip) = some 0x12 := by decide

/-- 2.5, `7B 06` taken and not taken. -/
theorem test_jnp :
    after (jumpAt 0x7B 6 0 0x10) (fun t => t.regs.ip) = some 0x18 ∧
      after (jumpAt 0x7B 6 0 4) (fun t => t.regs.ip) = some 0x12 := by decide

/-- 2.5, `7C 06` taken and not taken. -/
theorem test_jl :
    after (jumpAt 0x7C 6 0 0x0800) (fun t => t.regs.ip) = some 0x18 ∧
      after (jumpAt 0x7C 6 0 0x0880) (fun t => t.regs.ip) = some 0x12 := by decide

/-- 2.5, `7D 06` taken and not taken. -/
theorem test_jnl :
    after (jumpAt 0x7D 6 0 0x0880) (fun t => t.regs.ip) = some 0x18 ∧
      after (jumpAt 0x7D 6 0 0x80) (fun t => t.regs.ip) = some 0x12 := by decide

/-- 2.5, `7E 06` taken and not taken. -/
theorem test_jle :
    after (jumpAt 0x7E 6 0 0x08C0) (fun t => t.regs.ip) = some 0x18 ∧
      after (jumpAt 0x7E 6 0 0x0880) (fun t => t.regs.ip) = some 0x12 := by decide

/-- 2.5, `7F 06` taken and not taken. -/
theorem test_jnle :
    after (jumpAt 0x7F 6 0 0x0880) (fun t => t.regs.ip) = some 0x18 ∧
      after (jumpAt 0x7F 6 0 0x08C0) (fun t => t.regs.ip) = some 0x12 := by decide

/-- 2.6 with `FB` at 0x10: taken is 0x0D, not taken 0x12. CX = 0x0100, ZF = 0 is taken, and CX = 1 is not. -/
theorem test_loopnz :
    after (jumpAt 0xE0 0xFB 0x100 0) (fun t => (t.regs.cx, t.regs.ip)) = some (0xFF, 0x0D) ∧
      after (jumpAt 0xE0 0xFB 1 0) (fun t => (t.regs.cx, t.regs.ip)) = some (0, 0x12) := by decide

/-- 2.6, LOOPZ: CX = 0, ZF = 1 is taken with CX = 0xFFFF, and ZF = 0 is not taken. -/
theorem test_loopz :
    after (jumpAt 0xE1 0xFB 0 0x40) (fun t => (t.regs.cx, t.regs.ip)) = some (0xFFFF, 0x0D) ∧
      after (jumpAt 0xE1 0xFB 2 0) (fun t => (t.regs.cx, t.regs.ip)) = some (1, 0x12) := by decide

/-- 2.6, LOOP: CX = 2, ZF = 1 is taken, and CX = 1 is not. -/
theorem test_loop :
    after (jumpAt 0xE2 0xFB 2 0x40) (fun t => (t.regs.cx, t.regs.ip, t.flags)) = some (1, 0x0D, 0x40) ∧
      after (jumpAt 0xE2 0xFB 1 0) (fun t => (t.regs.cx, t.regs.ip)) = some (0, 0x12) := by decide

/-- 2.6, JCXZ tests all sixteen bits and changes none. -/
theorem test_jcxz :
    after (jumpAt 0xE3 0xFB 0 0) (fun t => (t.regs.cx, t.regs.ip)) = some (0, 0x0D) ∧
      after (jumpAt 0xE3 0xFB 0x100 0) (fun t => (t.regs.cx, t.regs.ip)) = some (0x100, 0x12) := by decide

/-! ### Fatal conditions and the end of a run, results from sections 2.7, 2.8 and 2.10 -/

/-- 2.8, `F4`: F1, and nothing but STATUS changes. -/
theorem test_fatal_f1 :
    after (start [0xF4] zero 0 []) id =
      some { start [0xF4] zero 0 [] with status := .fault (.unrecognizedOpcode 0xF4) } := by decide

/-- 2.8, `80 C8`: F2 comes before the missing data byte. -/
theorem test_fatal_f2_first :
    after (start [0x80, 0xC8] zero 0 []) (fun t => t.status) = some (.fault (.unsupportedExtension 1)) := by decide

/-- 2.8, `80`: F4 comes before F2 can be examined. -/
theorem test_fatal_f4_first :
    after (start [0x80] zero 0 []) (fun t => t.status) = some (.fault (.truncatedInput 1)) := by decide

/-- 2.8, `C7 06 00 01 34`: the index of the missing data-hi. -/
theorem test_fatal_f4_index :
    after (start [0xC7, 0x06, 0x00, 0x01, 0x34] zero 0 []) (fun t => t.status) =
      some (.fault (.truncatedInput 5)) := by decide

/-- 2.7, `74 FC` with ZF = 1 wraps below index 0 (D6); the fetch there is F5. -/
theorem test_fatal_f5 :
    after (start [0x74, 0xFC] zero 0x40 []) (fun t => t.regs.ip) = some 0xFFFE ∧
      after (start [0x74, 0xFC] { zero with ip := 0xFFFE } 0x40 []) (fun t => t.status) =
        some (.fault (.fetchOutOfRange 0xFFFE)) := by decide

/-- `s` under `fault_on_overflow`. -/
def strict (s : State) : State := { s with opts := { s.opts with eaMode := .faultOnOverflow } }

/-- 2.10, `MOV AX, [BX-1]` with BX = 0: F6 with the address modulo 2^16. -/
theorem test_fatal_f6_address :
    after (strict (start [0x8B, 0x87, 0xFF, 0xFF] zero 0 [])) (fun t => (t.status, t.regs.ip)) =
      some (.fault (.memBounds 0xFFFF), 0) := by decide

/-- 2.10, `MOV [BX], AX` with BX = 0xFFFF: no byte is written. -/
theorem test_fatal_f6_store :
    after (strict (start [0x89, 0x07] { zero with bx := 0xFFFF, ax := 0xA1B2 } 0 [])) (fun t => (t.status, t.mem)) =
      some (.fault (.memBounds 0xFFFF), []) := by decide

/-- 2.10, `MOV AL, [BX]` with BX = 0xFFFF is legal. -/
theorem test_byte_at_top :
    after (strict (start [0x8A, 0x07] { zero with bx := 0xFFFF } 0 [(0xFFFF, 0x11)])) (fun t => t.regs.ax) =
      some 0x0011 := by decide

/-- 2.7, the pc at CODE_LEN halts. -/
theorem test_halts_at_end :
    after (start [0x75, 0x00] { zero with ip := 2 } 0 []) (fun t => t.status) = some .halted := by decide

/-- 2.7, the empty store is Halted from reset; a Halted machine has no step (R236). -/
theorem test_empty_store_halted :
    (State.resetWith [] [] Options.default).status = .halted ∧ step State.reset = .fault .haltedHasNoStep :=
  ⟨rfl, rfl⟩

/-- R237: `decode_only` takes no jump and moves the pc by the length. -/
theorem test_decode_only :
    after { start [0xE2, 0xFE, 0x90] { zero with cx := 5 } 0 [] with
        opts := { Options.default with runMode := .decodeOnly } }
      (fun t => (t.regs.cx, t.regs.ip)) = some (5, 2) := by decide

/-- The placed word of JNE at reset runs as the first instruction: not taken needs ZF = 1, so it is taken. -/
theorem test_fetch_word : after (State.reset.withFetchWord 16 0x7506) (fun t => t.regs.ip) = some 8 := by decide

/-- R51: the record of a store holds the old value (`MOV [BX+SI], word 1`, 95_test_vectors.md section 2.3, with
MEM[0x31] = 0xFF before it). -/
theorem test_record_of_store :
    after (start [0xC7, 0x00, 0x01, 0x00] { zero with bx := 0x10, si := 0x20 } 0 [(0x31, 0xFF)])
        (fun t => t.emitted.map Executed.stored) = some [some ⟨0x30, .word, 0xFF00, 0x0001⟩] := by decide

/-- R156: CMP with a memory operand stores nothing. -/
theorem test_record_of_compare :
    after (start [0x38, 0x27] { zero with ax := 0x8000, bx := 0x0400 } 0 [])
        (fun t => t.emitted.map Executed.stored) = some [none] := by decide

/-! ### Text, results from 95_test_vectors.md sections 1 and 2.1 and 44_sequencer.md R241 -/

/-- 2.1, `81 3E E8 03 34 12`. -/
theorem test_text_memory_immediate :
    instrText (.cmpRmImm (.mem (.direct 1000)) (.word 0x1234)) = "CMP [1000], word 4660" := by decide

/-- 2.1, `8B 82 00 FF`. -/
theorem test_text_displacement :
    instrText (.movRmReg .toReg .ax (.mem (.indirect .bpSi (.d16 0xFF00)))) = "MOV AX, [BP+SI-256]" := by decide

/-- 2.1, `83 C3 FF`: after extension, unsigned, no qualifier for a register (R122). -/
theorem test_text_sext : instrText (.addRmImm (.reg .bx) (.sext 0xFF)) = "ADD BX, 65535" := by decide

/-- 2.1, `75 FE` and `7C 80`: raw displacement plus 2, the sign always written (R126). -/
theorem test_text_target : instrText (.jne 0xFE) = "JNE $+0" ∧ instrText (.jl 0x80) = "JL $-126" := by decide

/-- S1: the trace line of `MOV AX, 5`. -/
theorem test_trace_mov :
    after (start [0xB8, 0x05, 0x00] zero 0 []) (fun t => t.emitted.map traceLine) =
      some ["MOV AX, 5 ; AX:0x0->0x5 ip:0x0->0x3"] := by decide

/-- S2: the trace line of `ADD CL, AL`, with its flag transition. -/
theorem test_trace_add :
    after (start [0x00, 0xC1] { zero with ax := 0x00FF, cx := 1 } 0 []) (fun t => t.emitted.map traceLine) =
      some ["ADD CL, AL ; CX:0x1->0x0 ip:0x0->0x2 flags:->CPAZ"] := by decide

/-! ### Witnesses: the hypotheses of the obligations can be met, clause by clause, at their boundaries -/

/-- A running machine over one byte of code. -/
def one (b : Byte) : State := start [b] zero 0 []

/-- `fault_on_overflow`, BX = 0xFFFE, SI = 1: a word at [BX] and a byte at [BX+SI] are the last that fit. -/
def top : State := strict (start [0x90] { zero with bx := 0xFFFE, si := 1 } 1 [(0xFFFF, 1)])

/-- [BX]. -/
def atBx : RM := .mem (.indirect .bx .none)

/-- [BX+SI]. -/
def atBxSi : RM := .mem (.indirect .bxSi .none)

theorem witness_top_mem_wf : top.mem.wf = true := by decide

theorem witness_word_at_65534 : accessible top (rmLoc .word atBx) := .inr ⟨by decide, by decide⟩

theorem witness_byte_at_65535 : accessible top (rmLoc .byte atBxSi) := .inr ⟨by decide, by decide⟩

theorem witness_wrap16_everywhere : accessible (one 0x90) (rmLoc .word (.mem (.direct 0xFFFF))) := .inl rfl

theorem witness_register_always : accessible top (rmLoc .byte (.reg .bh)) := trivial

/-- RegisterWriteReplacesSlotOrHalf: two registers. -/
theorem witness_other_register : Reg.ip ≠ Reg.ax := by decide

/-- MemoryReadIsLittleEndian, MemoryWriteStoresOnlyItsBytes: the last word without wrapping, and the wrapping one. -/
theorem witness_memory_bounds :
    (EaMode.faultOnOverflow = .wrap16 ∨ (0xFFFE : Word) ≠ 0xFFFF) ∧
      (EaMode.wrap16 = .wrap16 ∨ (0xFFFF : Word) ≠ 0xFFFF) ∧
      Memory.wf [(0, 0xFF), (65535, 1)] = true := by decide

/-- MixedWidthAccessSeesOverlay, at the address that wraps. -/
theorem witness_mixed_width :
    Memory.wf [] = true ∧ memWrite .wrap16 [] 0xFFFF 0xBEEF .word = .ok (0, [(0, 0xBE), (65535, 0xEF)]) := by decide

/-- DecodeOfEncodeIsIdentity: well-formed instructions of the shortest and the longest form, and of both address sizes. -/
theorem witness_well_formed :
    (Instr.jcxz 0x80).wf .byW = true ∧ (Instr.cmpRmImm (.mem (.direct 0xFFFF)) (.word 0xFFFF)).wf .byW = true ∧
      (Instr.movAccMem .byte (.a8 0xFF)).wf .byW = true ∧
      (Instr.movAccMem .byte (.a16 0xFFFF)).wf .always16 = true := by decide

/-- DecodedLengthIsBytesConsumed, FirstTwoBytesSettleLength, MalformedModIsNeverRaised: streams that decode. -/
theorem witness_decodes :
    decode .byW { index := 7, rest := [0x83, 0xC3, 0x0A, 0x90] } =
        .ok (.addRmImm (.reg .bx) (.sext 10), { index := 10, rest := [0x90] }) ∧
      decode .byW { index := 0, rest := [0x83, 0xC3, 0xFF] } =
        .ok (.addRmImm (.reg .bx) (.sext 0xFF), { index := 3, rest := [] }) := by decide

/-- LookupFindsLongestMatch, UnrecognizedFirstBytes: a hit and a miss. -/
theorem witness_lookup : lookup 0xB8 = some .movRegImm ∧ lookup 0x8D = none ∧ lookup 0xE4 = none := by decide

/-- ExtensionFieldSelectsOperation: `83 F0` has extension 110. -/
theorem witness_extension :
    (0x83 : Byte) ∈ ([0x80, 0x81, 0x82, 0x83] : List Byte) ∧
      (0xF0 : Byte).extractLsb' 3 3 ∈ ([0b001, 0b100, 0b110] : List (BitVec 3)) := by decide

/-- AccumulatorAddressSize: both ways to two address bytes. -/
theorem witness_two_address_bytes :
    (AccAddrMode.always16 = .always16 ∨ Width.byte = .word) ∧ (AccAddrMode.byW = .always16 ∨ Width.word = .word) := by
  decide

/-- RedundantEncodings: first bytes, and two registers of one width. -/
theorem witness_redundant :
    (0xC7 : Byte) ∈ ([0xC6, 0xC7] : List Byte) ∧ (0x8C : Byte) ∈ ([0x8C, 0x8E] : List Byte) ∧
      GReg.width .ah = GReg.width .bl := by decide

/-- UnrecognizedOpcodeStopsMachine. -/
theorem witness_unrecognized :
    (one 0x90).status = .running ∧ (one 0x90).code.length ≤ 65535 ∧
      (one 0x90).code[(one 0x90).regs.ip.toNat]? = some 0x90 ∧ lookup 0x90 = none := by decide

/-- TruncatedInstructionRaisesF4: all of the instruction but its last byte; and a decoding that meets F4. -/
theorem witness_truncated :
    (Instr.movRegImm .ax (.word 1)).wf .byW = true ∧ 2 < (Instr.movRegImm .ax (.word 1)).length ∧
      decode .byW { index := 3, rest := [0xB8, 0x01] } = .error (.truncatedInput 5) := by decide

/-- MovRegisterAndImmediateForms, AddForms, SubForms, CmpFormsWriteNothing: RMREG, both directions, both widths. -/
theorem witness_rmReg :
    (Instr.movRmReg .toRm .ax atBx).wf .byW = true ∧ (Instr.movRmReg .toReg .bl atBxSi).wf .byW = true ∧
      (Instr.addRmReg .toRm .bx atBx).wf .byW = true ∧ (Instr.subRmReg .toReg .ah atBxSi).wf .byW = true ∧
      (Instr.cmpRmReg .toRm .si (.reg .si)).wf .byW = true := by decide

/-- The same obligations and AdcAndSbbHonourCarryIn: the immediate forms. -/
theorem witness_immediate :
    (Instr.movRmImm atBx (.word 0xFFFF)).wf .byW = true ∧ (Instr.movRegImm .bh (.byte 0xFF)).wf .byW = true ∧
      (Instr.addRmImm atBx (.sext 0x80)).wf .byW = true ∧ (Instr.adcRmImm atBxSi (.byte 0xFF)).wf .byW = true ∧
      (Instr.subRmImm (.reg .bh) (.byte 1)).wf .byW = true ∧ (Instr.sbbRmImm atBx (.word 0)).wf .byW = true ∧
      (Instr.cmpRmImm (.reg .bx) (.sext 0xFF)).wf .byW = true := by decide

/-- MovAccumulatorAndSegmentForms. -/
theorem witness_accumulator_segment :
    (Instr.movAccMem .byte (.a8 0xFF)).wf .byW = true ∧ (Instr.movMemAcc .word (.a16 0xFFFE)).wf .byW = true ∧
      (Instr.movRmSeg atBx .cs).wf .byW = true ∧ (Instr.movSegRm .ss (.reg .sp)).wf .byW = true := by decide

theorem witness_accumulator_accessible :
    accessible top (.mem .byte (.direct (accAddrValue (.a8 0xFF)))) ∧
      accessible top (.mem .word (.direct (accAddrValue (.a16 0xFFFE)))) :=
  ⟨.inr ⟨by decide, by decide⟩, .inr ⟨by decide, by decide⟩⟩

/-- MemBoundsLeavesOnlyStatus: a word at 0xFFFF (as destination), and a sum of 65536 (as source of a byte). -/
theorem witness_not_accessible_word : ¬ accessible top (rmLoc .word atBxSi) := by
  rintro (h | ⟨-, h⟩)
  · exact absurd h (by decide)
  · exact absurd h (by decide)

theorem witness_not_accessible_byte : ¬ accessible top (rmLoc .byte (.mem (.indirect .bx (.d8 2)))) := by
  rintro (h | ⟨-, h⟩)
  · exact absurd h (by decide)
  · exact absurd h (by decide)

theorem witness_mem_bounds_forms :
    instruction (.addRmImm atBxSi (.sext 1)) = ⟨.add, .two (rmLoc .word atBxSi) (.imm .word 1)⟩ ∧
      instruction (.movRmReg .toReg .al (.mem (.indirect .bx (.d8 2)))) =
        ⟨.mov, .two (.reg .byte .ax false) (.loc (rmLoc .byte (.mem (.indirect .bx (.d8 2)))))⟩ := by decide

/-- The flag engine's obligations: both widths, at the greatest operands. -/
theorem witness_widths :
    (8 = 8 ∨ 8 = 16) ∧ (255 : Word).toNat < 2 ^ 8 ∧ (16 = 8 ∨ 16 = 16) ∧ (65535 : Word).toNat < 2 ^ 16 := by decide

/-- ArithmeticIdentities, last clause: ZF set, from a raw result of 256 at 8 bits. -/
theorem witness_zero_flag : flag (computeFlags .add 0 0x80 0x80 256 8) 6 = true := by decide

/-- AdcAndSbbWithoutCarry. -/
theorem witness_no_carry : (one 0x90).flags.getLsbD 0 = false := by decide

/-- NegatedJumpsAreComplementary. -/
theorem witness_displacement : (0x80 : Byte) ≠ 0 := by decide

/-- LoopFamilyEffects and LoopFamilyRefused: the two settings. -/
theorem witness_loop_exec :
    (one 0xE2).opts.loopExec = .i8086 ∧
      ({ one 0xE2 with opts := { Options.default with loopExec := .refuse } } : State).opts.loopExec = .refuse := by
  decide

/-- A code store that holds `JO $+2` (not taken from reset) and nothing else. -/
def jo : State := start [0x70, 0x00] zero 0 []

/-- StepRunsDecodedInstruction, SequentialAdvanceNeverWraps. -/
theorem witness_step_runs :
    jo.status = .running ∧ jo.code.length ≤ 65535 ∧ jo.opts.runMode = .simulate ∧
      decodeAt jo.opts.accAddr jo.code jo.regs.ip.toNat = .ok (.jo 0) := by decide

/-- StepRunsDecodedInstruction, its second clause: a fetch that raises F1, and decodings that raise F2 and F4. -/
theorem witness_decode_error :
    (one 0x90).status = .running ∧ (one 0x90).code.length ≤ 65535 ∧
      (one 0x90).regs.ip.toNat < (one 0x90).code.length ∧
      decodeAt .byW (one 0x90).code 0 = .error (.unrecognizedOpcode 0x90) ∧
      decodeAt .byW (start [0x80, 0xC8] zero 0 []).code 0 = .error (.unsupportedExtension 1) ∧
      decodeAt .byW (one 0xB8).code 0 = .error (.truncatedInput 1) := by decide

/-- DecodeOnlyWalksLinearly. -/
theorem witness_decode_only :
    ({ jo with opts := { Options.default with runMode := .decodeOnly } } : State).opts.runMode = .decodeOnly ∧
      decodeAt jo.opts.accAddr jo.code jo.regs.ip.toNat = .ok (.jo 0) := by decide

/-- EndTestHaltsOrFaults: `pc = CODE_LEN`, and one beyond it. -/
theorem witness_end_test :
    ({ jo with regs := { zero with ip := 2 } } : State).regs.ip.toNat = jo.code.length ∧
      ({ jo with regs := { zero with ip := 3 } } : State).regs.ip.toNat > jo.code.length := by decide

/-- StoppedMachineHasNoStep: the two stopped states, and a state with a step. -/
theorem witness_stopped :
    State.reset.status = .halted ∧ (jo.raise (.fetchOutOfRange 3)).status = .fault (.fetchOutOfRange 3) ∧
      after jo (fun t => t.status) = some .running := by decide

/-- FatalStepChangesOnlyStatus, OneRecordPerCompletedStep: F1 in fetch, F6 in apply. -/
theorem witness_fatal_step :
    after (one 0x90) (fun t => t.status) = some (.fault (.unrecognizedOpcode 0x90)) ∧
      after (strict (start [0x8B, 0x07] { zero with bx := 0xFFFF } 0 [])) (fun t => t.status) =
        some (.fault (.memBounds 0xFFFF)) := by decide

/-- HaltedOnlyAtCodeEnd, both clauses: a running machine at `pc = CODE_LEN`, whose step ends Halted. -/
theorem witness_halting_step :
    after { jo with regs := { zero with ip := 2 } } id =
      some { jo with regs := { zero with ip := 2 }, status := .halted } ∧
    jo.status = .running ∧ jo.code.length ≤ 65535 ∧ jo.code.length = 2 := by decide

/-- OverlongCodeIsRefused: one byte too many. -/
theorem witness_overlong : (List.replicate 65536 (0 : Byte)).length > 65535 := by
  rw [List.length_replicate]; decide

/-- ResetMeetsInvariant: the longest code store. -/
theorem witness_longest_code : (List.replicate 65535 (0 : Byte)).length ≤ 65535 := by
  rw [List.length_replicate]

/-- StepKeepsInvariant: a running state of the invariant, with memory, that has a step. -/
theorem witness_invariant : (start [0x01, 0x07] { zero with ax := 1, bx := 0xFFFF } 1 [(0xFFFF, 0xFF)]).Inv := by
  refine ⟨by decide, by decide, by decide, by decide, ?_⟩
  intro c h
  cases h

theorem witness_invariant_step :
    after (start [0x01, 0x07] { zero with ax := 1, bx := 0xFFFF } 1 [(0xFFFF, 0xFF)]) (fun t => t.mem) =
      some [(0, 1)] := by decide

/-- CodeAndOptionsNeverChange, OneRecordPerCompletedStep: a step of a running machine. -/
theorem witness_running_step : after jo (fun t => (t.status, t.emitted.length)) = some (.running, 1) := by decide

/-- RecordHoldsOldMemoryValue: a `simulate` step of an instruction with a memory destination that stays running. -/
theorem witness_store_step :
    (start [0x89, 0x07] { zero with bx := 0xFFFF, ax := 0xA1B2 } 0 []).opts.runMode = .simulate ∧
      after (start [0x89, 0x07] { zero with bx := 0xFFFF, ax := 0xA1B2 } 0 []) (fun t => t.status) = some .running ∧
      writtenLoc (.movRmReg .toRm .ax atBx) = some (rmLoc .word atBx) := by decide

/-- OnlyArithmeticWritesFlags and OnlyJumpsRedirectThePc: mnemonics of both kinds, and an `exec` that answers. -/
theorem witness_mnemonics :
    (instruction (.jo 0)).mnemonic ∉ [Mnemonic.add, .adc, .sub, .sbb, .cmp] ∧
      (instruction (.movRegImm .ax (.word 5))).mnemonic ∈ [Mnemonic.mov, .add, .adc, .sub, .sbb, .cmp] := by decide

theorem witness_exec_answers :
    exec (.jo 0) jo = .next (jo.setIp 2) ∧
      exec (.movRegImm .ax (.word 5)) jo = .next { jo with regs := { zero with ax := 5, ip := 3 } } := ⟨rfl, rfl⟩

/-- SegmentRegistersAreStorageOnly: an instruction that is neither segment form. -/
theorem witness_not_segment_form :
    (∀ rm sr, Instr.addAccImm (.byte 1) ≠ .movRmSeg rm sr) ∧ (∀ sr rm, Instr.addAccImm (.byte 1) ≠ .movSegRm sr rm) :=
  ⟨fun _ _ h => (by cases h), fun _ _ h => (by cases h)⟩

/-- FlagStringShowsSixFlags: all six flags set, no other bit. -/
theorem witness_six_flags : ∀ b ∈ reservedBits, (0x08D5 : Word).getLsbD b = false := by decide

end Sys2Proof.Tests
end

section
/-!
PROOFS. The statements about the architectural state: the register file (10_state.md R22, R23), what a step never changes
(R29, R280), who writes FLAGS and the pc (R24, R25), the segment registers (R27), and the invariant of a run (R26).
-/

namespace Sys2Proof.Machine

/-! ### The register file (R22, R23) -/

/-- Settles O1: the three views are those of `regRead`, and the eight byte codes are run through. -/
theorem registerReadReturnsSlotOrHalf : Obligations.RegisterReadReturnsSlotOrHalf :=
  ⟨fun _ _ _ => rfl, fun _ _ => rfl, fun _ _ => rfl, by decide⟩

/-- Settles O2: the laws of `setReg`, which `regWrite` returns beside the prior slot. -/
theorem registerWriteReplacesSlotOrHalf : Obligations.RegisterWriteReplacesSlotOrHalf := by
  refine ⟨fun x r h v => ?word, fun x r v => ⟨?high, ?keepsLow⟩, fun x r v => ⟨?low, ?keepsHigh⟩,
    fun x w r h v q hq => ?other, fun _ _ _ _ _ => rfl⟩
  case word => exact RegFile.get_set_same x r v
  case high => simp [setReg]
  case keepsLow => exact setReg_otherHalf x r true v
  case low => simp [setReg]
  case keepsHigh => exact setReg_otherHalf x r false v
  case other => exact setReg_get_ne x w h v hq

/-! ### Which shared meaning `exec` gives an instruction -/

/-- The mnemonic of each arithmetic operation (R127, R150). -/
def ArithOp.mnemonic : ArithOp → Mnemonic
  | .add => .add
  | .adc => .adc
  | .sub => .sub
  | .sbb => .sbb
  | .cmp => .cmp

/-- The mnemonics of the instructions with two operands: MOV and the five arithmetic operations. -/
def twoOperandMnemonics : List Mnemonic := [.mov, .add, .adc, .sub, .sbb, .cmp]

/-- The meaning `exec` gives `i`, with the operands of its Instruction value (R90): a MOV, an arithmetic operation, a jump
on a condition that reads no register, a loop whose test reads no register, or JCXZ. -/
inductive ExecShape (i : Instr) : Prop where
  | mov (dst : Loc) (src : Operand) (hi : instruction i = ⟨.mov, .two dst src⟩)
    (he : ∀ s, exec i s = move dst src i.length s)
  | arith (op : ArithOp) (dst : Loc) (src : Operand) (hi : instruction i = ⟨op.mnemonic, .two dst src⟩)
    (he : ∀ s, exec i s = arith op dst src i.length s)
  | jump (cond : State → Bool) (disp : Byte) (hm : (instruction i).mnemonic ∉ twoOperandMnemonics)
    (hc : ∀ s x, cond { s with regs := x } = cond s) (he : ∀ s, exec i s = jumpIf (cond s) disp s)
  | loop (test : State → Bool) (disp : Byte) (hm : (instruction i).mnemonic ∉ twoOperandMnemonics)
    (ht : ∀ s x, test { s with regs := x } = test s)
    (he : ∀ s, exec i s = loopExec (instruction i).mnemonic (loopStep (test s) disp s) s)
  | jcxz (disp : Byte) (hm : (instruction i).mnemonic ∉ twoOperandMnemonics)
    (he : ∀ s, exec i s = loopExec (instruction i).mnemonic (jumpTo (s.regs.cx == 0) disp s) s)

theorem exec_shape (i : Instr) : ExecShape i := by
  cases i with
  | movRmReg | movRmImm | movRegImm | movAccMem | movMemAcc | movRmSeg | movSegRm =>
    exact .mov _ _ rfl fun _ => rfl
  | addRmReg | addAccImm | addRmImm => exact .arith .add _ _ rfl fun _ => rfl
  | adcRmImm => exact .arith .adc _ _ rfl fun _ => rfl
  | subRmReg | subAccImm | subRmImm => exact .arith .sub _ _ rfl fun _ => rfl
  | sbbRmImm => exact .arith .sbb _ _ rfl fun _ => rfl
  | cmpRmReg | cmpAccImm | cmpRmImm => exact .arith .cmp _ _ rfl fun _ => rfl
  | jo | jno | jb | jnb | je | jne | jbe | jnbe | js | jns | jp | jnp | jl | jnl | jle | jnle =>
    exact .jump _ _ (by simp [instruction, twoOperandMnemonics]) (fun _ _ => rfl) fun _ => rfl
  | loopnz | loopz | loop =>
    exact .loop _ _ (by simp [instruction, twoOperandMnemonics]) (fun _ _ => rfl) fun _ => rfl
  | jcxz => exact .jcxz _ (by simp [instruction, twoOperandMnemonics]) fun _ => rfl

/-- No instruction has the pc as its destination operand (R24). -/
theorem instruction_dst_noIp {i : Instr} {dst : Loc} {src : Operand} {mn : Mnemonic}
    (h : instruction i = ⟨mn, .two dst src⟩) : locNoIp dst := by
  cases i with
  | movRmReg | addRmReg | subRmReg | cmpRmReg => cases h; exact rmRegDst_noIp ..
  | movRmImm | movRmSeg | addRmImm | adcRmImm | subRmImm | sbbRmImm | cmpRmImm => cases h; exact rmLoc_noIp ..
  | movRegImm => cases h; exact gregLoc_noIp _
  | movAccMem | addAccImm | subAccImm | cmpAccImm => cases h; exact accLoc_noIp _
  | movMemAcc => cases h; exact accMemLoc_noIp ..
  | movSegRm => cases h; exact segLoc_noIp _
  | _ => cases h

/-! ### Who writes FLAGS and the pc (R24, R25) -/

theorem move_flags {dst : Loc} {src : Operand} {n : Nat} {s t : State} (h : move dst src n s = .next t) :
    t.flags = s.flags := by
  rcases move_cases h with ⟨c, -, rfl⟩ | ⟨v, -, hw⟩
  · rfl
  · exact (writeLoc_flags hw).trans (State.advance_flags s n)

theorem jumpIf_flags {c : Bool} {disp : Byte} {s t : State} (h : jumpIf c disp s = .next t) : t.flags = s.flags := by
  cases h
  exact jumpTo_flags c disp s

theorem loopExec_flags {mn : Mnemonic} {u s t : State} (hu : u.flags = s.flags) (h : loopExec mn u s = .next t) :
    t.flags = s.flags := by
  obtain ⟨-, rfl⟩ := loopExec_cases h
  exact hu

theorem loopStep_flags (test : Bool) (disp : Byte) (s : State) : (loopStep test disp s).flags = s.flags := by
  simp [loopStep]

/-- A MOV moves the pc past its length, or raises F6 and changes only STATUS. -/
theorem move_ip {dst : Loc} {src : Operand} {n : Nat} {s t : State} (hd : locNoIp dst)
    (h : move dst src n s = .next t) : t.regs.ip = s.regs.ip + BitVec.ofNat 16 n ∨ ∃ c, t = s.raise c := by
  rcases move_cases h with ⟨c, -, rfl⟩ | ⟨v, -, hw⟩
  · exact .inr ⟨c, rfl⟩
  · exact .inl (writeLoc_ip hd hw)

/-- An arithmetic instruction moves the pc past its length, or raises F6 and changes only STATUS. -/
theorem arith_ip {op : ArithOp} {dst : Loc} {src : Operand} {n : Nat} {s t : State} (hd : locNoIp dst)
    (h : arith op dst src n s = .next t) : t.regs.ip = s.regs.ip + BitVec.ofNat 16 n ∨ ∃ c, t = s.raise c := by
  rcases arith_cases h with ⟨c, -, rfl⟩ | ⟨sv, dv, s2, -, -, hw, rfl⟩
  · exact .inr ⟨c, rfl⟩
  · rcases writeBack_cases hw with ⟨-, hw⟩ | ⟨-, rfl⟩
    · exact .inl (writeLoc_ip hd hw)
    · exact .inl rfl

theorem ArithOp.mnemonic_mem (op : ArithOp) : op.mnemonic ∈ [Mnemonic.add, .adc, .sub, .sbb, .cmp] := by
  cases op <;> decide

/-- Settles O57, by the meaning the instruction has: only the arithmetic one writes FLAGS. -/
theorem onlyArithmeticWritesFlags : Obligations.OnlyArithmeticWritesFlags := by
  intro i s t hm h
  cases exec_shape i with
  | mov dst src hi he => exact move_flags (he s ▸ h)
  | arith op dst src hi he => exact absurd (by rw [hi]; exact op.mnemonic_mem) hm
  | jump cond disp _ hc he => exact jumpIf_flags (he s ▸ h)
  | loop test disp _ ht he => exact loopExec_flags (loopStep_flags ..) (he s ▸ h)
  | jcxz disp _ he => exact loopExec_flags (jumpTo_flags ..) (he s ▸ h)

/-- Settles O58, by the meaning the instruction has: a MOV or an arithmetic operation never has the pc as its
destination. -/
theorem onlyJumpsRedirectThePc : Obligations.OnlyJumpsRedirectThePc := by
  intro i s t hm h
  cases exec_shape i with
  | mov dst src hi he => exact move_ip (instruction_dst_noIp hi) (he s ▸ h)
  | arith op dst src hi he => exact arith_ip (instruction_dst_noIp hi) (he s ▸ h)
  | jump _ _ hn | loop _ _ hn | jcxz _ hn => exact absurd hm hn

/-! ### What a step never changes (R29, R63, R280) -/

/-- Settles O56, by the cases of a step. -/
theorem codeAndOptionsNeverChange : Obligations.CodeAndOptionsNeverChange := by
  intro s t h
  obtain ⟨-, -, ⟨-, rfl⟩ | ⟨-, rfl⟩ | ⟨-, ⟨c, -, rfl⟩ | ⟨i, -, ⟨-, rfl⟩ | ⟨-, u, hu, rfl⟩⟩⟩⟩ := step_cases h
  · exact ⟨rfl, rfl⟩
  · exact ⟨rfl, rfl⟩
  · exact ⟨rfl, rfl⟩
  · simp [walk]
  · obtain ⟨hcode, hopts, -⟩ := exec_keeps hu
    simp [hcode, hopts]

/-! ### The invariant of a run (R26, R29, R238, R253, R258) -/

theorem State.Inv.raise {s : State} {c : Fatal} (hi : s.Inv) (hc : fatalPossible s.opts c) : (s.raise c).Inv where
  memWf := hi.memWf
  codeFits := hi.codeFits
  reservedZero := hi.reservedZero
  haltedAtEnd h := by cases h
  faultPossible d h := by cases h; exact hc

theorem State.Inv.halt {s : State} (hi : s.Inv) (hip : s.regs.ip.toNat = s.code.length) : s.halt.Inv where
  memWf := hi.memWf
  codeFits := hi.codeFits
  reservedZero := hi.reservedZero
  haltedAtEnd _ := hip
  faultPossible c h := by cases h

/-- The record of a step is outside the invariant. -/
theorem State.Inv.retire {t : State} (hi : t.Inv) (i : Instr) (d : Option Loc) (s : State) :
    (Machine.retire i d s t).Inv := by
  obtain ⟨hm, hc, hr, hh, hf⟩ := hi
  constructor <;> simpa

/-- A state that runs on needs only the memory, the code store and the reserved flag bits. -/
theorem State.Inv.of_running {s t : State} (hi : s.Inv) (hs : t.status = .running) (hm : t.mem.wf = true)
    (hc : t.code = s.code) (hf : ∀ b ∈ reservedBits, t.flags.getLsbD b = s.flags.getLsbD b) : t.Inv where
  memWf := hm
  codeFits := hc ▸ hi.codeFits
  reservedZero b hb := (hf b hb).trans (hi.reservedZero b hb)
  haltedAtEnd h := by rw [hs] at h; cases h
  faultPossible c h := by rw [hs] at h; cases h

theorem isBounds.fatalPossible {s : State} {c : Fatal} (h : isBounds s c) : fatalPossible s.opts c := by
  obtain ⟨⟨a, rfl⟩, hmode⟩ := h
  exact hmode

/-- A reader of the code store raises neither F3 nor F6. -/
theorem reads_error_fatalPossible {α : Type} {c : Cursor} {len : α → Nat} {P : α → Prop} {e : Fatal} (o : Options)
    (h : Reads c len P (.error e)) : fatalPossible o e := by
  cases e with
  | malformedMod _ => exact h
  | memBounds _ => exact False.elim h
  | _ => trivial

theorem fetchInstr_error_fatalPossible {s : State} {c : Fatal} (h : fetchInstr s = .error c) :
    fatalPossible s.opts c := by
  have hr := decode_reads s.opts.accAddr (Cursor.start s.code s.regs.ip.toNat)
  unfold fetchInstr decodeAt at h
  split at h
  next => cases h
  next e he =>
    cases h
    rw [he] at hr
    exact reads_error_fatalPossible s.opts hr

theorem computeFlags_reserved (kind : AluKind) (f d s : Word) (raw : Int) (n : Nat) {b : Nat} (hb : b ∈ reservedBits) :
    (computeFlags kind f d s raw n).getLsbD b = f.getLsbD b := by
  have hsplit : ∀ b ∈ reservedBits, b < 16 ∧ b ∉ flagBits := by decide
  obtain ⟨hlt, hnot⟩ := hsplit b hb
  exact computeFlags_getLsbD_of_not_mem kind f d s raw n hlt hnot

theorem Effect.mem_wf {s t : State} (e : Effect s t) (hm : s.mem.wf = true) : t.mem.wf = true := by
  cases e with
  | fatal => exact hm
  | moved n dst v t hd hw => exact writeLoc_mem_wf (s := s.advance n) hm hw
  | compared => exact hm
  | computed n dst v t kind dv sv raw w hd hw =>
    show t.mem.wf = true
    exact writeLoc_mem_wf (s := s.advance n) hm hw
  | jumped => simpa using hm
  | looped => simpa [loopStep] using hm

/-- No instruction changes a reserved bit of FLAGS (R26). -/
theorem Effect.reserved {s t : State} (e : Effect s t) {b : Nat} (hb : b ∈ reservedBits) :
    t.flags.getLsbD b = s.flags.getLsbD b := by
  cases e with
  | fatal => rfl
  | moved n dst v t hd hw => rw [writeLoc_flags hw, State.advance_flags]
  | compared | computed => exact computeFlags_reserved _ _ _ _ _ _ hb
  | jumped => rw [jumpTo_flags]
  | looped => rw [loopStep_flags]

/-- An instruction of a running machine keeps the invariant, whether it completes or raises F6. -/
theorem exec_keeps_inv {i : Instr} {s t : State} (hi : s.Inv) (hs : s.status = .running) (h : exec i s = .next t) :
    t.Inv := by
  obtain ⟨hcode, -, ⟨hstatus, -⟩ | ⟨c, hc, rfl⟩⟩ := exec_keeps h
  · have e := exec_effect h
    exact hi.of_running (hstatus.trans hs) (e.mem_wf hi.memWf) hcode fun b hb => e.reserved hb
  · exact hi.raise hc.fatalPossible

/-- Settles O55, by the cases of a step. -/
theorem stepKeepsInvariant : Obligations.StepKeepsInvariant := by
  intro s t hi h
  obtain ⟨hs, -, ⟨hip, rfl⟩ | ⟨-, rfl⟩ | ⟨-, ⟨c, hc, rfl⟩ | ⟨i, -, ⟨-, rfl⟩ | ⟨-, u, hu, rfl⟩⟩⟩⟩ := step_cases h
  · exact hi.halt hip
  · exact hi.raise trivial
  · exact hi.raise (fetchInstr_error_fatalPossible hc)
  · have hw : (walk i s).Inv := hi.of_running hs hi.memWf rfl fun _ _ => rfl
    exact hw.retire i none s
  · exact (exec_keeps_inv hi hs hu).retire i _ s

/-! ### The segment registers are storage only (R27) -/

/-- The four segment slots (R20, R89). -/
def segSlots : List Reg := [.es, .cs, .ss, .ds]

/-- The address names no segment register. -/
def refNoSeg : MemRef → Prop
  | .direct _ => True
  | .indirect base index _ => base ∉ segSlots ∧ ∀ r, index = some r → r ∉ segSlots

/-- The descriptor reads and writes no segment register. -/
def locNoSeg : Loc → Prop
  | .reg _ r _ => r ∉ segSlots
  | .mem _ m => refNoSeg m

def operandNoSeg : Operand → Prop
  | .loc l => locNoSeg l
  | .imm _ _ => True

theorem gregLoc_noSeg (r : GReg) : locNoSeg (gregLoc r) := by
  cases r <;> simp [gregLoc, gregSlot, locNoSeg, segSlots]

theorem rmLoc_noSeg (w : Width) (rm : RM) : locNoSeg (rmLoc w rm) := by
  cases rm with
  | reg r => exact gregLoc_noSeg r
  | mem m =>
    cases m with
    | direct a => trivial
    | indirect p d => cases p <;> simp [rmLoc, memRef, pairRegs, locNoSeg, refNoSeg, segSlots]

theorem accLoc_noSeg (w : Width) : locNoSeg (accLoc w) := gregLoc_noSeg _

theorem accMemLoc_noSeg (w : Width) (a : AccAddr) : locNoSeg (accMemLoc w a) := trivial

theorem rmReg_noSeg (d : Dir) (reg : GReg) (rm : RM) :
    locNoSeg (rmRegDst d reg rm) ∧ locNoSeg (rmRegSrc d reg rm) := by
  cases d with
  | toRm => exact ⟨rmLoc_noSeg _ _, gregLoc_noSeg _⟩
  | toReg => exact ⟨gregLoc_noSeg _, rmLoc_noSeg _ _⟩

theorem immOperand_noSeg (i : Imm) : operandNoSeg (immOperand i) := by cases i <;> trivial

theorem arithImmOperand_noSeg (i : ArithImm) : operandNoSeg (arithImmOperand i) := by cases i <;> trivial

/-- Only the two segment forms of MOV name a segment register (R89, R135, R136). -/
theorem instruction_noSeg {i : Instr} {dst : Loc} {src : Operand} {mn : Mnemonic}
    (hst : ∀ rm sr, i ≠ .movRmSeg rm sr) (hld : ∀ sr rm, i ≠ .movSegRm sr rm)
    (h : instruction i = ⟨mn, .two dst src⟩) : locNoSeg dst ∧ operandNoSeg src := by
  cases i with
  | movRmReg | addRmReg | subRmReg | cmpRmReg => cases h; exact rmReg_noSeg ..
  | movRmImm => cases h; exact ⟨rmLoc_noSeg .., immOperand_noSeg _⟩
  | movRegImm => cases h; exact ⟨gregLoc_noSeg _, immOperand_noSeg _⟩
  | movAccMem w a => cases h; exact ⟨accLoc_noSeg w, accMemLoc_noSeg w a⟩
  | movMemAcc w a => cases h; exact ⟨accMemLoc_noSeg w a, accLoc_noSeg w⟩
  | movRmSeg rm sr => exact absurd rfl (hst rm sr)
  | movSegRm sr rm => exact absurd rfl (hld sr rm)
  | addAccImm | subAccImm | cmpAccImm => cases h; exact ⟨accLoc_noSeg _, immOperand_noSeg _⟩
  | addRmImm | adcRmImm | subRmImm | sbbRmImm | cmpRmImm => cases h; exact ⟨rmLoc_noSeg .., arithImmOperand_noSeg _⟩
  | _ => cases h

section
variable (s : State) (es cs ss ds : Word)

@[simp] theorem State.withSegs_flags : (s.withSegs es cs ss ds).flags = s.flags := rfl
@[simp] theorem State.withSegs_mem : (s.withSegs es cs ss ds).mem = s.mem := rfl
@[simp] theorem State.withSegs_opts : (s.withSegs es cs ss ds).opts = s.opts := rfl

@[simp] theorem State.withSegs_advance (n : Nat) :
    (s.withSegs es cs ss ds).advance n = (s.advance n).withSegs es cs ss ds := rfl

theorem State.withSegs_get {r : Reg} (h : r ∉ segSlots) : (s.withSegs es cs ss ds).regs.get r = s.regs.get r := by
  cases r with
  | es | cs | ss | ds => simp [segSlots] at h
  | _ => rfl

theorem State.withSegs_set {r : Reg} (h : r ∉ segSlots) (v : Word) :
    { s.withSegs es cs ss ds with regs := (s.withSegs es cs ss ds).regs.set r v } =
      { s with regs := s.regs.set r v }.withSegs es cs ss ds := by
  cases r with
  | es | cs | ss | ds => simp [segSlots] at h
  | _ => rfl

theorem addressSum_withSegs {base : Reg} {index : Option Reg} {disp : Word}
    (h : refNoSeg (.indirect base index disp)) :
    addressSum (s.withSegs es cs ss ds).regs base index disp = addressSum s.regs base index disp := by
  obtain ⟨hbase, hindex⟩ := h
  cases index with
  | none => simp only [addressSum, State.withSegs_get s es cs ss ds hbase]
  | some r =>
    simp only [addressSum, State.withSegs_get s es cs ss ds hbase, State.withSegs_get s es cs ss ds (hindex r rfl)]

theorem effectiveAddress_withSegs (mode : EaMode) {m : MemRef} (h : refNoSeg m) :
    effectiveAddress mode (s.withSegs es cs ss ds).regs m = effectiveAddress mode s.regs m := by
  cases m with
  | direct a => rfl
  | indirect b i d => simp only [effectiveAddress, addressSum_withSegs s es cs ss ds h]

theorem readLoc_withSegs {l : Loc} (h : locNoSeg l) : readLoc (s.withSegs es cs ss ds) l = readLoc s l := by
  cases l with
  | reg w r hi => simp only [readLoc, regRead, State.withSegs_get s es cs ss ds h]
  | mem w m =>
    simp only [readLoc, State.withSegs_opts, State.withSegs_mem, effectiveAddress_withSegs s es cs ss ds _ h]

theorem readOperand_withSegs {o : Operand} (h : operandNoSeg o) :
    readOperand (s.withSegs es cs ss ds) o = readOperand s o := by
  cases o with
  | loc l => exact readLoc_withSegs s es cs ss ds h
  | imm w v => rfl

theorem setReg_withSegs (w : Width) {r : Reg} (hi : Bool) (v : Word) (h : r ∉ segSlots) :
    { s.withSegs es cs ss ds with regs := setReg (s.withSegs es cs ss ds).regs w r hi v } =
      { s with regs := setReg s.regs w r hi v }.withSegs es cs ss ds := by
  cases w with
  | word => exact State.withSegs_set s es cs ss ds h v
  | byte =>
    simp only [setReg, State.withSegs_get s es cs ss ds h]
    cases hi <;> exact State.withSegs_set s es cs ss ds h _

theorem writeLoc_withSegs {l : Loc} (h : locNoSeg l) (v : Word) :
    writeLoc (s.withSegs es cs ss ds) l v = (writeLoc s l v).map fun t => t.withSegs es cs ss ds := by
  cases l with
  | reg w r hi => exact congrArg Except.ok (setReg_withSegs s es cs ss ds w hi v h)
  | mem w m =>
    simp only [writeLoc, State.withSegs_opts, State.withSegs_mem, effectiveAddress_withSegs s es cs ss ds _ h]
    cases effectiveAddress s.opts.eaMode s.regs m with
    | error c => rfl
    | ok a =>
      dsimp only
      cases memWrite s.opts.eaMode s.mem a v w with
      | error c => rfl
      | ok p => rfl

theorem writeBack_withSegs (op : ArithOp) {l : Loc} (h : locNoSeg l) (v : Word) :
    writeBack op (s.withSegs es cs ss ds) l v = (writeBack op s l v).map fun t => t.withSegs es cs ss ds := by
  unfold writeBack
  split
  · exact writeLoc_withSegs s es cs ss ds h v
  · rfl

theorem move_withSegs {dst : Loc} {src : Operand} (n : Nat) (hd : locNoSeg dst) (hs : operandNoSeg src) :
    move dst src n (s.withSegs es cs ss ds) = mapNext (fun t => t.withSegs es cs ss ds) (move dst src n s) := by
  simp only [move, State.withSegs_advance, readOperand_withSegs _ es cs ss ds hs,
    writeLoc_withSegs _ es cs ss ds hd]
  cases readOperand (s.advance n) src with
  | error c => rfl
  | ok v =>
    dsimp only
    cases writeLoc (s.advance n) dst v with
    | error c => rfl
    | ok t => rfl

theorem arith_withSegs (op : ArithOp) {dst : Loc} {src : Operand} (n : Nat) (hd : locNoSeg dst)
    (hs : operandNoSeg src) :
    arith op dst src n (s.withSegs es cs ss ds) =
      mapNext (fun t => t.withSegs es cs ss ds) (arith op dst src n s) := by
  simp only [arith, State.withSegs_advance, State.withSegs_flags, readOperand_withSegs _ es cs ss ds hs,
    readLoc_withSegs _ es cs ss ds hd, writeBack_withSegs _ es cs ss ds op hd]
  cases readOperand (s.advance n) src with
  | error c => rfl
  | ok sv =>
    dsimp only
    cases readLoc (s.advance n) dst with
    | error c => rfl
    | ok dv =>
      dsimp only
      generalize resultOf _ _ = res
      cases writeBack op (s.advance n) dst res with
      | error c => rfl
      | ok t => rfl

theorem jumpTo_withSegs (c : Bool) (disp : Byte) :
    jumpTo c disp (s.withSegs es cs ss ds) = (jumpTo c disp s).withSegs es cs ss ds := by
  cases c <;> rfl

theorem loopStep_withSegs (test : Bool) (disp : Byte) :
    loopStep test disp (s.withSegs es cs ss ds) = (loopStep test disp s).withSegs es cs ss ds :=
  jumpTo_withSegs (decrementCx s) es cs ss ds _ disp

theorem loopExec_withSegs (mn : Mnemonic) (u : State) :
    loopExec mn (u.withSegs es cs ss ds) (s.withSegs es cs ss ds) =
      mapNext (fun t => t.withSegs es cs ss ds) (loopExec mn u s) := by
  unfold loopExec
  rw [State.withSegs_opts]
  cases s.opts.loopExec <;> rfl

end

/-- Settles O59, by the meaning the instruction has: each commutes with other values in the segment registers when no
operand names one. -/
theorem segmentRegistersAreStorageOnly : Obligations.SegmentRegistersAreStorageOnly := by
  intro i s es cs ss ds hst hld
  cases exec_shape i with
  | mov dst src hi he =>
    obtain ⟨hd, hs⟩ := instruction_noSeg hst hld hi
    rw [he, he, move_withSegs s es cs ss ds _ hd hs]
  | arith op dst src hi he =>
    obtain ⟨hd, hs⟩ := instruction_noSeg hst hld hi
    rw [he, he, arith_withSegs s es cs ss ds op _ hd hs]
  | jump cond disp _ hc he =>
    have hcond : cond (s.withSegs es cs ss ds) = cond s := hc s _
    rw [he, he, jumpIf, jumpIf, hcond, jumpTo_withSegs, mapNext]
  | loop test disp _ ht he =>
    have htest : test (s.withSegs es cs ss ds) = test s := ht s _
    rw [he, he, htest, loopStep_withSegs, loopExec_withSegs]
  | jcxz disp _ he =>
    have hcx : (s.withSegs es cs ss ds).regs.cx = s.regs.cx := rfl
    rw [he, he, hcx, jumpTo_withSegs, loopExec_withSegs]

end Sys2Proof.Machine
end

section
/-!
PROOFS. The statements about data memory (20_memory.md): reads and writes of bytes and words (R50, R51), the effective
address (R56), and what the record of a step holds of a store (R51, R241).
-/

namespace Sys2Proof.Machine

/-! ### Word accesses: the second address and the bounds check -/

/-- The address of a word's high byte, as a number (R50, R51). -/
theorem word_succ_toNat (a : Word) : (a + 1).toNat = (a.toNat + 1) % 65536 := BitVec.toNat_add a 1

theorem wordInBounds_iff (mode : EaMode) (a : Word) :
    wordInBounds mode a = true ↔ mode = .wrap16 ∨ a ≠ 0xFFFF := by
  cases mode <;> simp [wordInBounds]

/-- A read that succeeds has passed the bounds check. -/
theorem wordInBounds_of_memRead {mode : EaMode} {m : Memory} {a v : Word} {w : Width}
    (h : memRead mode m a w = .ok v) : w = .word → wordInBounds mode a = true := by
  rintro rfl
  by_contra hb
  rw [memRead, if_neg hb] at h
  cases h

/-! ### `MemRead` and `MemWrite` (R50, R51) -/

/-- Settles O4: the bounds check is passed exactly where the second clause says. -/
theorem memoryReadIsLittleEndian : Obligations.MemoryReadIsLittleEndian := by
  refine ⟨fun _ _ _ => rfl, fun mode m a h => ?word, fun _ => rfl⟩
  case word =>
    rw [memRead, if_pos ((wordInBounds_iff mode a).2 h), word_succ_toNat]
    rfl

/-- The bytes of memory after a word is stored: the high byte is written last, at another address than the low byte. -/
theorem read_storeBytes_word {m : Memory} (hm : m.wf = true) (a v : Word) (b : Nat) :
    (storeBytes m a v .word).read b =
      if b = a.toNat then lowByte v else if b = (a.toNat + 1) % 65536 then highByte v else m.read b := by
  have hlow := Memory.write_wf hm (Word.toNat_lt_memSize a) (lowByte v)
  have hne := word_succ_toNat_ne a
  rw [storeBytes, Memory.read_write hlow, Memory.read_write hm, ← word_succ_toNat]
  by_cases ha : b = a.toNat
  · rw [if_neg (ha ▸ hne.symm)]
    simp only [if_pos ha]
  · simp only [if_neg ha]

/-- Settles O5: `MemWrite` returns what `MemRead` gives, by O4, and its bytes are those of `storeBytes`. -/
theorem memoryWriteStoresOnlyItsBytes : Obligations.MemoryWriteStoresOnlyItsBytes := by
  obtain ⟨hbyte, hword, hfault⟩ := memoryReadIsLittleEndian
  refine ⟨fun mode m a v hm => ?byte, fun mode m a v hm h => ?word, fun m v => ?fault⟩
  case byte => exact ⟨_, memWrite_ok_iff.2 ⟨hbyte mode m a, rfl⟩, Memory.read_write hm _ _⟩
  case word => exact ⟨_, memWrite_ok_iff.2 ⟨hword mode m a h, rfl⟩, read_storeBytes_word hm a v⟩
  case fault => exact memWrite_error_iff.2 (hfault m)

/-! ### The effective address (R56) -/

theorem addressSum_eq (x : RegFile) (base : Reg) (index : Option Reg) (disp : Word) :
    addressSum x base index disp =
      (x.get base).toNat + ((index.map fun r => ((x.get r).toNat : Int)).getD 0) + disp.toInt := by
  cases index <;> rfl

/-- Settles O7: the sum of the model is the one stated, with and without an index. -/
theorem effectiveAddressIsTheSum : Obligations.EffectiveAddressIsTheSum := by
  intro x base index disp addr mode sum
  have hsum : addressSum x base index disp = sum := addressSum_eq x base index disp
  refine ⟨rfl, ?wrap, ?fault⟩
  case wrap => rw [← hsum]; rfl
  case fault => rw [← hsum]; rfl

/-! ### The record of a store (R51, R241) -/

/-- No instruction writes the pc through its destination, nor addresses memory with it (R24, R92). -/
theorem writtenLoc_noIp {i : Instr} {dst : Loc} (h : writtenLoc i = some dst) : locNoIp dst := by
  unfold writtenLoc at h
  split at h
  · cases h
  next dst' src hargs _ =>
    cases h
    have hi : instruction i = ⟨(instruction i).mnemonic, .two dst src⟩ := by rw [← hargs]
    exact instruction_dst_noIp hi
  · cases h

/-- An instruction that is stopped by no fatal condition could address its memory destination, and read it before and
after. -/
theorem exec_store_reads {i : Instr} {s t : State} {w : Width} {m : MemRef} (h : exec i s = .next t)
    (hf : ∀ c, t.status ≠ .fault c) (hd : writtenLoc i = some (.mem w m)) :
    ∃ a old new, effectiveAddress s.opts.eaMode s.regs m = .ok a ∧ memRead s.opts.eaMode s.mem a w = .ok old ∧
      memRead s.opts.eaMode t.mem a w = .ok new := by
  obtain ⟨v, u, hw, -⟩ := exec_writes h hf hd
  rcases writeLoc_cases hw with ⟨_, _, _, hl, -⟩ | ⟨w', m', a, old, mem, hl, ha, hm, -⟩
  · cases hl
  · cases hl
    rw [State.advance_regs, effectiveAddress_setIp _ _ _ (writtenLoc_noIp hd)] at ha
    have hold : memRead s.opts.eaMode s.mem a w = .ok old := (memWrite_ok_iff.1 hm).1
    obtain ⟨new, hnew⟩ := memRead_of_inBounds t.mem (wordInBounds_of_memRead hold)
    exact ⟨a, old, new, ha, hold, hnew⟩

/-- A `simulate` step that answers a Running state ran the instruction at the pc to its end (R230). -/
theorem step_running_cases {s t : State} (hmode : s.opts.runMode = .simulate) (h : step s = .next t)
    (hrun : t.status = .running) :
    ∃ i u, fetchInstr s = .ok i ∧ exec i s = .next u ∧ u.status = .running ∧ t = retire i (writtenLoc i) s u := by
  obtain ⟨-, -, ⟨-, rfl⟩ | ⟨-, rfl⟩ | ⟨-, ⟨c, -, rfl⟩ | ⟨i, hi, ⟨hdec, -⟩ | ⟨-, u, hu, rfl⟩⟩⟩⟩ := step_cases h
  · cases hrun
  · cases hrun
  · cases hrun
  · rw [hmode] at hdec; cases hdec
  · exact ⟨i, u, hi, hu, retire_status i _ s u ▸ hrun, rfl⟩

/-- Settles O60: the record reads its destination in the memory before and after, and both reads succeed because the
write did. -/
theorem recordHoldsOldMemoryValue : Obligations.RecordHoldsOldMemoryValue := by
  intro s t hmode h hrun
  obtain ⟨i, u, hi, hu, hurun, rfl⟩ := step_running_cases hmode h hrun
  have hf : ∀ c, u.status ≠ .fault c := fun c hc => by rw [hurun] at hc; cases hc
  have hemitted : u.emitted = s.emitted := by
    obtain ⟨-, -, ⟨-, he⟩ | ⟨c, -, rfl⟩⟩ := exec_keeps hu
    · exact he
    · exact absurd rfl (hf c)
  refine ⟨i, record i (writtenLoc i) s u, hi, ?_, rfl, fun w m hd => ?_⟩
  · rw [retire_emitted_of_not_fault i _ s u hf, hemitted]
  · obtain ⟨a, old, new, ha, hold, hnew⟩ := exec_store_reads hu hf hd
    rw [retire_mem]
    exact ⟨a, old, new, ha, hold, hnew, by simp only [record, hd, storeOf, ha, hold, hnew]⟩

end Sys2Proof.Machine
end

section
/-!
PROOFS. The statements about the encoding (30_encoding.md): the opcode lookup (R103, R104, R106, R111), the round trip
(R129), the length of an instruction (R105), the operand and extension fields (R88, R89, R92, R100, R101, R107), and the
redundant encodings (R108).
-/

namespace Sys2Proof

open Sys2Proof.Machine

/-! ### One reader after another -/

theorem Except.ok_bind {α β : Type} (a : α) (f : α → Except Fatal β) : (Except.ok a >>= f) = f a := rfl

theorem Except.bind_eq_ok {α β : Type} {x : Except Fatal α} {f : α → Except Fatal β} {b : β} :
    (x >>= f) = .ok b ↔ ∃ a, x = .ok a ∧ f a = .ok b := by
  cases x <;> simp [bind, Except.bind]

/-! ### The lookup (R104) -/

theorem probe_eq_none_iff {n v : Nat} : probe n v = none ↔ ∀ key ∈ opcodeKeys, key.len = n → key.value ≠ v := by
  simp [probe]

theorem exists_key_of_probe {n v : Nat} {f : Family} (h : probe n v = some f) :
    ∃ key ∈ opcodeKeys, key.len = n ∧ key.value = v ∧ key.family = f := by
  obtain ⟨key, hfind, hf⟩ := Option.map_eq_some_iff.1 h
  obtain ⟨hn, hv⟩ : key.len = n ∧ key.value = v := by simpa using List.find?_some hfind
  exact ⟨key, List.mem_of_find?_eq_some hfind, hn, hv, hf⟩

/-- Replacing a hit by every later one keeps the last: the first that is met from the end. -/
theorem foldl_or_eq_findSome?_reverse {α β : Type} (g : α → Option β) (l : List α) (hit : Option β) :
    l.foldl (fun hit n => (g n).or hit) hit = (l.reverse.findSome? g).or hit := by
  induction l generalizing hit with
  | nil => rfl
  | cons n l ih => simp [ih, List.findSome?_append, Option.or_assoc]

/-- The first hit in a falling list of numbers is at the greatest number that has one. -/
theorem exists_greatest_of_findSome? {β : Type} {g : Nat → Option β} {l : List Nat} {f : β}
    (hl : l.Pairwise (· > ·)) (h : l.findSome? g = some f) :
    ∃ n ∈ l, g n = some f ∧ ∀ m ∈ l, g m ≠ none → m ≤ n := by
  induction l with
  | nil => cases h
  | cons n l ih =>
    obtain ⟨hn, hl⟩ := List.pairwise_cons.1 hl
    cases hg : g n with
    | some f' =>
      rw [List.findSome?_cons_of_isSome (by simp [hg]), hg] at h
      refine ⟨n, List.mem_cons_self, hg.trans h, fun m hm _ => ?_⟩
      rcases List.mem_cons.1 hm with rfl | hm
      · exact Nat.le_refl m
      · exact Nat.le_of_lt (hn m hm)
    | none =>
      rw [List.findSome?_cons_of_isNone (by simp [hg])] at h
      obtain ⟨m, hm, hgm, hmax⟩ := ih hl h
      refine ⟨m, List.mem_cons_of_mem n hm, hgm, fun j hj hgj => ?_⟩
      rcases List.mem_cons.1 hj with rfl | hj
      · exact absurd hg hgj
      · exact hmax j hj hgj

/-- The key lengths that are probed, the longest first. -/
def probedLengths : List Nat := [8, 7, 6, 5, 4, 3]

theorem mem_probedLengths {n : Nat} : n ∈ probedLengths ↔ 3 ≤ n ∧ n ≤ 8 := by
  simp [probedLengths]; omega

/-- The lookup answers the first hit from the longest key length down. -/
theorem lookup_eq_findSome? (b : Byte) :
    lookup b = probedLengths.findSome? fun n => probe n (b.toNat / 2 ^ (8 - n)) := by
  have hor : lookup b = [3, 4, 5, 6, 7, 8].foldl (fun hit n => (probe n (b.toNat >>> (8 - n))).or hit) none := by
    unfold lookup
    congr 1
    funext hit n
    cases probe n (b.toNat >>> (8 - n)) <;> rfl
  simp only [hor, foldl_or_eq_findSome?_reverse, Option.or_none, Nat.shiftRight_eq_div_pow]
  rfl

/-- `key` is one of those that the lookup of `b` can find: of 3 to 8 bits, and equal to the top bits of `b` (R104). -/
def Key.matches (b : Byte) (key : Key) : Prop :=
  3 ≤ key.len ∧ key.len ≤ 8 ∧ b.toNat / 2 ^ (8 - key.len) = key.value

theorem lookup_eq_none_iff (b : Byte) : lookup b = none ↔ ∀ key ∈ opcodeKeys, ¬ key.matches b := by
  simp only [lookup_eq_findSome?, List.findSome?_eq_none_iff, probe_eq_none_iff, mem_probedLengths]
  constructor
  · rintro h key hkey ⟨h3, h8, hv⟩
    exact h _ ⟨h3, h8⟩ key hkey rfl hv.symm
  · rintro h _ ⟨h3, h8⟩ key hkey rfl hv
    exact h key hkey ⟨h3, h8, hv.symm⟩

/-- What the lookup finds is the family of a matching key, and no longer key matches. -/
theorem exists_longest_of_lookup {b : Byte} {f : Family} (h : lookup b = some f) :
    ∃ key ∈ opcodeKeys, key.matches b ∧ key.family = f ∧
      ∀ key' ∈ opcodeKeys, key'.matches b → key'.len ≤ key.len := by
  rw [lookup_eq_findSome?] at h
  obtain ⟨n, hn, hp, hmax⟩ := exists_greatest_of_findSome? (by decide) h
  obtain ⟨key, hkey, rfl, hv, hf⟩ := exists_key_of_probe hp
  obtain ⟨h3, h8⟩ := mem_probedLengths.1 hn
  refine ⟨key, hkey, ⟨h3, h8, hv.symm⟩, hf, ?_⟩
  rintro key' hkey' ⟨h3', h8', hv'⟩
  exact hmax _ (mem_probedLengths.2 ⟨h3', h8'⟩) fun hnone => probe_eq_none_iff.1 hnone key' hkey' rfl hv'.symm

/-- A byte 0 that no key matches stops the decoder, whatever follows (R104, R251). -/
theorem decode_of_lookup_none {b : Byte} (h : lookup b = none) (mode : AccAddrMode) (k : Nat) (rest : List Byte) :
    decode mode { index := k, rest := b :: rest } = .error (.unrecognizedOpcode b) := by
  simp only [decode, Cursor.byte_cons, Except.ok_bind, h]
  rfl

/-- Settles O13: the longest matching key is found, because the lookup answers from the longest length down. -/
theorem lookupFindsLongestMatch : Obligations.LookupFindsLongestMatch := by
  refine ⟨?_, fun mode k b rest h => decode_of_lookup_none h mode k rest⟩
  intro b hits
  have hmem : ∀ key, key ∈ hits ↔ key ∈ opcodeKeys ∧ key.matches b := by
    simp [hits, Key.matches]
  refine ⟨?miss, fun f h => ?hit⟩
  case miss => simp only [lookup_eq_none_iff, List.eq_nil_iff_forall_not_mem, hmem, not_and]
  case hit =>
    obtain ⟨key, hkey, hm, hf, hmax⟩ := exists_longest_of_lookup h
    refine ⟨key, (hmem key).2 ⟨hkey, hm⟩, hf, fun key' h' => ?_⟩
    obtain ⟨hkey', hm'⟩ := (hmem key').1 h'
    exact hmax key' hkey' hm'

/-- Settles O14: the 34 keys and their pairs are run through. -/
theorem opcodeKeysArePrefixFree : Obligations.OpcodeKeysArePrefixFree := by
  unfold Obligations.OpcodeKeysArePrefixFree
  decide

/-! ### The first bytes that no key matches (R111) -/

/-- The ten ranges of R111, as numbers. -/
def inUnrecognizedRange (n : Nat) : Bool :=
  (0x06 ≤ n ∧ n ≤ 0x27) ∨ (0x2E ≤ n ∧ n ≤ 0x37) ∨ (0x3E ≤ n ∧ n ≤ 0x6F) ∨ (0x84 ≤ n ∧ n ≤ 0x87) ∨ n = 0x8D ∨
    (0x8F ≤ n ∧ n ≤ 0x9F) ∨ (0xA4 ≤ n ∧ n ≤ 0xAF) ∨ (0xC0 ≤ n ∧ n ≤ 0xC5) ∨ (0xC8 ≤ n ∧ n ≤ 0xDF) ∨ 0xE4 ≤ n

/-- The 34 keys leave exactly the ten ranges unmatched: the matches are divisions of byte 0 by powers of two. -/
theorem lookup_eq_none_iff_inUnrecognizedRange (b : Byte) : lookup b = none ↔ inUnrecognizedRange b.toNat = true := by
  have hb : b.toNat < 256 := b.isLt
  simp only [lookup_eq_none_iff, Key.matches, opcodeKeys, prefixKeys, jumpKeys, List.cons_append, List.nil_append,
    List.forall_mem_cons, List.not_mem_nil, false_implies, implies_true, and_true, true_and, Nat.reduceLeDiff,
    Nat.reduceSub, Nat.reducePow, inUnrecognizedRange, decide_eq_true_eq]
  generalize b.toNat = n at *
  omega

theorem length_filter_range_add (p : Nat → Bool) (m n : Nat) :
    ((List.range (m + n)).filter p).length =
      ((List.range m).filter p).length + ((List.range n).filter fun k => p (m + k)).length := by
  simp [List.range_add, List.filter_map, Function.comp_def]

/-- Counted in four quarters, each short enough to be run through. -/
theorem length_filter_inUnrecognizedRange : ((List.range 256).filter inUnrecognizedRange).length = 186 := by
  show ((List.range (64 + 64 + 64 + 64)).filter inUnrecognizedRange).length = 186
  simp only [length_filter_range_add]
  decide

theorem filter_lookup_eq_none :
    ((List.range 256).filter fun n => lookup (BitVec.ofNat 8 n) == none) =
      (List.range 256).filter inUnrecognizedRange := by
  refine List.filter_congr fun n hn => ?_
  rw [Bool.eq_iff_iff, beq_iff_eq, lookup_eq_none_iff_inUnrecognizedRange, BitVec.toNat_ofNat,
    Nat.mod_eq_of_lt (List.mem_range.1 hn)]

theorem inUnrecognizedRange_toNat (b : Byte) :
    inUnrecognizedRange b.toNat = true ↔
      (0x06 ≤ b ∧ b ≤ 0x27) ∨ (0x2E ≤ b ∧ b ≤ 0x37) ∨ (0x3E ≤ b ∧ b ≤ 0x6F) ∨ (0x84 ≤ b ∧ b ≤ 0x87) ∨ b = 0x8D ∨
      (0x8F ≤ b ∧ b ≤ 0x9F) ∨ (0xA4 ≤ b ∧ b ≤ 0xAF) ∨ (0xC0 ≤ b ∧ b ≤ 0xC5) ∨ (0xC8 ≤ b ∧ b ≤ 0xDF) ∨ 0xE4 ≤ b := by
  rw [inUnrecognizedRange, decide_eq_true_iff]
  simp only [BitVec.le_def, ← BitVec.toNat_inj]
  rfl

/-- Settles O12: the ranges by the keys, the count by the ranges. -/
theorem unrecognizedFirstBytes : Obligations.UnrecognizedFirstBytes :=
  ⟨fun b => (lookup_eq_none_iff_inUnrecognizedRange b).trans (inUnrecognizedRange_toNat b),
    (congrArg List.length filter_lookup_eq_none).trans length_filter_inUnrecognizedRange⟩

/-! ### Decoding what the encoder writes (R129) -/

/-- The family of a byte 0 that the lookup finds decodes what follows it (R103). -/
theorem decode_of_lookup {b : Byte} {f : Family} (h : lookup b = some f) (mode : AccAddrMode) (k : Nat)
    (rest : List Byte) :
    decode mode { index := k, rest := b :: rest } = decodeFamily mode b { index := k + 1, rest := rest } f := by
  simp only [decode, Cursor.byte_cons, Except.ok_bind, h]

/-- The family of each of the six 7-bit keys, whatever W. -/
theorem lookup_sevenBitKey (w : Width) :
    lookup (0b1100011#7 ++ w.bit : BitVec 8) = some .movRmImm ∧
      lookup (0b1010000#7 ++ w.bit : BitVec 8) = some .movAccMem ∧
      lookup (0b1010001#7 ++ w.bit : BitVec 8) = some .movMemAcc ∧
      lookup (0b0000010#7 ++ w.bit : BitVec 8) = some .addAccImm ∧
      lookup (0b0010110#7 ++ w.bit : BitVec 8) = some .subAccImm ∧
      lookup (0b0011110#7 ++ w.bit : BitVec 8) = some .cmpAccImm := by
  cases w <;> decide

/-- The family of a REGIMM first byte, whatever W and the register. -/
theorem lookup_regImm (w : Width) (code : BitVec 3) :
    lookup (0b1011#4 ++ w.bit ++ code : BitVec 8) = some .movRegImm := by
  cases w <;> (revert code; decide)

/-- The family of an ARITHIMM first byte, whatever S and W. -/
theorem lookup_arithImm (sw : BitVec 2) : lookup (0b100000#6 ++ sw : BitVec 8) = some .arithImm := by
  revert sw; decide

/-- The W bit after a 7-bit key (R84). -/
theorem widthBit (key : BitVec 7) (w : Width) : Width.ofBit ((key ++ w.bit : BitVec 8).getLsbD 0) = w := by
  rw [BitVec.getLsbD_append]
  cases w <;> rfl

/-- The W bit and the register field of a REGIMM first byte (R82). -/
theorem regImm_bits (w : Width) (code : BitVec 3) :
    Width.ofBit ((0b1011#4 ++ w.bit ++ code : BitVec 8).getLsbD 3) = w ∧
      (0b1011#4 ++ w.bit ++ code : BitVec 8).extractLsb' 0 3 = code := by
  cases w <;> (revert code; decide)

/-- The S and W bits of an ARITHIMM first byte (R85). -/
theorem arithImm_bits (imm : ArithImm) :
    (0b100000#6 ++ imm.swBits : BitVec 8).getLsbD 1 = imm.sBit ∧
      Width.ofBit ((0b100000#6 ++ imm.swBits : BitVec 8).getLsbD 0) = imm.width := by
  cases imm <;> simp only [ArithImm.swBits, ArithImm.sBit, ArithImm.width] <;> decide

/-- The register field of a SEG ModRM byte is the two low bits of REG (R89). -/
theorem segField_eq (b : Byte) : b.extractLsb' 3 2 = (ModRM.ofByte b).reg.extractLsb' 0 2 := by
  revert b; decide

section
variable (mode : AccAddrMode) (k : Nat) (rest : List Byte)

/-! One round trip per format, from the cursor after byte 0. -/

theorem decodeRmReg_encoded (make : Dir → GReg → RM → Instr) (key : BitVec 6) (d : Dir) (reg : GReg) {rm : RM}
    (h : rm.wf reg.width = true) :
    decodeRmReg make (key ++ d.bit ++ reg.width.bit : BitVec 8)
        { index := k + 1, rest := encodeModRM rm reg.code ++ rest } =
      .ok (make d reg rm, { index := k + (2 + rm.dlen), rest := rest }) := by
  obtain ⟨hw, hd⟩ := rmReg_bits key d reg.width
  simp only [decodeRmReg, hw, hd, encodeModRM, List.cons_append, Cursor.byte_cons, Except.ok_bind,
    ModRM.ofByte_append, resolve_encoded h, GReg.ofCode_code, ← Nat.add_assoc]
  rfl

theorem decodeRmImm_encoded {rm : RM} (imm : Imm) (h : rm.wf imm.width = true) :
    decodeRmImm (0b1100011#7 ++ imm.width.bit : BitVec 8)
        { index := k + 1, rest := encodeModRM rm 0b000 ++ imm.bytes ++ rest } =
      .ok (.movRmImm rm imm, { index := k + (2 + rm.dlen + imm.length), rest := rest }) := by
  simp only [decodeRmImm, widthBit, encodeModRM, List.cons_append, List.append_assoc, Cursor.byte_cons, Except.ok_bind,
    ModRM.ofByte_append, resolve_encoded h, immW_encoded, ← Nat.add_assoc]
  rfl

theorem decodeRegImm_encoded (reg : GReg) (imm : Imm) (h : reg.width = imm.width) :
    decodeRegImm (0b1011#4 ++ reg.width.bit ++ reg.code : BitVec 8) { index := k + 1, rest := imm.bytes ++ rest } =
      .ok (.movRegImm reg imm, { index := k + (1 + imm.length), rest := rest }) := by
  obtain ⟨hw, hc⟩ := regImm_bits reg.width reg.code
  have himm := h ▸ immW_encoded imm (k + 1) rest
  simp only [decodeRegImm, hw, hc, GReg.ofCode_code, himm, Except.ok_bind, ← Nat.add_assoc]
  rfl

theorem decodeAccMem_encoded (make : Width → AccAddr → Instr) (key : BitVec 7) (w : Width) {addr : AccAddr}
    (h : addr.wf mode w = true) :
    decodeAccMem make mode (key ++ w.bit : BitVec 8) { index := k + 1, rest := addr.bytes ++ rest } =
      .ok (make w addr, { index := k + (1 + addr.length), rest := rest }) := by
  simp only [decodeAccMem, widthBit, accAddr_encoded h, Except.ok_bind, ← Nat.add_assoc]
  rfl

theorem decodeSeg_encoded (make : RM → SegReg → Instr) {rm : RM} (sr : SegReg) (h : rm.wf .word = true) :
    decodeSeg make { index := k + 1, rest := encodeModRM rm (0b0#1 ++ sr.code) ++ rest } =
      .ok (make rm sr, { index := k + (2 + rm.dlen), rest := rest }) := by
  simp only [decodeSeg, encodeModRM, List.cons_append, Cursor.byte_cons, Except.ok_bind, ModRM.ofByte_append,
    segField_eq, BitVec.extractLsb'_append_eq_right, resolve_encoded h, SegReg.ofCode_code, ← Nat.add_assoc]
  rfl

theorem decodeAccImm_encoded (make : Imm → Instr) (key : BitVec 7) (imm : Imm) :
    decodeAccImm make (key ++ imm.width.bit : BitVec 8) { index := k + 1, rest := imm.bytes ++ rest } =
      .ok (make imm, { index := k + (1 + imm.length), rest := rest }) := by
  simp only [decodeAccImm, widthBit, immW_encoded, Except.ok_bind, ← Nat.add_assoc]
  rfl

theorem decodeArithImm_encoded {make : RM → ArithImm → Instr} {ext : BitVec 3} (hext : extension ext = .ok make)
    {rm : RM} (imm : ArithImm) (h : rm.wf imm.width = true) :
    decodeArithImm (0b100000#6 ++ imm.swBits : BitVec 8)
        { index := k + 1, rest := encodeModRM rm ext ++ imm.bytes ++ rest } =
      .ok (make rm imm, { index := k + (2 + rm.dlen + imm.length), rest := rest }) := by
  obtain ⟨hs, hw⟩ := arithImm_bits imm
  simp only [decodeArithImm, hs, hw, encodeModRM, List.cons_append, List.append_assoc, Cursor.byte_cons,
    Except.ok_bind, ModRM.ofByte_append, hext, resolve_encoded h, immSW_encoded, ← Nat.add_assoc]
  rfl
end

/-- Settles O8: each constructor by the round trip of its format; the jumps compute. -/
theorem decodeOfEncodeIsIdentity : Obligations.DecodeOfEncodeIsIdentity := by
  intro mode i k rest h
  cases i with
  | movRmReg d reg rm =>
    obtain ⟨hl, -, -, -⟩ := lookup_rmReg d reg.width
    exact (decode_of_lookup hl ..).trans (decodeRmReg_encoded k rest .movRmReg _ d reg h)
  | addRmReg d reg rm =>
    obtain ⟨-, hl, -, -⟩ := lookup_rmReg d reg.width
    exact (decode_of_lookup hl ..).trans (decodeRmReg_encoded k rest .addRmReg _ d reg h)
  | subRmReg d reg rm =>
    obtain ⟨-, -, hl, -⟩ := lookup_rmReg d reg.width
    exact (decode_of_lookup hl ..).trans (decodeRmReg_encoded k rest .subRmReg _ d reg h)
  | cmpRmReg d reg rm =>
    obtain ⟨-, -, -, hl⟩ := lookup_rmReg d reg.width
    exact (decode_of_lookup hl ..).trans (decodeRmReg_encoded k rest .cmpRmReg _ d reg h)
  | movRmImm rm imm =>
    obtain ⟨hl, -⟩ := lookup_sevenBitKey imm.width
    exact (decode_of_lookup hl ..).trans (decodeRmImm_encoded k rest imm h)
  | movRegImm reg imm =>
    exact (decode_of_lookup (lookup_regImm ..) ..).trans (decodeRegImm_encoded k rest reg imm (beq_iff_eq.1 h))
  | movAccMem w addr =>
    obtain ⟨-, hl, -⟩ := lookup_sevenBitKey w
    exact (decode_of_lookup hl ..).trans (decodeAccMem_encoded mode k rest .movAccMem _ w h)
  | movMemAcc w addr =>
    obtain ⟨-, -, hl, -⟩ := lookup_sevenBitKey w
    exact (decode_of_lookup hl ..).trans (decodeAccMem_encoded mode k rest .movMemAcc _ w h)
  | movRmSeg rm sr =>
    exact (decode_of_lookup (f := .movRmSeg) (by decide) ..).trans (decodeSeg_encoded k rest .movRmSeg sr h)
  | movSegRm sr rm =>
    exact (decode_of_lookup (f := .movSegRm) (by decide) ..).trans
      (decodeSeg_encoded k rest (fun rm sr => .movSegRm sr rm) sr h)
  | addAccImm imm =>
    obtain ⟨-, -, -, hl, -⟩ := lookup_sevenBitKey imm.width
    exact (decode_of_lookup hl ..).trans (decodeAccImm_encoded k rest .addAccImm _ imm)
  | subAccImm imm =>
    obtain ⟨-, -, -, -, hl, -⟩ := lookup_sevenBitKey imm.width
    exact (decode_of_lookup hl ..).trans (decodeAccImm_encoded k rest .subAccImm _ imm)
  | cmpAccImm imm =>
    obtain ⟨-, -, -, -, -, hl⟩ := lookup_sevenBitKey imm.width
    exact (decode_of_lookup hl ..).trans (decodeAccImm_encoded k rest .cmpAccImm _ imm)
  | addRmImm rm imm | adcRmImm rm imm | subRmImm rm imm | sbbRmImm rm imm | cmpRmImm rm imm =>
    exact (decode_of_lookup (lookup_arithImm _) ..).trans (decodeArithImm_encoded k rest rfl imm h)
  | _ => rfl

/-! ### The length of an instruction (R105) -/

theorem RM.dlen_le (rm : RM) : rm.dlen ≤ 2 := by
  rcases rm with _ | (_ | ⟨_, _ | _ | _⟩) <;> simp [RM.dlen, Disp.length]

theorem Imm.length_bounds (imm : Imm) : 1 ≤ imm.length ∧ imm.length ≤ 2 := by
  cases imm <;> simp [Imm.length]

theorem ArithImm.length_bounds (imm : ArithImm) : 1 ≤ imm.length ∧ imm.length ≤ 2 := by
  cases imm <;> simp [ArithImm.length]

theorem AccAddr.length_bounds (addr : AccAddr) : 1 ≤ addr.length ∧ addr.length ≤ 2 := by
  cases addr <;> simp [AccAddr.length]

/-- The range column of R105. -/
theorem Instr.length_bounds (i : Instr) : 2 ≤ i.length ∧ i.length ≤ 6 := by
  cases i with
  | movRmReg _ _ rm | addRmReg _ _ rm | subRmReg _ _ rm | cmpRmReg _ _ rm | movRmSeg rm _ | movSegRm _ rm =>
    have := rm.dlen_le
    simp only [Instr.length]; omega
  | movRmImm rm imm | addRmImm rm imm | adcRmImm rm imm | subRmImm rm imm | sbbRmImm rm imm | cmpRmImm rm imm =>
    have := rm.dlen_le
    have := imm.length_bounds
    simp only [Instr.length]; omega
  | movRegImm _ data | addAccImm data | subAccImm data | cmpAccImm data | movAccMem _ data | movMemAcc _ data =>
    have := data.length_bounds
    simp only [Instr.length]; omega
  | _ => simp [Instr.length]

/-- Settles O9: `decode_reads`, and the bounds of the length table. -/
theorem decodedLengthIsBytesConsumed : Obligations.DecodedLengthIsBytesConsumed := by
  intro mode c c' i h
  have hreads := decode_reads mode c
  rw [h] at hreads
  obtain ⟨hwf, hle, hc⟩ := hreads
  obtain ⟨hmin, hmax⟩ := i.length_bounds
  exact ⟨hwf, hmin, hmax, hle, hc⟩

/-! ### The length from bytes 0 and 1 (R105) -/

/-- `1 + w`, the size of data sized by W (R100). -/
def Width.dataLength : Width → Nat
  | .byte => 1
  | .word => 2

/-- `dlen(mod, rm)` of R105. -/
def ModRM.dlen (m : ModRM) : Nat :=
  match m.mod.toNat with
  | 0 => if m.rm = 0b110 then 2 else 0
  | 1 => 1
  | 2 => 2
  | _ => 0

/-- The size of an ARITHIMM immediate, by S and W (R85). -/
def arithImmLength (s : Bool) (w : Width) : Nat := if s then 1 else w.dataLength

/-- The size of an accumulator form's address (R101). -/
def accAddrLength : AccAddrMode → Width → Nat
  | .byW, w => w.dataLength
  | .always16, _ => 2

/-- The length column of R105, from bytes 0 and 1. -/
def Family.instrLength (mode : AccAddrMode) (b0 b1 : Byte) : Family → Nat
  | .movRmReg | .addRmReg | .subRmReg | .cmpRmReg | .movRmSeg | .movSegRm => 2 + (ModRM.ofByte b1).dlen
  | .movRmImm => 2 + (ModRM.ofByte b1).dlen + (Width.ofBit (b0.getLsbD 0)).dataLength
  | .movRegImm => 1 + (Width.ofBit (b0.getLsbD 3)).dataLength
  | .movAccMem | .movMemAcc => 1 + accAddrLength mode (Width.ofBit (b0.getLsbD 0))
  | .arithImm => 2 + (ModRM.ofByte b1).dlen + arithImmLength (b0.getLsbD 1) (Width.ofBit (b0.getLsbD 0))
  | .addAccImm | .subAccImm | .cmpAccImm => 1 + (Width.ofBit (b0.getLsbD 0)).dataLength
  | .jump _ => 2

theorem resolve_dlen {c c' : Cursor} {m : ModRM} {w : Width} {rm : RM} (h : resolve c m.mod m.rm w = .ok (rm, c')) :
    rm.dlen = m.dlen := by
  unfold resolve at h
  unfold ModRM.dlen
  split at h
  next hm =>
    rw [hm]
    split at h
    next hrm =>
      obtain ⟨_, -, h⟩ := Except.bind_eq_ok.1 h
      cases h
      exact (if_pos hrm).symm
    next hrm =>
      cases h
      exact (if_neg hrm).symm
  next hm =>
    obtain ⟨_, -, h⟩ := Except.bind_eq_ok.1 h
    cases h
    rw [hm]; rfl
  next hm =>
    obtain ⟨_, -, h⟩ := Except.bind_eq_ok.1 h
    cases h
    rw [hm]; rfl
  next hm =>
    cases h
    rw [hm]; rfl
  · cases h

theorem immW_length {c c' : Cursor} {w : Width} {imm : Imm} (h : immW c w = .ok (imm, c')) :
    imm.length = w.dataLength := by
  cases w <;> (obtain ⟨_, -, h⟩ := Except.bind_eq_ok.1 h; cases h; rfl)

theorem immSW_length {c c' : Cursor} {s : Bool} {w : Width} {imm : ArithImm} (h : immSW c s w = .ok (imm, c')) :
    imm.length = arithImmLength s w := by
  cases w <;> cases s <;> (obtain ⟨_, -, h⟩ := Except.bind_eq_ok.1 h; cases h; rfl)

theorem accAddr_length {mode : AccAddrMode} {c c' : Cursor} {w : Width} {addr : AccAddr}
    (h : accAddr mode c w = .ok (addr, c')) : addr.length = accAddrLength mode w := by
  cases mode <;> cases w <;> (obtain ⟨_, -, h⟩ := Except.bind_eq_ok.1 h; cases h; rfl)

/-- The five ARITHIMM instructions have one length formula (R105). -/
theorem extension_length {field : BitVec 3} {make : RM → ArithImm → Instr} (h : extension field = .ok make) (rm : RM)
    (imm : ArithImm) : (make rm imm).length = 2 + rm.dlen + imm.length := by
  rcases extension_cases field with he | he | he | he | he | he <;> rw [he] at h <;> cases h
  all_goals rfl

section
variable {mode : AccAddrMode} {b0 b1 : Byte} {k : Nat} {rest : List Byte} {i : Instr} {c' : Cursor}

theorem decodeRmReg_length {make : Dir → GReg → RM → Instr} (hl : ∀ d reg rm, (make d reg rm).length = 2 + rm.dlen)
    (h : decodeRmReg make b0 { index := k, rest := b1 :: rest } = .ok (i, c')) :
    i.length = 2 + (ModRM.ofByte b1).dlen := by
  obtain ⟨_, ⟨⟩, h⟩ := Except.bind_eq_ok.1 h
  obtain ⟨⟨rm, c1⟩, hrm, h⟩ := Except.bind_eq_ok.1 h
  cases h
  rw [hl, resolve_dlen hrm]

theorem decodeSeg_length {make : RM → SegReg → Instr} (hl : ∀ rm sr, (make rm sr).length = 2 + rm.dlen)
    (h : decodeSeg make { index := k, rest := b1 :: rest } = .ok (i, c')) :
    i.length = 2 + (ModRM.ofByte b1).dlen := by
  obtain ⟨_, ⟨⟩, h⟩ := Except.bind_eq_ok.1 h
  obtain ⟨⟨rm, c1⟩, hrm, h⟩ := Except.bind_eq_ok.1 h
  cases h
  rw [hl, resolve_dlen hrm]

theorem decodeAccMem_length {make : Width → AccAddr → Instr} {c : Cursor}
    (hl : ∀ w addr, (make w addr).length = 1 + addr.length) (h : decodeAccMem make mode b0 c = .ok (i, c')) :
    i.length = 1 + accAddrLength mode (Width.ofBit (b0.getLsbD 0)) := by
  obtain ⟨⟨addr, c1⟩, haddr, h⟩ := Except.bind_eq_ok.1 h
  cases h
  rw [hl, accAddr_length haddr]

theorem decodeAccImm_length {make : Imm → Instr} {c : Cursor} (hl : ∀ imm, (make imm).length = 1 + imm.length)
    (h : decodeAccImm make b0 c = .ok (i, c')) :
    i.length = 1 + (Width.ofBit (b0.getLsbD 0)).dataLength := by
  obtain ⟨⟨imm, c1⟩, himm, h⟩ := Except.bind_eq_ok.1 h
  cases h
  rw [hl, immW_length himm]

/-- What a family decodes has the length that bytes 0 and 1 give. -/
theorem decodeFamily_length {f : Family}
    (h : decodeFamily mode b0 { index := k, rest := b1 :: rest } f = .ok (i, c')) :
    i.length = f.instrLength mode b0 b1 := by
  cases f with
  | movRmReg | addRmReg | subRmReg | cmpRmReg => exact decodeRmReg_length (fun _ _ _ => rfl) h
  | movRmSeg => exact decodeSeg_length (fun _ _ => rfl) h
  | movSegRm => exact decodeSeg_length (make := fun rm sr => .movSegRm sr rm) (fun _ _ => rfl) h
  | movAccMem | movMemAcc => exact decodeAccMem_length (fun _ _ => rfl) h
  | addAccImm | subAccImm | cmpAccImm => exact decodeAccImm_length (fun _ => rfl) h
  | movRegImm =>
    obtain ⟨⟨imm, c1⟩, himm, h⟩ := Except.bind_eq_ok.1 h
    cases h
    rw [Instr.length, Family.instrLength, immW_length himm]
  | movRmImm =>
    obtain ⟨_, ⟨⟩, h⟩ := Except.bind_eq_ok.1 h
    obtain ⟨⟨rm, c1⟩, hrm, h⟩ := Except.bind_eq_ok.1 h
    obtain ⟨⟨imm, c2⟩, himm, h⟩ := Except.bind_eq_ok.1 h
    cases h
    rw [Instr.length, Family.instrLength, resolve_dlen hrm, immW_length himm]
  | arithImm =>
    obtain ⟨_, ⟨⟩, h⟩ := Except.bind_eq_ok.1 h
    obtain ⟨make, hmake, h⟩ := Except.bind_eq_ok.1 h
    obtain ⟨⟨rm, c1⟩, hrm, h⟩ := Except.bind_eq_ok.1 h
    obtain ⟨⟨imm, c2⟩, himm, h⟩ := Except.bind_eq_ok.1 h
    cases h
    rw [extension_length hmake, Family.instrLength, resolve_dlen hrm, immSW_length himm]
  | jump j =>
    cases h
    cases j <;> rfl

/-- A decoding of at least one byte is one of the family that the lookup finds. -/
theorem decodeFamily_of_decode (h : decode mode { index := k, rest := b0 :: rest } = .ok (i, c')) :
    ∃ f, lookup b0 = some f ∧ decodeFamily mode b0 { index := k + 1, rest := rest } f = .ok (i, c') := by
  cases hl : lookup b0 with
  | none => rw [decode_of_lookup_none hl] at h; cases h
  | some f => rw [decode_of_lookup hl] at h; exact ⟨f, rfl, h⟩

end

/-- Settles O10: both streams select one family, and its length is a function of the two bytes. -/
theorem firstTwoBytesSettleLength : Obligations.FirstTwoBytesSettleLength := by
  intro mode k k' b0 b1 rest rest' i i' c c' h h'
  obtain ⟨f, hf, h⟩ := decodeFamily_of_decode h
  obtain ⟨f', hf', h'⟩ := decodeFamily_of_decode h'
  obtain rfl : f = f' := Option.some.inj (hf.symm.trans hf')
  rw [decodeFamily_length h, decodeFamily_length h']

/-! ### Code tables, immediates and addresses (R88, R89, R92, R100, R101) -/

/-- Settles O3: the rows are run through. -/
theorem operandCodeTables : Obligations.OperandCodeTables := by
  unfold Obligations.OperandCodeTables
  decide

/-- Settles O16: each case reads one byte or two. -/
theorem immediateSizesAndValues : Obligations.ImmediateSizesAndValues :=
  fun _ _ _ _ => ⟨rfl, rfl, fun _ => rfl, rfl, rfl⟩

/-- Two address bytes under `always16`, and of a word (R101). -/
theorem accAddr_word {mode : AccAddrMode} {w : Width} (h : mode = .always16 ∨ w = .word) (k : Nat) (lo hi : Byte)
    (rest : List Byte) :
    accAddr mode { index := k, rest := lo :: hi :: rest } w =
      .ok (.a16 (wordOf hi lo), { index := k + 2, rest := rest }) := by
  rcases h with rfl | rfl
  · rfl
  · cases mode <;> rfl

/-- Settles O17: one address byte in the first case, `accAddr_word` in the second. -/
theorem accumulatorAddressSize : Obligations.AccumulatorAddressSize := by
  refine fun k lo hi rest => ⟨rfl, fun mode w h => ?_⟩
  rw [accAddr_word h]
  rfl

/-! ### The extension field (R107) -/

theorem lookup_arithImm_of_mem : ∀ b0 ∈ ([0x80, 0x81, 0x82, 0x83] : List Byte), lookup b0 = some .arithImm := by decide

theorem extension_of_unused {field : BitVec 3} (h : field ∈ ([0b001, 0b100, 0b110] : List (BitVec 3))) :
    extension field = .error (.unsupportedExtension field) := by
  simp only [List.mem_cons, List.not_mem_nil, or_false] at h
  rcases h with rfl | rfl | rfl <;> rfl

/-- The extension is examined as soon as byte 1 has been read (R257). -/
theorem decodeArithImm_of_extension_error {b0 b1 : Byte} {e : Fatal} (h : extension (ModRM.ofByte b1).reg = .error e)
    (k : Nat) (rest : List Byte) : decodeArithImm b0 { index := k, rest := b1 :: rest } = .error e := by
  simp only [decodeArithImm, Cursor.byte_cons, Except.ok_bind, h]
  rfl

/-- Settles O15: the five operations are those of `extension`; the three other fields stop ARITHIMM after byte 1. -/
theorem extensionFieldSelectsOperation : Obligations.ExtensionFieldSelectsOperation := by
  refine ⟨fun _ _ => ⟨rfl, rfl, rfl, rfl, rfl⟩, fun mode k b0 b1 rest h0 h1 => ?_⟩
  exact (decode_of_lookup (lookup_arithImm_of_mem b0 h0) ..).trans
    (decodeArithImm_of_extension_error (extension_of_unused h1) (k + 1) rest)

/-! ### Redundant encodings (R108) -/

/-- S changes nothing for a byte operation (R85). -/
theorem immSW_byte (c : Cursor) (s s' : Bool) : immSW c s .byte = immSW c s' .byte := rfl

theorem decodeArithImm_82 (c : Cursor) : decodeArithImm 0x82 c = decodeArithImm 0x80 c := by
  have hw : Width.ofBit ((0x82 : Byte).getLsbD 0) = .byte := rfl
  have hw' : Width.ofBit ((0x80 : Byte).getLsbD 0) = .byte := rfl
  simp only [decodeArithImm, hw, hw', immSW_byte _ ((0x82 : Byte).getLsbD 1) ((0x80 : Byte).getLsbD 1)]

section
variable (k : Nat) (md : BitVec 2) (rm : BitVec 3) (rest : List Byte)

theorem decodeRmImm_ignores_reg (b0 : Byte) (reg reg' : BitVec 3) :
    decodeRmImm b0 { index := k, rest := (md ++ reg ++ rm : BitVec 8) :: rest } =
      decodeRmImm b0 { index := k, rest := (md ++ reg' ++ rm : BitVec 8) :: rest } := by
  simp only [decodeRmImm, Cursor.byte_cons, Except.ok_bind, ModRM.ofByte_append]

/-- The fields of a SEG ModRM byte written bit 5 apart. -/
theorem ModRM.ofByte_seg (x : BitVec 1) (ss : BitVec 2) :
    ModRM.ofByte (md ++ x ++ ss ++ rm : BitVec 8) = { mod := md, reg := x ++ ss, rm := rm } := by
  revert md x ss rm; decide

theorem decodeSeg_ignores_bit5 (make : RM → SegReg → Instr) (x x' : BitVec 1) (ss : BitVec 2) :
    decodeSeg make { index := k, rest := (md ++ x ++ ss ++ rm : BitVec 8) :: rest } =
      decodeSeg make { index := k, rest := (md ++ x' ++ ss ++ rm : BitVec 8) :: rest } := by
  simp only [decodeSeg, Cursor.byte_cons, Except.ok_bind, segField_eq, ModRM.ofByte_seg,
    BitVec.extractLsb'_append_eq_right]

end

theorem lookup_movRmImm_of_mem : ∀ b0 ∈ ([0xC6, 0xC7] : List Byte), lookup b0 = some .movRmImm := by decide

/-- Settles O18: one lemma per redundant encoding; a register operand is the same descriptor as REG and as R/M. -/
theorem redundantEncodings : Obligations.RedundantEncodings := by
  refine ⟨fun mode k rest => ?opcode82, fun mode k b0 md reg reg' rm rest h => ?rmImm,
    fun mode k b0 md x x' ss rm rest h => ?seg, fun r q _ => ⟨rfl, rfl, rfl, rfl⟩⟩
  case opcode82 =>
    rw [decode_of_lookup (lookup_arithImm_of_mem 0x82 (by decide)),
      decode_of_lookup (lookup_arithImm_of_mem 0x80 (by decide))]
    exact decodeArithImm_82 _
  case rmImm =>
    rw [decode_of_lookup (lookup_movRmImm_of_mem b0 h), decode_of_lookup (lookup_movRmImm_of_mem b0 h)]
    exact decodeRmImm_ignores_reg ..
  case seg =>
    simp only [List.mem_cons, List.not_mem_nil, or_false] at h
    rcases h with rfl | rfl
    · have hl : lookup 0x8C = some .movRmSeg := by decide
      rw [decode_of_lookup hl, decode_of_lookup hl]
      exact decodeSeg_ignores_bit5 ..
    · have hl : lookup 0x8E = some .movSegRm := by decide
      rw [decode_of_lookup hl, decode_of_lookup hl]
      exact decodeSeg_ignores_bit5 (make := fun rm sr => .movSegRm sr rm) ..

end Sys2Proof
end

section
/-!
PROOFS. The statements about the MOV family (40_mov.md): what each of the seven forms answers when its operands are
accessible (R130 to R137).
-/

namespace Sys2Proof.Machine

/-! ### Operands of one width (R84, R97) -/

/-- What is read from the operand is a value of width `w`: a location of that width, or an immediate held at it. -/
def operandFits (w : Width) : Operand → Prop
  | .loc l => locWidth l = w
  | .imm _ v => narrow w v = v

/-- A write of that width keeps the whole value read. -/
theorem operandFits.narrow_eq {w : Width} {o : Operand} {s : State} {v : Word} (ho : operandFits w o)
    (h : readOperand s o = .ok v) : narrow w v = v := by
  cases o with
  | loc l => exact ho ▸ readLoc_narrow h
  | imm w' v' => cases h; exact ho

/-- The accumulator is AL or AX (R133, R134). -/
theorem accLoc_eq (w : Width) : accLoc w = .reg w .ax false := by cases w <;> rfl

theorem locWidth_accLoc (w : Width) : locWidth (accLoc w) = w := congrArg locWidth (accLoc_eq w)

theorem locWidth_rmLoc {w : Width} {rm : RM} (h : rm.wf w = true) : locWidth (rmLoc w rm) = w := by
  cases rm with
  | reg r => exact eq_of_beq h
  | mem m => rfl

theorem immOperand_fits (imm : Imm) : operandFits imm.width (immOperand imm) := by
  cases imm with
  | byte v => exact congrArg zext16 (lowByte_zext16 v)
  | word v => rfl

theorem immOperand_accessible (s : State) (imm : Imm) : operandAccessible s (immOperand imm) := by
  cases imm <;> trivial

/-! ### The operands of a well-formed MOV -/

theorem instruction_src_noIp {i : Instr} {dst : Loc} {src : Operand} {mn : Mnemonic}
    (h : instruction i = ⟨mn, .two dst src⟩) : operandNoIp src := by
  cases i with
  | movRmReg | addRmReg | subRmReg | cmpRmReg => cases h; exact rmRegSrc_noIp ..
  | movRmImm | movRegImm | addAccImm | subAccImm | cmpAccImm => cases h; exact immOperand_noIp _
  | movAccMem w addr => cases h; exact accMemLoc_noIp w addr
  | movMemAcc => cases h; exact accLoc_noIp _
  | movRmSeg => cases h; exact segLoc_noIp _
  | movSegRm => cases h; exact rmLoc_noIp ..
  | addRmImm | adcRmImm | subRmImm | sbbRmImm | cmpRmImm => cases h; exact arithImmOperand_noIp _
  | _ => cases h

/-- The two operands of a well-formed MOV have one width. -/
theorem mov_src_fits {mode : AccAddrMode} {i : Instr} {dst : Loc} {src : Operand} (hwf : i.wf mode = true)
    (h : instruction i = ⟨.mov, .two dst src⟩) : operandFits (locWidth dst) src := by
  cases i with
  | movRmReg d reg rm =>
    cases h
    cases d with
    | toRm => exact (locWidth_rmLoc hwf).symm
    | toReg => exact locWidth_rmLoc hwf
  | movRmImm rm imm => cases h; rw [locWidth_rmLoc hwf]; exact immOperand_fits imm
  | movRegImm reg imm =>
    cases h
    have hw : locWidth (gregLoc reg) = imm.width := eq_of_beq hwf
    exact hw ▸ immOperand_fits imm
  | movAccMem w addr => cases h; exact (locWidth_accLoc w).symm
  | movMemAcc w addr => cases h; exact locWidth_accLoc w
  | movRmSeg rm sr => cases h; exact (locWidth_rmLoc hwf).symm
  | movSegRm sr rm => cases h; exact locWidth_rmLoc hwf
  | _ => cases h

/-! ### A MOV completes (R137) -/

theorem exec_mov {i : Instr} {dst : Loc} {src : Operand} (h : instruction i = ⟨.mov, .two dst src⟩) (s : State) :
    exec i s = move dst src i.length s := by
  cases i with
  | movRmReg | movRmImm | movRegImm | movAccMem | movMemAcc | movRmSeg | movSegRm => cases h; rfl
  | _ => cases h

/-- The one write of a MOV, after the pc advance: what it stores is what was read, since the widths agree, and its frame is
the frame of the instruction. -/
theorem mov_movesTo {mode : AccAddrMode} {i : Instr} {dst : Loc} {src : Operand} {s : State} (hm : s.mem.wf = true)
    (hwf : i.wf mode = true) (hi : instruction i = ⟨.mov, .two dst src⟩) (ad : accessible s dst)
    (as : operandAccessible s src) : MovesTo i dst src s := by
  have hd : locNoIp dst := instruction_dst_noIp hi
  obtain ⟨v, t, hv, ht, hmove⟩ := move_completes i.length hd (instruction_src_noIp hi) ad as
  have hm' : (s.advance i.length).mem.wf = true := hm
  refine ⟨t, (exec_mov hi s).trans hmove, ?value, move_flags hmove, writeLoc_ip hd ht,
    (writeLoc_frame hm' ht).of_advance hd⟩
  case value => rw [readLoc_writeLoc hm' ht, (mov_src_fits hwf hi).narrow_eq hv, hv]

/-- Settles O22: `mov_movesTo`, with the R/M operand as destination or as source; a register or an immediate is always
accessible. -/
theorem movRegisterAndImmediateForms : Obligations.MovRegisterAndImmediateForms := by
  intro mode s hm
  refine ⟨fun d reg rm hwf ha => ?rmReg, fun rm imm hwf ha => ?rmImm, fun reg imm hwf => ?regImm⟩
  case rmReg =>
    cases d with
    | toRm => exact mov_movesTo hm hwf rfl ha trivial
    | toReg => exact mov_movesTo hm hwf rfl trivial ha
  case rmImm => exact mov_movesTo hm hwf rfl ha (immOperand_accessible s imm)
  case regImm => exact mov_movesTo hm hwf rfl trivial (immOperand_accessible s imm)

/-- Settles O23: `mov_movesTo`; the accumulator is AL or AX by `accLoc_eq`, and a register is always accessible. -/
theorem movAccumulatorAndSegmentForms : Obligations.MovAccumulatorAndSegmentForms := by
  intro mode s hm
  refine ⟨fun w addr hwf ha => ?accMem, fun w addr hwf ha => ?memAcc, fun rm sr hwf ha => ?rmSeg,
    fun sr rm hwf ha => ?segRm⟩
  case accMem => exact accLoc_eq w ▸ mov_movesTo hm hwf rfl trivial ha
  case memAcc => exact accLoc_eq w ▸ mov_movesTo hm hwf rfl ha trivial
  case rmSeg => exact mov_movesTo hm hwf rfl ha trivial
  case segRm => exact mov_movesTo hm hwf rfl trivial ha

end Sys2Proof.Machine
end

section
/-!
PROOFS. The statements about the arithmetic family (41_arithmetic.md): what the forms of ADD, SUB, CMP, ADC and SBB
answer when their operands are accessible (R150 to R165), and ADC and SBB without a carry (42_flags.md R190 L-e).
-/

namespace Sys2Proof.Machine

/-! ### The result at the width of the operation (R150) -/

theorem narrow_byte_of_lt {v : Word} (h : v.toNat < 256) : narrow .byte v = v := by
  apply BitVec.eq_of_toNat_eq
  have hlow : (narrow .byte v).toNat = v.toNat % 256 := by
    simp [narrow, zext16, lowByte]
    omega
  omega

/-- The masked result is a value of the operation's width: writing it back loses nothing. -/
theorem narrow_resultOf (w : Width) (raw : Int) :
    narrow w (resultOf raw (widthBits w)) = resultOf raw (widthBits w) := by
  cases w with
  | word => rfl
  | byte =>
    apply narrow_byte_of_lt
    rw [resultOf, BitVec.toNat_ofInt]
    simp only [widthBits]
    omega

/-! ### What the write-back leaves unchanged (R150, R156) -/

theorem readLoc_withFlags (s : State) (l : Loc) (f : Word) : readLoc { s with flags := f } l = readLoc s l := by
  cases l <;> rfl

/-- FLAGS are outside every frame. -/
theorem Frame.withFlags {s t : State} {dst : Option Loc} (h : Frame s t dst) (f : Word) :
    Frame s { t with flags := f } dst :=
  ⟨h.regs, h.half, h.mem, h.code, h.opts, h.status, h.emitted⟩

/-- The pc advance alone has the frame of an instruction without a destination. -/
theorem advance_frame (s : State) (n : Nat) : Frame s (s.advance n) none where
  regs _ hr _ := RegFile.get_set_ip _ _ hr
  half _ _ h := by cases h
  mem _ _ := rfl
  code := rfl
  opts := rfl
  status := rfl
  emitted := rfl

section
variable {op : ArithOp} {dst : Loc} {v : Word} {n : Nat} {s t : State}

theorem writeBack_ip (hd : locNoIp dst) (h : writeBack op (s.advance n) dst v = .ok t) :
    t.regs.ip = s.regs.ip + BitVec.ofNat 16 n := by
  rcases writeBack_cases h with ⟨-, hw⟩ | ⟨-, rfl⟩
  · exact writeLoc_ip hd hw
  · rfl

/-- Memory in canonical form matters only to an operation that writes. -/
theorem writeBack_frame (hm : op.writes = true → s.mem.wf = true) (hd : locNoIp dst)
    (h : writeBack op (s.advance n) dst v = .ok t) : Frame s t (if op.writes then some dst else none) := by
  rcases writeBack_cases h with ⟨ho, hw⟩ | ⟨ho, rfl⟩
  · rw [if_pos ho]
    exact (writeLoc_frame (s := s.advance n) (hm ho) hw).of_advance hd
  · rw [ho]
    exact advance_frame s n

theorem readLoc_writeBack (hm : s.mem.wf = true) (ho : op.writes = true)
    (h : writeBack op s dst v = .ok t) : readLoc t dst = .ok (narrow (locWidth dst) v) := by
  rw [writeBack, if_pos ho] at h
  exact readLoc_writeLoc hm h

end

/-! ### An arithmetic instruction completes (R150) -/

theorem ArithOp.mnemonic_injective : Function.Injective ArithOp.mnemonic := by
  intro op op' h
  cases op <;> cases op' <;> cases h <;> rfl

theorem exec_arith {i : Instr} {op : ArithOp} {dst : Loc} {src : Operand}
    (h : instruction i = ⟨op.mnemonic, .two dst src⟩) (s : State) : exec i s = arith op dst src i.length s := by
  have hmem : (instruction i).mnemonic ∈ twoOperandMnemonics := by
    rw [h]
    exact List.mem_cons_of_mem _ op.mnemonic_mem
  cases exec_shape i with
  | mov dst' src' hi _ =>
    have hm : Mnemonic.mov = op.mnemonic := congrArg Instruction.mnemonic (hi.symm.trans h)
    cases op <;> cases hm
  | arith op' dst' src' hi he =>
    obtain ⟨hop, ⟨⟩⟩ := Instruction.mk.inj (hi.symm.trans h)
    rw [← ArithOp.mnemonic_injective hop]
    exact he s
  | jump _ _ hn | loop _ _ hn | jcxz _ hn => exact absurd hmem hn

/-- `raw` is the operation's raw result as a function of the integers (R150, R153). -/
def ArithOp.computesRaw (op : ArithOp) (raw : Int → Int → Int → Int) : Prop :=
  ∀ d s cin, rawResult op d s cin = raw d.toNat s.toNat (carryInt cin)

/-- Every arithmetic instruction with accessible operands: its write-back, after the pc advance, stores the masked
result (nothing for CMP) and has the frame of the instruction. -/
theorem arith_computes {i : Instr} {op : ArithOp} {dst : Loc} {src : Operand} {s : State}
    {raw : Int → Int → Int → Int} (hraw : op.computesRaw raw) (hm : op.writes = true → s.mem.wf = true)
    (hi : instruction i = ⟨op.mnemonic, .two dst src⟩) (ad : accessible s dst) (as : operandAccessible s src) :
    Computes op.kind raw op.writes i dst src s := by
  have hd : locNoIp dst := instruction_dst_noIp hi
  obtain ⟨dv, sv, s2, hdv, hsv, hw, harith⟩ := arith_completes op i.length hd (instruction_src_noIp hi) ad as
  have hr : arithRaw op s dv sv = raw dv.toNat sv.toNat (if s.flags.getLsbD 0 then 1 else 0) := hraw ..
  refine ⟨dv, sv, _, hdv, hsv, (exec_arith hi s).trans harith, ⟨?flags, fun ho => ?value⟩,
    writeBack_ip (t := s2) hd hw, (writeBack_frame hm hd hw).withFlags _⟩
  case flags => rw [← hr]; rfl
  case value =>
    rw [readLoc_withFlags, readLoc_writeBack (s := s.advance i.length) (hm ho) ho hw, arithResult, narrow_resultOf,
      hr]
    rfl

/-! ### The operands of the three forms -/

theorem arithImmOperand_accessible (s : State) (imm : ArithImm) : operandAccessible s (arithImmOperand imm) := by
  cases imm <;> trivial

section
variable {i : Instr} {op : ArithOp} {s : State} {raw : Int → Int → Int → Int}

/-- Format RMREG, the R/M operand as destination or as source (R86). -/
theorem arith_computes_rmReg (hraw : op.computesRaw raw) (hm : op.writes = true → s.mem.wf = true) {d : Dir}
    {reg : GReg} {rm : RM} (hi : instruction i = ⟨op.mnemonic, .two (rmRegDst d reg rm) (.loc (rmRegSrc d reg rm))⟩)
    (ha : accessible s (rmLoc reg.width rm)) :
    Computes op.kind raw op.writes i (rmRegDst d reg rm) (.loc (rmRegSrc d reg rm)) s := by
  cases d with
  | toRm => exact arith_computes hraw hm hi ha trivial
  | toReg => exact arith_computes hraw hm hi trivial ha

/-- Format ACCIMM: the accumulator is AL or AX, and always accessible. -/
theorem arith_computes_accImm (hraw : op.computesRaw raw) (hm : op.writes = true → s.mem.wf = true) {imm : Imm}
    (hi : instruction i = ⟨op.mnemonic, .two (accLoc imm.width) (immOperand imm)⟩) :
    Computes op.kind raw op.writes i (.reg imm.width .ax false) (immOperand imm) s :=
  accLoc_eq imm.width ▸ arith_computes hraw hm hi trivial (immOperand_accessible s imm)

/-- Format ARITHIMM. -/
theorem arith_computes_rmImm (hraw : op.computesRaw raw) (hm : op.writes = true → s.mem.wf = true) {rm : RM}
    {imm : ArithImm} (hi : instruction i = ⟨op.mnemonic, .two (rmLoc imm.width rm) (arithImmOperand imm)⟩)
    (ha : accessible s (rmLoc imm.width rm)) :
    Computes op.kind raw op.writes i (rmLoc imm.width rm) (arithImmOperand imm) s :=
  arith_computes hraw hm hi ha (arithImmOperand_accessible s imm)

end

/-! ### The raw results (R150, R153) -/

theorem add_computesRaw : ArithOp.add.computesRaw fun d s _ => d + s := fun _ _ _ => rfl
theorem sub_computesRaw : ArithOp.sub.computesRaw fun d s _ => d - s := fun _ _ _ => rfl
theorem cmp_computesRaw : ArithOp.cmp.computesRaw fun d s _ => d - s := fun _ _ _ => rfl
theorem adc_computesRaw : ArithOp.adc.computesRaw fun d s cin => d + s + cin := fun _ _ _ => rfl
theorem sbb_computesRaw : ArithOp.sbb.computesRaw fun d s cin => d - s - cin := fun _ _ _ => rfl

/-! ### The statements -/

/-- CMP needs no memory in canonical form, since it writes nothing (R156). -/
theorem cmp_writes_imp (p : Prop) : ArithOp.cmp.writes = true → p := fun h => by cases h

/-- Settles O24: `arith_computes` in each format, with the sum as raw result. -/
theorem addForms : Obligations.AddForms := fun _ _ hm =>
  ⟨fun _ _ _ _ ha => arith_computes_rmReg add_computesRaw (fun _ => hm) rfl ha,
    fun _ => arith_computes_accImm add_computesRaw (fun _ => hm) rfl,
    fun _ _ _ ha => arith_computes_rmImm add_computesRaw (fun _ => hm) rfl ha⟩

/-- Settles O25: `arith_computes` in each format, the destination being the minuend. -/
theorem subForms : Obligations.SubForms := fun _ _ hm =>
  ⟨fun _ _ _ _ ha => arith_computes_rmReg sub_computesRaw (fun _ => hm) rfl ha,
    fun _ => arith_computes_accImm sub_computesRaw (fun _ => hm) rfl,
    fun _ _ _ ha => arith_computes_rmImm sub_computesRaw (fun _ => hm) rfl ha⟩

/-- Settles O26: `arith_computes` in each format, of an operation that has no destination in its frame. -/
theorem cmpFormsWriteNothing : Obligations.CmpFormsWriteNothing := fun _ _ =>
  ⟨fun _ _ _ _ ha => arith_computes_rmReg cmp_computesRaw (cmp_writes_imp _) rfl ha,
    fun _ => arith_computes_accImm cmp_computesRaw (cmp_writes_imp _) rfl,
    fun _ _ _ ha => arith_computes_rmImm cmp_computesRaw (cmp_writes_imp _) rfl ha⟩

/-- Settles O27: `arith_computes` in format ARITHIMM, the carry-in being bit 0 of FLAGS before the instruction. -/
theorem adcAndSbbHonourCarryIn : Obligations.AdcAndSbbHonourCarryIn := fun _ _ hm =>
  ⟨fun _ _ _ ha => arith_computes_rmImm adc_computesRaw (fun _ => hm) rfl ha,
    fun _ _ _ ha => arith_computes_rmImm sbb_computesRaw (fun _ => hm) rfl ha⟩

/-! ### ADC and SBB without a carry (R153) -/

/-- Two operations of one kind that both write, or both do not, differ in their raw results only. -/
theorem arith_congr {op op' : ArithOp} {s : State} (hk : op.kind = op'.kind) (hw : op.writes = op'.writes)
    (hr : ∀ d v, rawResult op d v (flag s.flags cfBit) = rawResult op' d v (flag s.flags cfBit)) (dst : Loc)
    (src : Operand) (n : Nat) : arith op dst src n s = arith op' dst src n s := by
  simp only [arith, writeBack, hk, hw, hr]

theorem rawResult_adc_false (d s : Word) : rawResult .adc d s false = rawResult .add d s false :=
  Int.add_zero _

theorem rawResult_sbb_false (d s : Word) : rawResult .sbb d s false = rawResult .sub d s false :=
  Int.sub_zero _

/-- Settles O37: the operations of each pair agree in kind and write-back, and, with no carry-in, in the raw result. -/
theorem adcAndSbbWithoutCarry : Obligations.AdcAndSbbWithoutCarry := by
  intro s rm imm hcf
  have hflag : flag s.flags cfBit = false := hcf
  constructor
  · exact arith_congr (op := .adc) (op' := .add) rfl rfl (fun d v => by rw [hflag, rawResult_adc_false]) ..
  · exact arith_congr (op := .sbb) (op' := .sub) rfl rfl (fun d v => by rw [hflag, rawResult_sbb_false]) ..

end Sys2Proof.Machine
end

section
/-!
PROOFS. The statements about the flag engine (42_flags.md R180 to R188): each flag by its formula, and what CF, AF and OF
mean for the five operations.
-/

namespace Sys2Proof.Machine

/-! ### One bit of the new flags word (R180, R181) -/

section
variable (kind : AluKind) (f d s : Word) (raw : Int) (n : Nat)

/-- Every bit of the new word: the last of the six writes to it, or the old bit. -/
theorem computeFlags_getLsbD {j : Nat} (hj : j < 16) : (computeFlags kind f d s raw n).getLsbD j =
    if j = ofBit then overflowFlag kind d s (resultOf raw n) n
    else if j = sfBit then signBit (resultOf raw n) n
    else if j = zfBit then zeroFlag (resultOf raw n)
    else if j = afBit then auxFlag d s (resultOf raw n)
    else if j = pfBit then parityFlag (resultOf raw n)
    else if j = cfBit then carryFlag kind raw n
    else f.getLsbD j := by
  simp only [computeFlags, withFlag_getLsbD _ _ _ _ hj]

theorem computeFlags_cf : (computeFlags kind f d s raw n).getLsbD cfBit = carryFlag kind raw n :=
  computeFlags_getLsbD kind f d s raw n (by decide)

theorem computeFlags_pf : (computeFlags kind f d s raw n).getLsbD pfBit = parityFlag (resultOf raw n) :=
  computeFlags_getLsbD kind f d s raw n (by decide)

theorem computeFlags_af : (computeFlags kind f d s raw n).getLsbD afBit = auxFlag d s (resultOf raw n) :=
  computeFlags_getLsbD kind f d s raw n (by decide)

theorem computeFlags_zf : (computeFlags kind f d s raw n).getLsbD zfBit = zeroFlag (resultOf raw n) :=
  computeFlags_getLsbD kind f d s raw n (by decide)

theorem computeFlags_sf : (computeFlags kind f d s raw n).getLsbD sfBit = signBit (resultOf raw n) n :=
  computeFlags_getLsbD kind f d s raw n (by decide)

theorem computeFlags_of :
    (computeFlags kind f d s raw n).getLsbD ofBit = overflowFlag kind d s (resultOf raw n) n :=
  computeFlags_getLsbD kind f d s raw n (by decide)

end

/-- Settles O30: each of the six bits is its formula, which does not mention the old word. -/
theorem flagsAreIndependentOfOldFlags : Obligations.FlagsAreIndependentOfOldFlags := by
  intro kind f f' d s raw n
  refine ⟨?_, fun b hb => computeFlags_reserved kind f d s raw n hb⟩
  simp only [flagBits, List.forall_mem_cons]
  exact ⟨by simp only [computeFlags_cf], by simp only [computeFlags_pf], by simp only [computeFlags_af],
    by simp only [computeFlags_zf], by simp only [computeFlags_sf], by simp only [computeFlags_of], by simp⟩

/-! ### The formulas written out (R182 to R187) -/

/-- No bit of the masked result is lost in the word that holds it. -/
theorem toNat_resultOf (raw : Int) {n : Nat} (hn : n ≤ 16) : ((resultOf raw n).toNat : Int) = raw % 2 ^ n := by
  have hpos : (0 : Int) < 2 ^ n := by positivity
  have hle : (2 : Int) ^ n ≤ 2 ^ 16 := pow_le_pow_right₀ (by decide) hn
  have h0 := Int.emod_nonneg raw hpos.ne'
  have hlt := Int.emod_lt_of_pos raw hpos
  rw [resultOf, BitVec.toNat_ofInt, Int.emod_eq_of_lt h0 (by push_cast; omega), Int.toNat_of_nonneg h0]

/-- The number of elements that satisfy `p`, as a sum of bits. -/
theorem length_filter_eq_sum_toNat (p : Nat → Bool) (l : List Nat) :
    (l.filter p).length = (l.map fun j => (p j).toNat).sum := by
  induction l with
  | nil => rfl
  | cons j l ih => cases h : p j <;> simp [h, ih, Nat.add_comm]

theorem parityFlag_eq (res : Word) :
    parityFlag res = decide (((List.range 8).map fun j => (res.getLsbD j).toNat).sum % 2 = 0) := by
  rw [parityFlag, popcount8, length_filter_eq_sum_toNat]
  rfl

theorem zeroFlag_resultOf (raw : Int) {n : Nat} (hn : n ≤ 16) :
    zeroFlag (resultOf raw n) = decide (raw % 2 ^ n = 0) := by
  rw [zeroFlag, beq_eq_decide, decide_eq_decide, ← toNat_resultOf raw hn, BitVec.toNat_eq]
  simp

theorem overflowFlag_add_eq (d s res : Word) (n : Nat) : overflowFlag .add d s res n =
    ((signBit d n == signBit s n) && (signBit res n != signBit d n)) := by
  simp only [overflowFlag]
  cases signBit d n <;> cases signBit s n <;> cases signBit res n <;> rfl

theorem overflowFlag_sub_eq (d s res : Word) (n : Nat) : overflowFlag .sub d s res n =
    ((signBit d n != signBit s n) && (signBit res n == signBit s n)) := by
  simp only [overflowFlag]
  cases signBit d n <;> cases signBit s n <;> cases signBit res n <;> rfl

/-- Settles O29: each of the six bits is its formula, and the engine writes no other bit. -/
theorem flagEngineFormulas : Obligations.FlagEngineFormulas := by
  intro kind f d s raw n hn new res sg
  have hn16 : n ≤ 16 := by omega
  refine ⟨(computeFlags_pf ..).trans (parityFlag_eq _), computeFlags_sf ..,
    (computeFlags_zf ..).trans (zeroFlag_resultOf raw hn16), (computeFlags_of ..).trans ?overflow, computeFlags_af ..,
    (computeFlags_cf ..).trans ?carry, fun _ hj => computeFlags_reserved kind f d s raw n hj⟩
  case overflow =>
    cases kind with
    | add => exact overflowFlag_add_eq d s res n
    | sub => exact overflowFlag_sub_eq d s res n
  case carry => cases kind <;> rfl

/-! ### The five operations as a sum or a difference with a carry-in (R150, R153) -/

/-- The sum of the operands and a carry, or their difference less a borrow. -/
def AluKind.combine (kind : AluKind) (d s : Int) (c : Bool) : Int :=
  match kind with
  | .add => d + s + c.toNat
  | .sub => d - s - c.toNat

/-- The carry-in that the operation takes in: only ADC and SBB use it. -/
def ArithOp.carryIn (op : ArithOp) (cin : Bool) : Bool :=
  match op with
  | .adc | .sbb => cin
  | .add | .sub | .cmp => false

theorem rawResult_eq_combine (op : ArithOp) (d s : Word) (cin : Bool) :
    rawResult op d s cin = op.kind.combine d.toNat s.toNat (op.carryIn cin) := by
  have hc : carryInt cin = cin.toNat := by cases cin <;> rfl
  cases op <;> simp [rawResult, AluKind.combine, ArithOp.kind, ArithOp.carryIn, hc]

/-! ### CF (R187) -/

/-- CF of a sum is that it reaches `2^n`, CF of a difference that the subtrahend and borrow exceed the minuend. -/
theorem carryFlag_combine (kind : AluKind) (d s : Nat) (c : Bool) (n : Nat) :
    carryFlag kind (kind.combine d s c) n = match kind with
      | .add => decide (d + s + c.toNat ≥ 2 ^ n)
      | .sub => decide (s + c.toNat > d) := by
  have hpow : ((2 ^ n : Nat) : Int) = 2 ^ n := Nat.cast_pow 2 n
  cases kind with
  | add => exact decide_eq_decide.mpr (by simp only [AluKind.combine]; omega)
  | sub => exact decide_eq_decide.mpr (by simp only [AluKind.combine]; omega)

/-- A sum of two `n`-bit operands and a carry lies in `[0, 2^(n+1))`, a difference in `[-2^n, 2^n)`; in both ranges CF
is bit `n` of the raw result. -/
theorem carryFlag_eq_bit (kind : AluKind) {d s : Nat} (c : Bool) {n : Nat} (hd : d < 2 ^ n) (hs : s < 2 ^ n) :
    carryFlag kind (kind.combine d s c) n = decide (kind.combine d s c % 2 ^ (n + 1) ≥ 2 ^ n) := by
  have hpow : ((2 ^ n : Nat) : Int) = 2 ^ n := Nat.cast_pow 2 n
  have hc := c.toNat_le
  rw [pow_succ']
  cases kind with
  | add =>
    refine decide_eq_decide.mpr ?_
    simp only [AluKind.combine]
    rw [Int.emod_eq_of_lt (by omega) (by omega)]
    omega
  | sub =>
    refine decide_eq_decide.mpr ?_
    simp only [AluKind.combine]
    by_cases hneg : (d : Int) - s - c.toNat < 0
    · rw [← Int.add_emod_right, Int.emod_eq_of_lt (by omega) (by omega)]
      omega
    · rw [Int.emod_eq_of_lt (by omega) (by omega)]
      omega

theorem flag_cf_rawResult (op : ArithOp) (f d s : Word) (cin : Bool) (n : Nat) :
    flag (computeFlags op.kind f d s (rawResult op d s cin) n) 0 =
      carryFlag op.kind (op.kind.combine d.toNat s.toNat (op.carryIn cin)) n := by
  rw [← rawResult_eq_combine]
  exact computeFlags_cf ..

/-- Settles O31: the carry of a sum or a difference, for each operation with the carry-in it uses. -/
theorem carryFlagIsUnsignedOverflow : Obligations.CarryFlagIsUnsignedOverflow := by
  intro f d s cin n _ hd hs cf
  have hcf : ∀ op, cf op = carryFlag op.kind (op.kind.combine d.toNat s.toNat (op.carryIn cin)) n :=
    fun op => flag_cf_rawResult op f d s cin n
  have hbit : ∀ op, cf op = decide (rawResult op d s cin % 2 ^ (n + 1) ≥ 2 ^ n) := fun op => by
    rw [hcf, rawResult_eq_combine, carryFlag_eq_bit _ _ hd hs]
  refine ⟨?_, ?_, ?_, ?_, ?_, hbit⟩ <;> rw [hcf, carryFlag_combine] <;> rfl

/-! ### AF (R186) -/

/-- The exclusive or of two bits is the parity of a sum. -/
theorem decide_odd_xor (a b : Nat) :
    (decide (a % 2 = 1) ^^ decide (b % 2 = 1)) = decide ((a + b) % 2 = 1) := by
  rcases Nat.mod_two_eq_zero_or_one a with ha | ha <;> rcases Nat.mod_two_eq_zero_or_one b with hb | hb <;>
    simp [Nat.add_mod, ha, hb]

theorem auxFlag_eq_parity (d s res : Word) :
    auxFlag d s res = decide ((s.toNat / 16 + d.toNat / 16 + res.toNat / 16) % 2 = 1) := by
  rw [auxFlag, BitVec.getLsbD_xor, BitVec.getLsbD_xor]
  simp only [← BitVec.testBit_toNat, Nat.testBit_eq_decide_div_mod_eq, decide_odd_xor]

/-- AF is the carry or borrow between bit 3 and bit 4. -/
theorem auxFlag_combine (kind : AluKind) {d s : Word} (c : Bool) {n : Nat} (hn : n = 8 ∨ n = 16) :
    auxFlag d s (resultOf (kind.combine d.toNat s.toNat c) n) = match kind with
      | .add => decide (d.toNat % 16 + s.toNat % 16 + c.toNat ≥ 16)
      | .sub => decide (d.toNat % 16 < s.toNat % 16 + c.toNat) := by
  have hres := toNat_resultOf (kind.combine d.toNat s.toNat c) (n := n) (by omega)
  have hc := c.toNat_le
  rw [auxFlag_eq_parity]
  cases kind with
  | add =>
    refine decide_eq_decide.mpr ?_
    simp only [AluKind.combine] at hres ⊢
    rcases hn with rfl | rfl <;> omega
  | sub =>
    refine decide_eq_decide.mpr ?_
    simp only [AluKind.combine] at hres ⊢
    rcases hn with rfl | rfl <;> omega

theorem flag_af_rawResult (op : ArithOp) (f d s : Word) (cin : Bool) (n : Nat) :
    flag (computeFlags op.kind f d s (rawResult op d s cin) n) 4 =
      auxFlag d s (resultOf (op.kind.combine d.toNat s.toNat (op.carryIn cin)) n) := by
  rw [← rawResult_eq_combine]
  exact computeFlags_af ..

/-- Settles O32: the nibble carry of a sum or a difference, for each operation with the carry-in it uses. -/
theorem auxFlagIsNibbleCarry : Obligations.AuxFlagIsNibbleCarry := by
  intro f d s cin n hn _ _ af
  have haf : ∀ op, af op = auxFlag d s (resultOf (op.kind.combine d.toNat s.toNat (op.carryIn cin)) n) :=
    fun op => flag_af_rawResult op f d s cin n
  refine ⟨?_, ?_, ?_, ?_, ?_⟩ <;> rw [haf, auxFlag_combine _ _ hn] <;> rfl

/-! ### OF (R185) -/

/-- The two's-complement value of an `n`-bit operand. -/
def signedValue (v : Word) (n : Nat) : Int := if signBit v n then (v.toNat : Int) - 2 ^ n else v.toNat

theorem signBit_iff {v : Word} {n : Nat} (hn : n = 8 ∨ n = 16) (hv : v.toNat < 2 ^ n) :
    signBit v n = true ↔ 2 ^ (n - 1) ≤ v.toNat := by
  rw [signBit, ← BitVec.testBit_toNat, Nat.testBit_eq_decide_div_mod_eq, decide_eq_true_iff]
  rcases hn with rfl | rfl <;> omega

theorem signedValue_eq {v : Word} {n : Nat} (hn : n = 8 ∨ n = 16) (hv : v.toNat < 2 ^ n) :
    signedValue v n = if 2 ^ (n - 1) ≤ v.toNat then (v.toNat : Int) - 2 ^ n else v.toNat := by
  simp only [signedValue, signBit_iff hn hv]

theorem signedValue_word (v : Word) : signedValue v 16 = v.toInt := by
  rw [signedValue_eq (.inr rfl) v.isLt, BitVec.toInt_eq_toNat_cond]
  split <;> split <;> omega

theorem signedValue_byte (v : BitVec 8) : signedValue (v.setWidth 16) 8 = v.toInt := by
  have hv : (v.setWidth 16).toNat = v.toNat := BitVec.toNat_setWidth_of_le (by decide)
  rw [signedValue_eq (.inl rfl) (hv ▸ v.isLt), BitVec.toInt_eq_toNat_cond, hv]
  split <;> split <;> omega

theorem overflowFlag_iff (kind : AluKind) (d s res : Word) (n : Nat) :
    overflowFlag kind d s res n = true ↔ match kind with
      | .add => (signBit d n = true ↔ signBit s n = true) ∧ ¬ (signBit res n = true ↔ signBit d n = true)
      | .sub => ¬ (signBit d n = true ↔ signBit s n = true) ∧ (signBit res n = true ↔ signBit s n = true) := by
  cases kind with
  | add => simp [overflowFlag_add_eq]
  | sub => simp [overflowFlag_sub_eq]

/-- OF is that the signed sum or difference does not fit in `n` bits. -/
theorem overflowFlag_combine (kind : AluKind) {d s : Word} (c : Bool) {n : Nat} (hn : n = 8 ∨ n = 16)
    (hd : d.toNat < 2 ^ n) (hs : s.toNat < 2 ^ n) :
    overflowFlag kind d s (resultOf (kind.combine d.toNat s.toNat c) n) n = true ↔
      kind.combine (signedValue d n) (signedValue s n) c < -2 ^ (n - 1) ∨
        2 ^ (n - 1) - 1 < kind.combine (signedValue d n) (signedValue s n) c := by
  have hres := toNat_resultOf (kind.combine d.toNat s.toNat c) (n := n) (by omega)
  generalize resultOf (kind.combine d.toNat s.toNat c) n = res at hres ⊢
  have hlt : res.toNat < 2 ^ n := by rcases hn with rfl | rfl <;> omega
  have hc := c.toNat_le
  rw [overflowFlag_iff, signedValue_eq hn hd, signedValue_eq hn hs]
  simp only [signBit_iff hn hd, signBit_iff hn hs, signBit_iff hn hlt]
  cases kind with
  | add =>
    simp only [AluKind.combine] at hres ⊢
    rcases hn with rfl | rfl <;> omega
  | sub =>
    simp only [AluKind.combine] at hres ⊢
    rcases hn with rfl | rfl <;> omega

theorem flag_of_rawResult (op : ArithOp) (f : Word) {d s : Word} (cin : Bool) {n : Nat} (hn : n = 8 ∨ n = 16)
    (hd : d.toNat < 2 ^ n) (hs : s.toNat < 2 ^ n) :
    flag (computeFlags op.kind f d s (rawResult op d s cin) n) 11 =
      decide (op.kind.combine (signedValue d n) (signedValue s n) (op.carryIn cin) < -2 ^ (n - 1) ∨
        2 ^ (n - 1) - 1 < op.kind.combine (signedValue d n) (signedValue s n) (op.carryIn cin)) := by
  rw [Bool.eq_iff_iff, decide_eq_true_iff, ← overflowFlag_combine _ _ hn hd hs, ← rawResult_eq_combine]
  exact Bool.eq_iff_iff.mp (computeFlags_of ..)

/-- Settles O33: OF of a sum or a difference, for each operation with the carry-in it uses, the operands of 8 bits being
words with an empty high half. -/
theorem overflowFlagIsSignedRange : Obligations.OverflowFlagIsSignedRange := by
  constructor
  · intro f d s cin op
    have hlt (v : BitVec 8) : (v.setWidth 16).toNat < 2 ^ 8 := by
      rw [BitVec.toNat_setWidth_of_le (by decide)]
      exact v.isLt
    refine (flag_of_rawResult op f cin (.inl rfl) (hlt d) (hlt s)).trans (decide_eq_decide.mpr ?_)
    rw [signedValue_byte, signedValue_byte]
    cases op <;> simp [AluKind.combine, ArithOp.kind, ArithOp.carryIn]
  · intro f d s cin op
    refine (flag_of_rawResult op f cin (.inr rfl) d.isLt s.isLt).trans (decide_eq_decide.mpr ?_)
    rw [signedValue_word, signedValue_word]
    cases op <;> simp [AluKind.combine, ArithOp.kind, ArithOp.carryIn]

end Sys2Proof.Machine
end

section
/-!
PROOFS. The statements about the jumps: opcode byte, condition and pc of the sixteen conditional jumps (43_jumps.md R200
to R216), the pairs of a jump and its negation (R221), and the LOOP family under both settings (R217 to R220, R224).
-/

namespace Sys2Proof.Machine

/-! ### Decoding a jump (R200) -/

/-- A byte whose family is a jump decodes with the next byte as the displacement. -/
theorem decode_of_lookup_jump {opcode : Byte} {j : Jump} (h : lookup opcode = some (.jump j)) (mode : AccAddrMode)
    (k : Nat) (disp : Byte) (rest : List Byte) :
    decode mode { index := k, rest := opcode :: disp :: rest } =
      .ok (j.instr disp, { index := k + 2, rest := rest }) :=
  decode_of_lookup h mode k (disp :: rest)

/-! ### The state after a jump or a loop -/

/-- `jumpTo_eq` with the condition as a proposition. -/
theorem jumpTo_eq_of_iff {c : Bool} {cond : Prop} [Decidable cond] (hc : c = true ↔ cond) (disp : Byte) (s : State) :
    jumpTo c disp s = { s with
      regs := s.regs.set .ip (if cond then s.regs.ip + 2 + disp.signExtend 16 else s.regs.ip + 2) } := by
  simp only [jumpTo_eq, hc]
  rfl

theorem jumpsIf_of_exec {i : Instr} {c : Bool} {cond : Prop} [Decidable cond] {disp : Byte} {s : State}
    (hc : c = true ↔ cond) (he : exec i s = .next (jumpTo c disp s)) : JumpsIf i cond disp s :=
  he.trans (congrArg _ (jumpTo_eq_of_iff hc disp s))

theorem loopsIf_of_exec {i : Instr} {c : Bool} {test : Prop} [Decidable test] {disp : Byte} {s : State}
    (hc : c = true ↔ test) (he : exec i s = .next (loopStep c disp s)) : LoopsIf i test disp s := by
  have hcond : ((s.regs.cx - 1 != 0) && c) = true ↔ s.regs.cx - 1 ≠ 0 ∧ test := by
    rw [Bool.and_eq_true, bne_iff_ne, hc]
  exact he.trans (congrArg _ (jumpTo_eq_of_iff hcond disp (decrementCx s)))

/-! ### The conditional jumps (R201 to R216) -/

/-- A jump's rule from its key and from the meaning `exec` gives it. -/
theorem jumpRule_of_exec {opcode : Byte} {j : Jump} {cond : Word → Bool} (hl : lookup opcode = some (.jump j))
    (he : ∀ disp s, exec (j.instr disp) s = jumpIf (cond s.flags) disp s) : JumpRule opcode j.instr cond :=
  ⟨decode_of_lookup_jump hl, fun disp s => jumpsIf_of_exec .rfl (he disp s)⟩

/-- Settles O38: each jump by its key and its meaning. -/
theorem overflowCarryZeroJumps : Obligations.OverflowCarryZeroJumps :=
  ⟨jumpRule_of_exec (j := .jo) (by decide) fun _ _ => rfl,
    jumpRule_of_exec (j := .jno) (by decide) fun _ _ => rfl,
    jumpRule_of_exec (j := .jb) (by decide) fun _ _ => rfl,
    jumpRule_of_exec (j := .jnb) (by decide) fun _ _ => rfl,
    jumpRule_of_exec (j := .je) (by decide) fun _ _ => rfl,
    jumpRule_of_exec (j := .jne) (by decide) fun _ _ => rfl,
    jumpRule_of_exec (j := .jbe) (by decide) fun _ _ => rfl,
    jumpRule_of_exec (j := .jnbe) (by decide) fun _ _ => rfl⟩

/-- Settles O39: each jump by its key and its meaning. -/
theorem signParityLessJumps : Obligations.SignParityLessJumps :=
  ⟨jumpRule_of_exec (j := .js) (by decide) fun _ _ => rfl,
    jumpRule_of_exec (j := .jns) (by decide) fun _ _ => rfl,
    jumpRule_of_exec (j := .jp) (by decide) fun _ _ => rfl,
    jumpRule_of_exec (j := .jnp) (by decide) fun _ _ => rfl,
    jumpRule_of_exec (j := .jl) (by decide) fun _ _ => rfl,
    jumpRule_of_exec (j := .jnl) (by decide) fun _ _ => rfl,
    jumpRule_of_exec (j := .jle) (by decide) fun _ _ => rfl,
    jumpRule_of_exec (j := .jnle) (by decide) fun _ _ => rfl⟩

/-! ### A jump and its negation (R221) -/

/-- A non-zero displacement moves the pc: sign extension keeps the signed value. -/
theorem add_signExtend_ne_self {disp : Byte} (h : disp ≠ 0) (v : Word) : v + disp.signExtend 16 ≠ v := by
  rw [Ne, add_eq_left]
  intro hz
  refine h (BitVec.eq_of_toInt_eq ?_)
  rw [← BitVec.toInt_signExtend_of_le (show 8 ≤ 16 by decide), hz]
  rfl

/-- A jump of a non-zero displacement leaves the fall-through address exactly when its condition fails. -/
theorem JumpRule.exec_ip {opcode : Byte} {make : Byte → Instr} {cond : Word → Bool} (hr : JumpRule opcode make cond)
    {disp : Byte} (hd : disp ≠ 0) (s : State) :
    ∃ t, exec (make disp) s = .next t ∧ (t.regs.ip = s.regs.ip + 2 ↔ cond s.flags = false) := by
  refine ⟨_, hr.2 disp s, ?_⟩
  rw [RegFile.set_ip_ip]
  cases cond s.flags with
  | false => simp
  | true => simpa using add_signExtend_ne_self hd (s.regs.ip + 2)

/-- Of two jumps on opposite conditions exactly one leaves the fall-through address. -/
theorem JumpRule.exactly_one_falls_through {opcode opcode' : Byte} {make make' : Byte → Instr}
    {cond cond' : Word → Bool} (hr : JumpRule opcode make cond) (hr' : JumpRule opcode' make' cond')
    (hneg : ∀ f, cond' f = !cond f) {disp : Byte} (hd : disp ≠ 0) (s : State) :
    ∃ t u, exec (make disp) s = .next t ∧ exec (make' disp) s = .next u ∧
      ((t.regs.ip = s.regs.ip + 2 ∧ u.regs.ip ≠ s.regs.ip + 2) ∨
        (t.regs.ip ≠ s.regs.ip + 2 ∧ u.regs.ip = s.regs.ip + 2)) := by
  obtain ⟨t, ht, htip⟩ := hr.exec_ip hd s
  obtain ⟨u, hu, huip⟩ := hr'.exec_ip hd s
  refine ⟨t, u, ht, hu, ?_⟩
  rw [Ne, Ne, htip, huip, hneg]
  cases cond s.flags <;> decide

/-- Settles O40, from the rules of the sixteen jumps: the conditions of each pair are opposite. -/
theorem negatedJumpsAreComplementary : Obligations.NegatedJumpsAreComplementary := by
  intro disp s hd
  obtain ⟨jo, jno, jb, jnb, je, jne, jbe, jnbe⟩ := overflowCarryZeroJumps
  obtain ⟨js, jns, jp, jnp, jl, jnl, jle, jnle⟩ := signParityLessJumps
  simp only [List.forall_mem_cons]
  refine ⟨?jo, ?jb, ?je, ?jbe, ?js, ?jp, ?jl, ?jle, nofun⟩
  case jo => exact jo.exactly_one_falls_through jno (fun _ => rfl) hd s
  case jb => exact jb.exactly_one_falls_through jnb (fun _ => rfl) hd s
  case je => exact je.exactly_one_falls_through jne (fun _ => rfl) hd s
  case jbe => exact jbe.exactly_one_falls_through jnbe (fun _ => (Bool.not_or ..).symm) hd s
  case js => exact js.exactly_one_falls_through jns (fun _ => rfl) hd s
  case jp => exact jp.exactly_one_falls_through jnp (fun _ => rfl) hd s
  case jl => exact jl.exactly_one_falls_through jnl (fun _ => (Bool.not_not _).symm) hd s
  case jle => exact jle.exactly_one_falls_through jnle (fun _ => by rw [Bool.not_or, bne, Bool.not_not]) hd s

/-! ### The LOOP family (R217 to R220, R224) -/

theorem loopExec_of_i8086 {s : State} (h : s.opts.loopExec = .i8086) (mn : Mnemonic) (t : State) :
    loopExec mn t s = .next t := by
  rw [loopExec, h]

theorem loopExec_of_refuse {s : State} (h : s.opts.loopExec = .refuse) (mn : Mnemonic) (t : State) :
    loopExec mn t s = .refused (.loopExecRefused mn) := by
  rw [loopExec, h]

/-- Settles O41: the four keys, and the four meanings under `LOOP_EXEC = i8086`. -/
theorem loopFamilyEffects : Obligations.LoopFamilyEffects := by
  refine ⟨fun mode k disp rest => ⟨?_, ?_, ?_, ?_⟩, fun disp s h => ⟨?loopnz, ?loopz, ?loop, ?jcxz⟩⟩
  · exact decode_of_lookup_jump (j := .loopnz) (by decide) mode k disp rest
  · exact decode_of_lookup_jump (j := .loopz) (by decide) mode k disp rest
  · exact decode_of_lookup_jump (j := .loop) (by decide) mode k disp rest
  · exact decode_of_lookup_jump (j := .jcxz) (by decide) mode k disp rest
  case loopnz => exact loopsIf_of_exec (Iff.of_eq (Bool.not_eq_true' _)) (loopExec_of_i8086 h ..)
  case loopz => exact loopsIf_of_exec .rfl (loopExec_of_i8086 h ..)
  case loop => exact loopsIf_of_exec (iff_of_true rfl trivial) (loopExec_of_i8086 h ..)
  case jcxz => exact jumpsIf_of_exec beq_iff_eq (loopExec_of_i8086 h ..)

/-- Settles O42: each of the four asks `LOOP_EXEC` first. -/
theorem loopFamilyRefused : Obligations.LoopFamilyRefused :=
  fun _ _ h => ⟨loopExec_of_refuse h .., loopExec_of_refuse h .., loopExec_of_refuse h .., loopExec_of_refuse h ..⟩

end Sys2Proof.Machine
end

section
/-!
PROOFS. The statements about the sequencer (44_sequencer.md R230 to R241): the end test, the step that runs the decoded
instruction, the decode-only walk, what a fatal condition and the normal end change, and the record of a step.
-/

namespace Sys2Proof.Machine

/-! ### What a running machine does (R230, R231) -/

theorem endTest_of_eq {s : State} (h : s.regs.ip.toNat = s.code.length) : endTest s = .atEnd := if_pos h

theorem endTest_of_gt {s : State} (h : s.regs.ip.toNat > s.code.length) : endTest s = .beyond :=
  (if_neg (Nat.ne_of_gt h)).trans (if_pos h)

theorem endTest_of_lt {s : State} (h : s.regs.ip.toNat < s.code.length) : endTest s = .inside :=
  (if_neg (Nat.ne_of_lt h)).trans (if_neg (Nat.not_lt.2 (Nat.le_of_lt h)))

/-- The decoded instruction lies inside the code store (R232, R233). -/
theorem fetchInstr_fits {s : State} {i : Instr} (h : fetchInstr s = .ok i) :
    s.regs.ip.toNat + i.length ≤ s.code.length := by
  have hreads := decode_reads s.opts.accAddr (Cursor.start s.code s.regs.ip.toNat)
  unfold fetchInstr decodeAt at h
  split at h
  next hd =>
    cases h
    rw [hd] at hreads
    obtain ⟨-, hfits : i.length ≤ (s.code.drop s.regs.ip.toNat).length, -⟩ := hreads
    rw [List.length_drop] at hfits
    have hlen := i.length_bounds
    omega
  next => cases h

section
variable {s : State} (hs : s.status = .running) (hc : s.code.length ≤ Config.maxCodeLen)
include hs hc

theorem step_of_atEnd (hip : s.regs.ip.toNat = s.code.length) : step s = .next s.halt := by
  simp only [step, hs, gt_iff_lt, Nat.not_lt.2 hc, if_false, endTest_of_eq hip]

theorem step_of_beyond (hip : s.regs.ip.toNat > s.code.length) :
    step s = .next (s.raise (.fetchOutOfRange s.regs.ip)) := by
  simp only [step, hs, gt_iff_lt, Nat.not_lt.2 hc, if_false, endTest_of_gt hip]

theorem step_of_fetch_error {c : Fatal} (hip : s.regs.ip.toNat < s.code.length) (hf : fetchInstr s = .error c) :
    step s = .next (s.raise c) := by
  simp only [step, hs, gt_iff_lt, Nat.not_lt.2 hc, if_false, endTest_of_lt hip, hf]

theorem step_of_fetch {i : Instr} (hf : fetchInstr s = .ok i) : step s = runInstr i s := by
  have hip : s.regs.ip.toNat < s.code.length := by
    have hfits := fetchInstr_fits hf
    have hlen := i.length_bounds
    omega
  simp only [step, hs, gt_iff_lt, Nat.not_lt.2 hc, if_false, endTest_of_lt hip, hf]

end

theorem runInstr_of_decodeOnly {i : Instr} {s : State} (h : s.opts.runMode = .decodeOnly) :
    runInstr i s = .next (retire i none s (walk i s)) := by
  rw [runInstr, h]

/-! ### The end test, fetch and decode (R231 to R235) -/

/-- Settles O43: the instruction part of a step in `simulate` mode, by what `exec` answers; and the step at a fetch or
decode condition. -/
theorem stepRunsDecodedInstruction : Obligations.StepRunsDecodedInstruction := by
  refine ⟨fun s i hs hc hmode hi => ?runs, fun s c hs hc hip he => step_of_fetch_error hs hc hip he⟩
  case runs =>
    rw [step_of_fetch hs hc hi, runInstr, hmode]
    cases exec i s with
    | next t => rfl
    | fault r => rfl
    | refused r => rfl

/-- Settles O44, by the three results of the end test; a reset with no code stands at its end already. -/
theorem endTestHaltsOrFaults : Obligations.EndTestHaltsOrFaults :=
  ⟨fun _ hs hc hip => step_of_atEnd hs hc hip, fun _ hs hc hip => step_of_beyond hs hc hip, fun _ _ => rfl⟩

/-- Settles O49: the instruction lies inside a code store that the pc can address. -/
theorem sequentialAdvanceNeverWraps : Obligations.SequentialAdvanceNeverWraps := by
  intro s i hc hi
  have hfits : s.regs.ip.toNat + i.length ≤ s.code.length := fetchInstr_fits hi
  refine ⟨hfits, ?_⟩
  rw [BitVec.toNat_add, BitVec.toNat_ofNat, Nat.add_mod_mod]
  exact Nat.mod_eq_of_lt (by omega)

/-! ### The decode-only walk (R237) -/

/-- Settles O47: the step is the walk with its record. -/
theorem decodeOnlyWalksLinearly : Obligations.DecodeOnlyWalksLinearly := by
  intro s i hs hc hmode hi
  have hwalk : ∀ c, (walk i s).status ≠ .fault c := fun c h => by cases hs.symm.trans h
  refine ⟨_, (step_of_fetch hs hc hi).trans (runInstr_of_decodeOnly hmode), ?_⟩
  rw [retire_emitted_of_not_fault i none s _ hwalk]
  simp [walk, record, hs]

/-! ### How a step can end (R235, R238, R240) -/

/-- The location whose write the record of `i` shows: none in `decode_only` mode, where the apply part is skipped
(R237). -/
def recordedLoc (i : Instr) (s : State) : Option Loc := if s.opts.runMode = .simulate then writtenLoc i else none

/-- The three ends of a step: the normal end, a fatal condition of any phase with only STATUS changed, or an instruction
run to its end and recorded. -/
theorem step_ends {s t : State} (h : step s = .next t) :
    (s.regs.ip.toNat = s.code.length ∧ t = s.halt) ∨ (∃ c, t = s.raise c) ∨
      ∃ i u, fetchInstr s = .ok i ∧ u.status = .running ∧ u.emitted = s.emitted ∧
        t = retire i (recordedLoc i s) s u := by
  obtain ⟨hs, -, ⟨hip, ht⟩ | ⟨-, ht⟩ | ⟨-, ⟨c, -, ht⟩ | ⟨i, hi, ⟨hmode, ht⟩ | ⟨hmode, u, hu, ht⟩⟩⟩⟩ := step_cases h
  · exact .inl ⟨hip, ht⟩
  · exact .inr (.inl ⟨_, ht⟩)
  · exact .inr (.inl ⟨c, ht⟩)
  · exact .inr (.inr ⟨i, walk i s, hi, hs, rfl, by rw [ht, recordedLoc, hmode]; rfl⟩)
  · obtain ⟨-, -, ⟨hstatus, hemitted⟩ | ⟨c, -, rfl⟩⟩ := exec_keeps hu
    · exact .inr (.inr ⟨i, u, hi, hstatus.trans hs, hemitted, by rw [ht, recordedLoc, if_pos hmode]⟩)
    · exact .inr (.inl ⟨c, ht.trans (retire_of_fault i _ s _ c rfl)⟩)

/-- Settles O46: of the three ends of a step, only a fatal condition leaves STATUS Fault. -/
theorem fatalStepChangesOnlyStatus : Obligations.FatalStepChangesOnlyStatus := by
  intro s t c h hc
  obtain ⟨-, rfl⟩ | ⟨d, rfl⟩ | ⟨i, u, -, hu, -, rfl⟩ := step_ends h
  · cases hc
  · cases hc; rfl
  · rw [retire_status, hu] at hc; cases hc

/-- Settles O48: of the three ends of a step, only the normal one leaves STATUS Halted; and the end test finds it. -/
theorem haltedOnlyAtCodeEnd : Obligations.HaltedOnlyAtCodeEnd := by
  refine ⟨fun s t h (ht : t.status = .halted) => ?_, fun s hs hc hip => ⟨_, step_of_atEnd hs hc hip, rfl⟩⟩
  obtain ⟨hip, rfl⟩ | ⟨c, rfl⟩ | ⟨i, u, -, hu, -, rfl⟩ := step_ends h
  · exact ⟨hip, rfl⟩
  · cases ht
  · rw [retire_status, hu] at ht; cases ht

/-! ### The record of a step (R240, R241) -/

/-- The memory write of a step is the same with its record put on `emitted`. -/
@[simp] theorem storeOf_retire (dst d : Option Loc) (i : Instr) (s t : State) :
    storeOf dst s (retire i d s t) = storeOf dst s t := by
  simp only [storeOf, retire_mem]

theorem storeOf_recordedLoc (i : Instr) (s t : State) :
    storeOf (recordedLoc i s) s t = if s.opts.runMode = .simulate then storeOf (writtenLoc i) s t else none :=
  apply_ite (storeOf · s t) _ _ _

/-- Settles O51: of the three ends of a step, only a completed instruction leaves STATUS Running and a record. -/
theorem oneRecordPerCompletedStep : Obligations.OneRecordPerCompletedStep := by
  intro s t h
  obtain ⟨-, rfl⟩ | ⟨c, rfl⟩ | ⟨i, u, hi, hu, hemitted, rfl⟩ := step_ends h
  · exact .inr ⟨nofun, rfl⟩
  · exact .inr ⟨nofun, rfl⟩
  · refine .inl ⟨(retire_status ..).trans hu, i, hi, ?_⟩
    have hf : ∀ c, u.status ≠ .fault c := fun c hc => by cases hu.symm.trans hc
    rw [retire_emitted_of_not_fault i _ s u hf, hemitted, record, storeOf_recordedLoc]
    simp only [retire_regs, retire_flags, storeOf_retire]

/-- Settles O52: the letters T, I and D stand at reserved bits. -/
theorem flagStringShowsSixFlags : Obligations.FlagStringShowsSixFlags := by
  intro f h
  have hT : f.getLsbD 8 = false := h 8 (by decide)
  have hI : f.getLsbD 9 = false := h 9 (by decide)
  have hD : f.getLsbD 10 = false := h 10 (by decide)
  simp only [flagString, flag, String.toList_ofList, List.filter_cons, hT, hI, hD, Bool.false_eq_true, if_false]

end Sys2Proof.Machine
end

section
/-!
PROOFS. The statements about the decoder's fatal conditions (60_exceptions.md R253, R254): every reader of the code store
answers the same when more bytes follow, unless it has raised F4; so an encoding cut short can only raise F4.
-/

namespace Sys2Proof

open Sys2Proof.Machine

/-! ### Readers and the bytes that follow (R254) -/

/-- The cursor with more bytes after the end of its store. -/
def Cursor.extend (tail : List Byte) (c : Cursor) : Cursor := { c with rest := c.rest ++ tail }

/-- A reader that answers `x` raised F4 there, or answers the same with `tail` after the store: its answer is then `y`. -/
def StableUnder {α : Type} (tail : List Byte) (x y : Except Fatal (α × Cursor)) : Prop :=
  (∃ z, x = .error (.truncatedInput z)) ∨ y = x.map (Prod.map id (Cursor.extend tail))

section
variable {α β : Type} {tail : List Byte}

theorem StableUnder.pure (a : α) (c : Cursor) :
    StableUnder tail (.ok (a, c)) (.ok (a, c.extend tail)) := .inr rfl

theorem StableUnder.error (e : Fatal) : StableUnder (α := α) tail (.error e) (.error e) := .inr rfl

/-- One reader after another: F4 of either is F4 of the two together. -/
theorem StableUnder.bind {x y : Except Fatal (α × Cursor)} {f : α × Cursor → Except Fatal (β × Cursor)}
    (hx : StableUnder tail x y) (hf : ∀ a c, StableUnder tail (f (a, c)) (f (a, c.extend tail))) :
    StableUnder tail (x >>= f) (y >>= f) := by
  obtain ⟨z, rfl⟩ | rfl := hx
  · exact .inl ⟨z, rfl⟩
  · rcases x with e | ⟨a, c⟩
    · exact .error e
    · exact hf a c

/-- A value that is read with `tail` after the store was read without it, unless F4 was raised there. -/
theorem StableUnder.of_ok {x : Except Fatal (α × Cursor)} {a : α} {c' : Cursor} (h : StableUnder tail x (.ok (a, c'))) :
    (∃ z, x = .error (.truncatedInput z)) ∨ ∃ c, x = .ok (a, c) := by
  obtain hz | heq := h
  · exact .inl hz
  · rcases x with e | ⟨a', c⟩
    · cases heq
    · obtain ⟨rfl, -⟩ := Prod.mk.inj (Except.ok.inj heq)
      exact .inr ⟨c, rfl⟩

variable (c : Cursor)

theorem Cursor.byte_stable : StableUnder tail c.byte (c.extend tail).byte := by
  rcases c with ⟨k, _ | ⟨b, rest⟩⟩
  · exact .inl ⟨_, rfl⟩
  · exact .pure b _

theorem Cursor.word_stable : StableUnder tail c.word (c.extend tail).word :=
  .bind c.byte_stable fun _ c => .bind c.byte_stable fun _ c => .pure _ c

theorem resolve_stable (md : BitVec 2) (rm : BitVec 3) (w : Width) :
    StableUnder tail (resolve c md rm w) (resolve (c.extend tail) md rm w) := by
  unfold resolve
  split
  · split
    · exact .bind c.word_stable fun _ c => .pure _ c
    · exact .pure _ c
  · exact .bind c.byte_stable fun _ c => .pure _ c
  · exact .bind c.word_stable fun _ c => .pure _ c
  · exact .pure _ c
  · exact .error _

theorem immW_stable (w : Width) : StableUnder tail (immW c w) (immW (c.extend tail) w) := by
  cases w with
  | byte => exact .bind c.byte_stable fun _ c => .pure _ c
  | word => exact .bind c.word_stable fun _ c => .pure _ c

theorem immSW_stable (s : Bool) (w : Width) : StableUnder tail (immSW c s w) (immSW (c.extend tail) s w) := by
  cases w with
  | byte => exact .bind c.byte_stable fun _ c => .pure _ c
  | word =>
    cases s with
    | true => exact .bind c.byte_stable fun _ c => .pure _ c
    | false => exact .bind c.word_stable fun _ c => .pure _ c

theorem accAddr_stable (mode : AccAddrMode) (w : Width) :
    StableUnder tail (accAddr mode c w) (accAddr mode (c.extend tail) w) := by
  unfold accAddr
  split
  · exact .bind c.byte_stable fun _ c => .pure _ c
  · exact .bind c.word_stable fun _ c => .pure _ c

variable (mode : AccAddrMode) (b0 : Byte)

theorem decodeRmReg_stable (make : Dir → GReg → RM → Instr) :
    StableUnder tail (decodeRmReg make b0 c) (decodeRmReg make b0 (c.extend tail)) :=
  .bind c.byte_stable fun _ c => .bind (resolve_stable c ..) fun _ c => .pure _ c

theorem decodeAccMem_stable (make : Width → AccAddr → Instr) :
    StableUnder tail (decodeAccMem make mode b0 c) (decodeAccMem make mode b0 (c.extend tail)) :=
  .bind (accAddr_stable c ..) fun _ c => .pure _ c

theorem decodeAccImm_stable (make : Imm → Instr) :
    StableUnder tail (decodeAccImm make b0 c) (decodeAccImm make b0 (c.extend tail)) :=
  .bind (immW_stable c _) fun _ c => .pure _ c

theorem decodeSeg_stable (make : RM → SegReg → Instr) :
    StableUnder tail (decodeSeg make c) (decodeSeg make (c.extend tail)) :=
  .bind c.byte_stable fun _ c => .bind (resolve_stable c ..) fun _ c => .pure _ c

/-- The extension is a function of byte 1 alone (R257). -/
theorem decodeArithImm_stable :
    StableUnder tail (decodeArithImm b0 c) (decodeArithImm b0 (c.extend tail)) := by
  refine .bind c.byte_stable fun b1 c => ?_
  dsimp only
  cases extension (ModRM.ofByte b1).reg with
  | error e => exact .error e
  | ok make => exact .bind (resolve_stable c ..) fun _ c => .bind (immSW_stable c ..) fun _ c => .pure _ c

theorem decodeFamily_stable (f : Family) :
    StableUnder tail (decodeFamily mode b0 c f) (decodeFamily mode b0 (c.extend tail) f) := by
  cases f with
  | movRmReg | addRmReg | subRmReg | cmpRmReg => exact decodeRmReg_stable c b0 _
  | movAccMem | movMemAcc => exact decodeAccMem_stable c mode b0 _
  | addAccImm | subAccImm | cmpAccImm => exact decodeAccImm_stable c b0 _
  | movRmSeg => exact decodeSeg_stable c _
  | movSegRm => exact decodeSeg_stable c fun rm sr => .movSegRm sr rm
  | movRegImm => exact .bind (immW_stable c _) fun _ c => .pure _ c
  | movRmImm =>
    exact .bind c.byte_stable fun _ c => .bind (resolve_stable c ..) fun _ c => .bind (immW_stable c _) fun _ c =>
      .pure _ c
  | arithImm => exact decodeArithImm_stable c b0
  | jump j => exact .bind c.byte_stable fun _ c => .pure _ c

/-- A decoding that has not raised F4 is the same when more bytes follow. -/
theorem decode_stable : StableUnder tail (decode mode c) (decode mode (c.extend tail)) := by
  refine .bind c.byte_stable fun b0 c => ?_
  dsimp only
  cases lookup b0 with
  | none => exact .error _
  | some f => exact decodeFamily_stable c mode b0 f

end

/-- F4 reports the end of the store (R254). -/
theorem truncatedInput_index {mode : AccAddrMode} {c : Cursor} {x : Word}
    (h : decode mode c = .error (.truncatedInput x)) : x = BitVec.ofNat 16 (c.index + c.rest.length) := by
  have hreads := decode_reads mode c
  rwa [h] at hreads

/-- The round trip consumes the encoding to its end (R105, R129). -/
theorem encode_length {mode : AccAddrMode} {i : Instr} (hwf : i.wf mode = true) : (encode i).length = i.length := by
  have hreads := decode_reads mode { index := 0, rest := encode i ++ [] }
  rw [decodeOfEncodeIsIdentity mode i 0 [] hwf, List.append_nil] at hreads
  obtain ⟨-, hle, hc⟩ := hreads
  have hend : [] = (encode i).drop i.length := congrArg Cursor.rest hc
  exact Nat.le_antisymm (List.drop_eq_nil_iff.1 hend.symm) hle

/-- Settles O20: were it not F4, the answer on the first `n` bytes would be that on the whole encoding, an
instruction longer than `n`. -/
theorem truncatedInstructionRaisesF4 : Obligations.TruncatedInstructionRaisesF4 := by
  refine ⟨fun mode i k n hwf hn => ?_, fun mode c x h => truncatedInput_index h⟩
  have hlen : ((encode i).take n).length = n := by
    rw [List.length_take, encode_length hwf, Nat.min_eq_left (Nat.le_of_lt hn)]
  have hstable := decode_stable (tail := (encode i).drop n) { index := k, rest := (encode i).take n } mode
  have hwhole := decodeOfEncodeIsIdentity mode i k [] hwf
  rw [List.append_nil] at hwhole
  rw [Cursor.extend, List.take_append_drop, hwhole] at hstable
  obtain ⟨z, hz⟩ | ⟨c, hc⟩ := hstable.of_ok
  · rw [hz, truncatedInput_index hz, hlen]
  · have hreads := decode_reads mode { index := k, rest := (encode i).take n }
    rw [hc] at hreads
    obtain ⟨-, hle : i.length ≤ ((encode i).take n).length, -⟩ := hreads
    omega

/-- Settles O21: `decode_reads` leaves F3 out. -/
theorem malformedModIsNeverRaised : Obligations.MalformedModIsNeverRaised := by
  intro mode c v h
  have hreads := decode_reads mode c
  rwa [h] at hreads

end Sys2Proof
end

section
/-!
PROOFS. The statements about how a fatal condition stops the machine (60_exceptions.md R251, R256, R258, R259;
44_sequencer.md R235, R236): F1 at fetch, F6 in the apply part, and the stopped machine.
-/

namespace Sys2Proof.Machine

/-! ### An unrecognized byte 0 (R251) -/

theorem cursor_start_of_getElem? {code : List Byte} {pc : Nat} {b : Byte} (h : code[pc]? = some b) :
    Cursor.start code pc = { index := pc, rest := b :: code.drop (pc + 1) } := by
  obtain ⟨hpc, rfl⟩ := List.getElem?_eq_some_iff.1 h
  rw [Cursor.start, List.drop_eq_getElem_cons hpc]

theorem fetchInstr_of_lookup_none {s : State} {b : Byte} (hb : s.code[s.regs.ip.toNat]? = some b)
    (hl : lookup b = none) : fetchInstr s = .error (.unrecognizedOpcode b) := by
  rw [fetchInstr, decodeAt, cursor_start_of_getElem? hb, decode_of_lookup_none hl]

/-- Settles O19: byte 0 alone stops the decoder, hence the fetch and the step. -/
theorem unrecognizedOpcodeStopsMachine : Obligations.UnrecognizedOpcodeStopsMachine := by
  refine ⟨fun mode k b rest hl => decode_of_lookup_none hl mode k rest, fun s b hs hc hb hl => ?_⟩
  obtain ⟨hip, -⟩ := List.getElem?_eq_some_iff.1 hb
  exact step_of_fetch_error hs hc hip (fetchInstr_of_lookup_none hb hl)

/-! ### A memory operand that is not accessible (R258) -/

/-- F6 for a memory operand: it reports the exact address modulo 2^16 (R258). -/
def boundsFault (s : State) (m : MemRef) : Fatal := .memBounds (BitVec.ofInt 16 (exactAddress s.regs m))

theorem effectiveAddress_of_out_of_range {x : RegFile} {m : MemRef}
    (h : ¬ (0 ≤ exactAddress x m ∧ exactAddress x m ≤ 65535)) :
    effectiveAddress .faultOnOverflow x m = .error (.memBounds (BitVec.ofInt 16 (exactAddress x m))) := by
  cases m with
  | direct a =>
    have ha : a.toNat < 65536 := a.isLt
    simp only [exactAddress] at h
    omega
  | indirect base index disp => exact if_neg h

section
variable {s : State} {w : Width} {m : MemRef} (h : ¬ accessible s (.mem w m))
include h

theorem eaMode_of_not_accessible : s.opts.eaMode = .faultOnOverflow := by
  cases hmode : s.opts.eaMode with
  | wrap16 => exact absurd (.inl hmode) h
  | faultOnOverflow => rfl

/-- The sum lies outside the address range, or a word starts at the last byte. -/
theorem address_of_not_accessible :
    effectiveAddress s.opts.eaMode s.regs m = .error (boundsFault s m) ∨
      effectiveAddress s.opts.eaMode s.regs m = .ok 0xFFFF ∧ exactAddress s.regs m = 65535 ∧ w = .word := by
  have hmode := eaMode_of_not_accessible h
  by_cases hr : 0 ≤ exactAddress s.regs m ∧ exactAddress s.regs m ≤ 65535
  · have hlast : ¬ exactAddress s.regs m + widthBytes w ≤ 65536 := fun hle => h (.inr ⟨hr.1, hle⟩)
    have hw : w = .word := by
      cases w with
      | byte => simp only [widthBytes] at hlast; omega
      | word => rfl
    have ha : exactAddress s.regs m = 65535 := by
      rw [hw] at hlast
      simp only [widthBytes] at hlast; omega
    refine .inr ⟨?_, ha, hw⟩
    rw [effectiveAddress_eq _ _ _ (.inr hr), ha]
    rfl
  · exact .inl (hmode ▸ effectiveAddress_of_out_of_range hr)

theorem readLoc_of_not_accessible : readLoc s (.mem w m) = .error (boundsFault s m) := by
  obtain ha | ⟨ha, hlast, rfl⟩ := address_of_not_accessible h
  · simp only [readLoc, ha]
  · have hout : wordInBounds s.opts.eaMode 0xFFFF = false := by rw [eaMode_of_not_accessible h]; rfl
    simp only [readLoc, ha, memRead, hout, boundsFault, hlast]
    rfl

end

/-! ### An operand that cannot be read (R97, R235) -/

/-- A write raises what a read of the same memory operand raises (R51). -/
theorem writeLoc_of_readLoc_error {s : State} {w : Width} {m : MemRef} {c : Fatal}
    (h : readLoc s (.mem w m) = .error c) (v : Word) : writeLoc s (.mem w m) v = .error c := by
  cases ha : effectiveAddress s.opts.eaMode s.regs m with
  | error e =>
    simp only [readLoc, ha] at h
    simp only [writeLoc, ha, h]
  | ok a =>
    simp only [readLoc, ha] at h
    simp only [writeLoc, ha, memWrite_error_iff.2 h]

/-- At most one of the two operands of an instruction is in memory (R90): beside a destination that may be, the source is
a register or an immediate. -/
theorem dst_reg_or_src_accessible {i : Instr} {mn : Mnemonic} {dst : Loc} {src : Operand}
    (h : instruction i = ⟨mn, .two dst src⟩) :
    (∃ w r hi, dst = .reg w r hi) ∨ ∀ s, operandAccessible s src := by
  cases i with
  | movRmReg d | addRmReg d | subRmReg d | cmpRmReg d =>
    cases h
    cases d with
    | toRm => exact .inr fun _ => trivial
    | toReg => exact .inl ⟨_, _, _, rfl⟩
  | movRegImm | movAccMem | movSegRm | addAccImm | subAccImm | cmpAccImm => cases h; exact .inl ⟨_, _, _, rfl⟩
  | movMemAcc | movRmSeg => cases h; exact .inr fun _ => trivial
  | movRmImm rm imm => cases h; exact .inr fun s => immOperand_accessible s imm
  | addRmImm rm imm | adcRmImm rm imm | subRmImm rm imm | sbbRmImm rm imm | cmpRmImm rm imm =>
    cases h; exact .inr fun s => arithImmOperand_accessible s imm
  | _ => cases h

/-- An instruction with two operands is a MOV or arithmetic (R90, R127). -/
theorem mnemonic_mem_of_two_operands {i : Instr} {mn : Mnemonic} {dst : Loc} {src : Operand}
    (h : instruction i = ⟨mn, .two dst src⟩) : mn ∈ twoOperandMnemonics := by
  cases i with
  | movRmReg | movRmImm | movRegImm | movAccMem | movMemAcc | movRmSeg | movSegRm | addRmReg | addAccImm | subRmReg
  | subAccImm | cmpRmReg | cmpAccImm | addRmImm | adcRmImm | subRmImm | sbbRmImm | cmpRmImm => cases h; decide
  | _ => cases h

section
variable {i : Instr} {mn : Mnemonic} {dst : Loc} {src : Operand} {w : Width} {m : MemRef} {s : State} {c : Fatal}
  (hi : instruction i = ⟨mn, .two dst src⟩) (hmem : dst = .mem w m ∨ src = .loc (.mem w m))
  (h : readLoc s (.mem w m) = .error c)
include hi hmem h

/-- Read in its turn, the source raises the condition, or it has a value and the destination raises it. -/
theorem src_error_or_dst_error :
    readOperand s src = .error c ∨ (∃ v, readOperand s src = .ok v) ∧ dst = .mem w m := by
  obtain rfl | rfl := hmem
  · obtain ⟨_, _, _, hreg⟩ | hsrc := dst_reg_or_src_accessible hi
    · cases hreg
    · exact .inr ⟨readOperand_of_accessible (hsrc s), rfl⟩
  · exact .inl h

theorem move_of_mem_error (n : Nat) : move dst src n s = fatalOutcome s c := by
  have hsrc := readOperand_advance s n (instruction_src_noIp hi)
  have hd : locNoIp dst := instruction_dst_noIp hi
  obtain he | ⟨⟨v, hv⟩, rfl⟩ := src_error_or_dst_error hi hmem h
  · simp only [move, hsrc, he]
  · have hw := writeLoc_of_readLoc_error ((readLoc_advance s n hd).trans h) v
    simp only [move, hsrc, hv, hw]

theorem arith_of_mem_error (op : ArithOp) (n : Nat) : arith op dst src n s = fatalOutcome s c := by
  have hsrc := readOperand_advance s n (instruction_src_noIp hi)
  have hd : locNoIp dst := instruction_dst_noIp hi
  obtain he | ⟨⟨v, hv⟩, rfl⟩ := src_error_or_dst_error hi hmem h
  · simp only [arith, hsrc, he]
  · simp only [arith, hsrc, hv, readLoc_advance s n hd, h]

/-- An instruction whose memory operand cannot be read answers what the read raises. -/
theorem exec_of_mem_error : exec i s = fatalOutcome s c := by
  cases exec_shape i with
  | mov dst' src' hi' he =>
    cases hi'.symm.trans hi
    exact (he s).trans (move_of_mem_error hi hmem h _)
  | arith op dst' src' hi' he =>
    cases hi'.symm.trans hi
    exact (he s).trans (arith_of_mem_error hi hmem h op _)
  | jump _ _ hn | loop _ _ hn | jcxz _ hn => exact absurd (hi ▸ mnemonic_mem_of_two_operands hi) hn

end

/-- Settles O28: the read of the operand raises F6, and a fatal condition of the apply part changes only STATUS. -/
theorem memBoundsLeavesOnlyStatus : Obligations.MemBoundsLeavesOnlyStatus :=
  fun _ _ _ _ _ _ _ _ _ hi hmem h =>
    ⟨eaMode_of_not_accessible h, exec_of_mem_error hi hmem (readLoc_of_not_accessible h)⟩

/-! ### The stopped machine (R236, R259) -/

theorem step_of_halted {s : State} (h : s.status = .halted) : step s = .fault .haltedHasNoStep := by
  simp only [step, h]

theorem step_of_fault {s : State} {c : Fatal} (h : s.status = .fault c) : step s = .fault (.faultHasNoStep c) := by
  simp only [step, h]

/-- Settles O45: the two stopped states answer their fault, and `step_cases` gives Running for every next state. -/
theorem stoppedMachineHasNoStep : Obligations.StoppedMachineHasNoStep := by
  refine ⟨fun s h => step_of_halted h, fun s c h => step_of_fault h, fun s t h => ?_⟩
  obtain ⟨hrunning, -⟩ := step_cases h
  exact hrunning

end Sys2Proof.Machine
end

section
/-!
PROOFS. The laws of the flag engine as a comparison and as arithmetic (42_flags.md R190): CMP orders its operands, the
carry chains two words to 32 bits, and the identities of ADD and SUB.
-/

namespace Sys2Proof.Machine

/-! ### CMP as a comparison (L-d) -/

theorem resultOf_lt (raw : Int) {n : Nat} (hn : n ≤ 16) : (resultOf raw n).toNat < 2 ^ n := by
  have hlt := Int.emod_lt_of_pos raw (by positivity : (0 : Int) < 2 ^ n)
  rw [← toNat_resultOf raw hn] at hlt
  exact_mod_cast hlt

section
variable {d s : Word} {n : Nat} (hn : n = 8 ∨ n = 16) (hd : d.toNat < 2 ^ n) (hs : s.toNat < 2 ^ n)
include hn hd hs

/-- The masked difference vanishes for equal operands only, since both lie below `2^n`. -/
theorem zeroFlag_sub :
    zeroFlag (resultOf (AluKind.sub.combine d.toNat s.toNat false) n) = decide (d = s) := by
  rw [zeroFlag_resultOf _ (by omega)]
  refine decide_eq_decide.mpr ?_
  rw [BitVec.toNat_eq]
  simp only [AluKind.combine, Bool.toNat_false]
  rcases hn with rfl | rfl <;> omega

/-- SF is the sign of the signed difference, inverted when that difference leaves the signed range, which is OF. -/
theorem signBit_xor_overflowFlag_sub :
    (signBit (resultOf (AluKind.sub.combine d.toNat s.toNat false) n) n ^^
      overflowFlag .sub d s (resultOf (AluKind.sub.combine d.toNat s.toNat false) n) n) =
      decide (signedValue d n < signedValue s n) := by
  have hres := toNat_resultOf (AluKind.sub.combine d.toNat s.toNat false) (n := n) (by omega)
  have hlt := resultOf_lt (AluKind.sub.combine d.toNat s.toNat false) (n := n) (by omega)
  rw [Bool.eq_iff_iff, bne_iff_ne, ne_eq, Bool.eq_iff_iff, overflowFlag_combine _ _ hn hd hs, signBit_iff hn hlt,
    decide_eq_true_iff, signedValue_eq hn hd, signedValue_eq hn hs]
  simp only [AluKind.combine, Bool.toNat_false] at hres ⊢
  rcases hn with rfl | rfl <;> omega

/-- The three relations between its operands that CMP leaves in FLAGS. -/
theorem flags_cmp (f : Word) (cin : Bool) :
    let new := computeFlags .sub f d s (rawResult .cmp d s cin) n
    flag new 0 = decide (d.toNat < s.toNat) ∧ flag new 6 = decide (d = s) ∧
      (flag new 7 ^^ flag new 11) = decide (signedValue d n < signedValue s n) := by
  rw [rawResult_eq_combine]
  exact ⟨(computeFlags_cf ..).trans (carryFlag_combine .sub d.toNat s.toNat false n),
    (computeFlags_zf ..).trans (zeroFlag_sub hn hd hs),
    (congrArg₂ _ (computeFlags_sf ..) (computeFlags_of ..)).trans (signBit_xor_overflowFlag_sub hn hd hs)⟩

end

/-- A byte held in a word is an operand of 8 bits (R22). -/
theorem toNat_setWidth_byte (v : Byte) : (v.setWidth 16).toNat = v.toNat := BitVec.toNat_setWidth_of_le (by decide)

theorem setWidth_byte_inj {v w : Byte} : v.setWidth 16 = w.setWidth 16 ↔ v = w := by
  rw [BitVec.toNat_eq, toNat_setWidth_byte, toNat_setWidth_byte, ← BitVec.toNat_eq]

/-- Settles O34: the relations of `flags_cmp`, for words and for bytes held in words. -/
theorem compareOrdersOperands : Obligations.CompareOrdersOperands := by
  constructor
  · intro f d s cin
    rw [← signedValue_word, ← signedValue_word]
    exact flags_cmp (.inr rfl) d.isLt s.isLt f cin
  · intro f d s cin
    have hlt (v : Byte) : (v.setWidth 16).toNat < 2 ^ 8 := toNat_setWidth_byte v ▸ v.isLt
    have h := flags_cmp (.inl rfl) (hlt d) (hlt s) f cin
    simpa only [toNat_setWidth_byte, setWidth_byte_inj, signedValue_byte] using h

/-! ### Arithmetic on two words (L-f, L-g) -/

/-- A flag computes a condition when its numeric value is 1 under that condition only. -/
theorem eq_decide_iff_toNat {b : Bool} {p : Prop} [Decidable p] : b = decide p ↔ (b.toNat = 1 ↔ p) := by
  rw [Bool.eq_iff_iff, decide_eq_true_iff, Bool.toNat_eq_one]

/-- What a result with its carry or borrow out stands for: a carry adds `2^n` to it, a borrow takes `2^n` away. -/
def AluKind.withCarryOut (kind : AluKind) (n : Nat) (res : Int) (carry : Bool) : Int :=
  match kind with
  | .add => res + 2 ^ n * carry.toNat
  | .sub => res - 2 ^ n * carry.toNat

/-- Masked result and CF together lose nothing of the raw result (R150, R187). -/
theorem withCarryOut_combine (kind : AluKind) {d s : Nat} (c : Bool) {n : Nat} (hn : n = 8 ∨ n = 16)
    (hd : d < 2 ^ n) (hs : s < 2 ^ n) :
    kind.withCarryOut n (resultOf (kind.combine d s c) n).toNat (carryFlag kind (kind.combine d s c) n) =
      kind.combine d s c := by
  have hcf := carryFlag_combine kind d s c n
  rw [toNat_resultOf _ (by omega)]
  generalize carryFlag kind (kind.combine d s c) n = cf at hcf ⊢
  have hc := c.toNat_le
  have hcf1 := cf.toNat_le
  cases kind with
  | add =>
    rw [eq_decide_iff_toNat] at hcf
    simp only [AluKind.withCarryOut, AluKind.combine]
    rcases hn with rfl | rfl <;> omega
  | sub =>
    rw [eq_decide_iff_toNat] at hcf
    simp only [AluKind.withCarryOut, AluKind.combine]
    rcases hn with rfl | rfl <;> omega

/-- The same of an operation: its result and the CF of the new flags word give back the sum or the difference. -/
theorem withCarryOut_rawResult (op : ArithOp) (f d s : Word) (cin : Bool) :
    op.kind.withCarryOut 16 (resultOf (rawResult op d s cin) 16).toNat
        (flag (computeFlags op.kind f d s (rawResult op d s cin) 16) 0) =
      op.kind.combine d.toNat s.toNat (op.carryIn cin) := by
  rw [flag_cf_rawResult, rawResult_eq_combine]
  exact withCarryOut_combine _ _ (.inr rfl) d.isLt s.isLt

/-- Settles O35: the high words take in the carry of the low words, so the two equations of `withCarryOut_rawResult` add
up to one over 32 bits, which fixes the result modulo 2^32 and the carry out. -/
theorem twoWordArithmetic : Obligations.TwoWordArithmetic := by
  intro f lo1 lo2 hi1 hi2
  constructor
  · intro rl f1 rh sum
    have hlow : ((resultOf rl 16).toNat : Int) + 2 ^ 16 * (flag f1 0).toNat = lo1.toNat + lo2.toNat + 0 :=
      withCarryOut_rawResult .add f lo1 lo2 (flag f 0)
    have hhigh : ((resultOf rh 16).toNat : Int) + 2 ^ 16 * (flag (computeFlags .add f1 hi1 hi2 rh 16) 0).toNat =
        hi1.toNat + hi2.toNat + (flag f1 0).toNat := withCarryOut_rawResult .adc f1 hi1 hi2 (flag f1 0)
    have hcf := (flag (computeFlags .add f1 hi1 hi2 rh 16) 0).toNat_le
    exact ⟨by omega, eq_decide_iff_toNat.2 (by omega)⟩
  · intro rl f1 rh diff
    have hlow : ((resultOf rl 16).toNat : Int) - 2 ^ 16 * (flag f1 0).toNat = lo1.toNat - lo2.toNat - 0 :=
      withCarryOut_rawResult .sub f lo1 lo2 (flag f 0)
    have hhigh : ((resultOf rh 16).toNat : Int) - 2 ^ 16 * (flag (computeFlags .sub f1 hi1 hi2 rh 16) 0).toNat =
        hi1.toNat - hi2.toNat - (flag f1 0).toNat := withCarryOut_rawResult .sbb f1 hi1 hi2 (flag f1 0)
    have hcf := (flag (computeFlags .sub f1 hi1 hi2 rh 16) 0).toNat_le
    exact ⟨by omega, eq_decide_iff_toNat.2 (by omega)⟩

/-! ### Identities of ADD and SUB (L-a, L-b, L-c, L-h) -/

/-- The masked result is `d` when the raw result is congruent to it. -/
theorem resultOf_eq_of_emod {d : Word} {raw : Int} {n : Nat} (hn : n ≤ 16) (h : raw % 2 ^ n = d.toNat) :
    resultOf raw n = d := by
  rw [BitVec.toNat_eq, ← Int.natCast_inj, toNat_resultOf raw hn, h]

theorem resultOf_zero {n : Nat} (hn : n ≤ 16) : resultOf 0 n = 0 := resultOf_eq_of_emod hn (Int.zero_emod _)

theorem signBit_zero (n : Nat) : signBit 0 n = false := BitVec.getLsbD_zero

theorem parityFlag_zero : parityFlag 0 = true := by decide

theorem rawResult_add_zero (d : Word) (cin : Bool) : rawResult .add d 0 cin = d.toNat := Int.add_zero _

theorem rawResult_sub_self (d : Word) (cin : Bool) : rawResult .sub d d cin = 0 := Int.sub_self _

section
variable {d : Word} {n : Nat} (hn : n = 8 ∨ n = 16) (hd : d.toNat < 2 ^ n)
include hn hd

/-- L-a, the result: a sum with 0 stays below `2^n`. -/
theorem resultOf_add_zero (cin : Bool) : resultOf (rawResult .add d 0 cin) n = d := by
  rw [rawResult_add_zero]
  exact resultOf_eq_of_emod (by omega) (by rcases hn with rfl | rfl <;> omega)

/-- L-a, the flags: neither the sign nor a nibble changes, and the raw result fits. -/
theorem flags_add_zero (f : Word) (cin : Bool) :
    let new := computeFlags .add f d 0 (rawResult .add d 0 cin) n
    flag new 0 = false ∧ flag new 11 = false ∧ flag new 4 = false := by
  have hres := resultOf_add_zero hn hd cin
  refine ⟨(computeFlags_cf ..).trans ?_, (computeFlags_of ..).trans ?_, (computeFlags_af ..).trans ?_⟩
  · rw [rawResult_add_zero]
    exact decide_eq_false (by rcases hn with rfl | rfl <;> omega)
  · rw [hres, overflowFlag_add_eq, bne_self_eq_false, Bool.and_false]
  · rw [hres]
    simp [auxFlag]

/-- L-c: adding the subtrahend back undoes the subtraction modulo `2^n`. -/
theorem resultOf_add_resultOf_sub (s : Word) (cin cin' : Bool) :
    resultOf (rawResult .add (resultOf (rawResult .sub d s cin) n) s cin') n = d := by
  have hn16 : n ≤ 16 := by omega
  refine resultOf_eq_of_emod hn16 ?_
  have hd' : (d.toNat : Int) < 2 ^ n := by exact_mod_cast hd
  simp only [rawResult]
  rw [toNat_resultOf _ hn16, Int.emod_add_emod, Int.sub_add_cancel, Int.emod_eq_of_lt (Int.natCast_nonneg _) hd']

end

/-- L-b: the result is 0 and the operands' signs and nibbles agree. -/
theorem flags_sub_self (f d : Word) {n : Nat} (hn : n ≤ 16) (cin : Bool) :
    let new := computeFlags .sub f d d (rawResult .sub d d cin) n
    flag new 0 = false ∧ flag new 2 = true ∧ flag new 4 = false ∧ flag new 6 = true ∧ flag new 7 = false ∧
      flag new 11 = false := by
  rw [rawResult_sub_self]
  refine ⟨computeFlags_cf .., (computeFlags_pf ..).trans ?_, (computeFlags_af ..).trans ?_,
    (computeFlags_zf ..).trans ?_, (computeFlags_sf ..).trans ?_, (computeFlags_of ..).trans ?_⟩ <;>
    rw [resultOf_zero hn]
  · exact parityFlag_zero
  · simp [auxFlag]
  · rfl
  · exact signBit_zero n
  · rw [overflowFlag_sub_eq, bne_self_eq_false, Bool.false_and]

/-- L-h: only the result 0 sets ZF, and it has even parity and no sign. -/
theorem flags_of_zf {kind : AluKind} {f d s : Word} {raw : Int} {n : Nat}
    (h : flag (computeFlags kind f d s raw n) 6 = true) :
    flag (computeFlags kind f d s raw n) 7 = false ∧ flag (computeFlags kind f d s raw n) 2 = true := by
  have hres : resultOf raw n = 0 := eq_of_beq ((computeFlags_zf kind f d s raw n).symm.trans h)
  refine ⟨(computeFlags_sf ..).trans ?_, (computeFlags_pf ..).trans ?_⟩ <;> rw [hres]
  · exact signBit_zero n
  · exact parityFlag_zero

/-- Settles O36: the four laws above. -/
theorem arithmeticIdentities : Obligations.ArithmeticIdentities := by
  intro f d s n hn hd _
  have hn16 : n ≤ 16 := by omega
  refine ⟨⟨resultOf_add_zero hn hd _, flags_add_zero hn hd f _⟩, ⟨?_, flags_sub_self f d hn16 _⟩,
    fun cin => resultOf_add_resultOf_sub hn hd s _ cin, fun kind raw => flags_of_zf⟩
  rw [rawResult_sub_self, resultOf_zero hn16]

end Sys2Proof.Machine
end

section
/-!
PROOFS. The statements about single accesses, encodings and states that stand beside the families above: a mixed-width
access (20_memory.md R52), encodings written out (30_encoding.md), the overlong code store (U16), and what reset leaves
(R33, R280).
-/

namespace Sys2Proof.Machine

/-! ### Mixed-width access (R52) -/

/-- Settles O6: the bytes of a word store are read back one by one, by the statement about byte reads and
`read_storeBytes_word`; a word's two addresses differ also where the second wraps. -/
theorem mixedWidthAccessSeesOverlay : Obligations.MixedWidthAccessSeesOverlay := by
  intro mode m m' a v old hm hw
  obtain ⟨-, rfl⟩ := memWrite_ok_iff.1 hw
  obtain ⟨hbyte, -, -⟩ := memoryReadIsLittleEndian
  refine ⟨(hbyte mode _ a).trans ?low, (hbyte mode _ (a + 1)).trans ?high⟩ <;> rw [read_storeBytes_word hm]
  case low => rw [if_pos rfl]; rfl
  case high => rw [if_neg (word_succ_toNat_ne a), if_pos (word_succ_toNat a)]; rfl

/-! ### Encodings written out (30_encoding.md section 1) -/

/-- An encoding at the beginning of the code store, and nothing after it, decodes to its instruction (R129). -/
theorem decodeAt_encode {mode : AccAddrMode} {i : Instr} (h : i.wf mode = true) :
    decodeAt mode (encode i) 0 = .ok i := by
  have hdec := decodeOfEncodeIsIdentity mode i 0 [] h
  rw [List.append_nil] at hdec
  rw [decodeAt, Cursor.start, List.drop_zero, hdec]

/-- Settles O11: the bytes are those the encoder writes for well-formed instructions. -/
theorem writtenOutBytesDecode : Obligations.WrittenOutBytesDecode := by
  have decodes (i : Instr) (bytes : List Byte) (hwf : i.wf .byW = true) (henc : encode i = bytes) :
      decodeAt .byW bytes 0 = .ok i := henc ▸ decodeAt_encode hwf
  exact ⟨decodes _ _ rfl rfl, decodes _ _ rfl rfl, decodes _ _ rfl rfl, decodes _ _ rfl rfl, decodes _ _ rfl rfl,
    decodes _ _ rfl rfl, decodes _ _ rfl rfl, decodes _ _ rfl rfl, decodes _ _ rfl rfl, decodes _ _ rfl rfl,
    decodes _ _ rfl rfl⟩

/-! ### The overlong code store (U16, D5) -/

/-- Settles O50: the length is examined before the end test. -/
theorem overlongCodeIsRefused : Obligations.OverlongCodeIsRefused := by
  intro s hs hc
  have hlong : s.code.length > Config.maxCodeLen := hc
  simp only [step, hs, if_pos hlong]

/-! ### Reset (R33, R280) -/

@[simp] theorem RegFile.get_zero (r : Reg) : RegFile.zero.get r = 0 := by cases r <;> rfl

theorem resetWith_status (code : List Byte) (m : Memory) (o : Options) :
    (State.resetWith code m o).status = if code = [] then .halted else .running := by
  cases code <;> rfl

/-- Settles O53: each field is the one reset is given or the zero it writes; `State.reset` lists no byte of memory. -/
theorem resetValues : Obligations.ResetValues :=
  ⟨fun code m o => ⟨RegFile.get_zero, rfl, rfl, rfl, rfl, rfl, resetWith_status code m o⟩, resetWith_default.symm,
    fun _ => rfl⟩

/-- A reset meets the invariant: it is Halted only with no code, where the pc is 0, and never in Fault. -/
theorem resetWith_inv {code : List Byte} {m : Memory} (hc : code.length ≤ Config.maxCodeLen) (hm : m.wf = true)
    (o : Options) : (State.resetWith code m o).Inv where
  memWf := hm
  codeFits := hc
  reservedZero _ _ := BitVec.getLsbD_zero
  haltedAtEnd h := by
    rw [resetWith_status] at h
    split_ifs at h with hcode
    rw [resetWith_code, hcode]
    rfl
  faultPossible c h := by
    rw [resetWith_status] at h
    split_ifs at h

/-- Settles O54: `State.reset` is a reset too, and cells describe a canonical memory. -/
theorem resetMeetsInvariant : Obligations.ResetMeetsInvariant :=
  ⟨resetWith_default ▸ resetWith_inv (Nat.zero_le _) Memory.wf_nil _,
    fun _ cells o hc => resetWith_inv hc (Memory.ofCells_wf cells) o⟩

end Sys2Proof.Machine
end
